-- ==== Sys2Proof/Word.lean ====
section
/-! DEFINITION. The bit-vector widths of the block's registers and wire fields (R7, R8, R21), and byte sequences. -/

namespace Sys2Proof

/-- One byte of a buffer or of the wire (u8). -/
abbrev Byte := BitVec 8

/-- A 16-bit wire field or register field (u16). -/
abbrev Half := BitVec 16

/-- A 32-bit register or wire field (u32). -/
abbrev Word := BitVec 32

/-- A byte sequence, index 0 first (R8). -/
abbrev Bytes := List Byte

end Sys2Proof
end

