-- ==== Sys2Proof/Syntax.lean ====
section
/-! DEFINITION. The 13 commands (R82), their written form (R90), and the wire values they work on (R100, R122, R150, R170, R46). -/

namespace Sys2Proof

/-- The commands, one constructor per row of the opcode map (R82). The operand is IMM16 (R81): the declared
length of PAD_LEN, the table index of ATTR_GET, the attribute type of FIND_ATTR. -/
inductive Instr where
  | hdrDecode
  | hdrEncode
  | padLen (n : Half)
  | attrDecode
  | attrEncode
  | attrDecodeAll
  | attrGet (i : Half)
  | xmaSerialize
  | xmaDeserialize
  | msgDecode
  | msgEncode
  | findAttr (t : Half)
  | extractXma
  deriving DecidableEq, Repr

/-- The mnemonics of R82. -/
inductive Mnemonic where
  | HDR_DECODE | HDR_ENCODE
  | PAD_LEN | ATTR_DECODE | ATTR_ENCODE | ATTR_DECODE_ALL | ATTR_GET
  | XMA_SERIALIZE | XMA_DESERIALIZE
  | MSG_DECODE | MSG_ENCODE | FIND_ATTR | EXTRACT_XMA
  deriving DecidableEq, Repr

/-- A command as R90 writes it: a mnemonic and at most one operand, a number. -/
structure AsmLine where
  mnemonic : Mnemonic
  operand  : Option Nat
  deriving DecidableEq, Repr

/-- The written form of a command (R90). -/
def Instr.asmLine : Instr → AsmLine
  | .hdrDecode      => ⟨.HDR_DECODE, none⟩
  | .hdrEncode      => ⟨.HDR_ENCODE, none⟩
  | .padLen n       => ⟨.PAD_LEN, some n.toNat⟩
  | .attrDecode     => ⟨.ATTR_DECODE, none⟩
  | .attrEncode     => ⟨.ATTR_ENCODE, none⟩
  | .attrDecodeAll  => ⟨.ATTR_DECODE_ALL, none⟩
  | .attrGet i      => ⟨.ATTR_GET, some i.toNat⟩
  | .xmaSerialize   => ⟨.XMA_SERIALIZE, none⟩
  | .xmaDeserialize => ⟨.XMA_DESERIALIZE, none⟩
  | .msgDecode      => ⟨.MSG_DECODE, none⟩
  | .msgEncode      => ⟨.MSG_ENCODE, none⟩
  | .findAttr t     => ⟨.FIND_ATTR, some t.toNat⟩
  | .extractXma     => ⟨.EXTRACT_XMA, none⟩

/-- A header value (R100). It is valid when `txid` has 12 bytes. -/
structure Header where
  type   : Half
  length : Half
  cookie : Word
  txid   : Bytes
  deriving DecidableEq, Repr

/-- An attribute value (R122). It is valid when `plen` is the padded `dlen` and `value` has `plen` bytes. -/
structure Attr where
  type  : Half
  dlen  : Half
  plen  : Nat
  value : Bytes
  deriving DecidableEq, Repr

/-- An XorMappedAddr value (R150). -/
structure XorMappedAddr where
  family : Byte
  addr   : Word
  port   : Half
  deriving DecidableEq, Repr

/-- A message value (R170), attributes in wire order. -/
structure Message where
  header : Header
  attrs  : List Attr
  deriving DecidableEq, Repr

/-- The outcome of `extract_mapped_address` that is not an error (R174). -/
inductive Extracted where
  | notApplicable
  | mapped (a : XorMappedAddr)
  deriving DecidableEq, Repr

/-- One entry of the attribute table (R46): type, declared length, IBUF offset of the first value byte. -/
structure AtabEntry where
  type : Half
  dlen : Half
  voff : Half
  deriving DecidableEq, Repr, Inhabited

end Sys2Proof
end

