-- ==== Sys2Proof/WellFormed.lean ====
section
/-! DEFINITION. When a written command is one the assembler accepts (R90), and when a wire value is valid (R106, R122). -/

namespace Sys2Proof

/-- The three reasons for which R90's assembler refuses a line. -/
inductive AsmProblem where
  /-- "an operand out of range": above 0xFFFF. -/
  | operandOutOfRange
  /-- "an operand given to a command that takes none". -/
  | operandGiven
  /-- "a missing operand". -/
  | operandMissing
  deriving DecidableEq, Repr

/-- PAD_LEN, ATTR_GET and FIND_ATTR take an operand, no other command does (R90). -/
def Mnemonic.takesOperand : Mnemonic → Bool
  | .PAD_LEN | .ATTR_GET | .FIND_ATTR => true
  | .HDR_DECODE | .HDR_ENCODE | .ATTR_DECODE | .ATTR_ENCODE | .ATTR_DECODE_ALL | .XMA_SERIALIZE
  | .XMA_DESERIALIZE | .MSG_DECODE | .MSG_ENCODE | .EXTRACT_XMA => false

/-- What is wrong with a written command, if anything (R90). -/
def AsmLine.problem (l : AsmLine) : Option AsmProblem :=
  match l.mnemonic.takesOperand, l.operand with
  | true,  none   => some .operandMissing
  | true,  some n => if n ≤ 0xFFFF then none else some .operandOutOfRange
  | false, none   => none
  | false, some _ => some .operandGiven

/-- A written command the assembler accepts. -/
abbrev AsmLine.WellFormed (l : AsmLine) : Prop := l.problem = none

/-- A command whose written form the assembler accepts. Every command is one: IMM16 has 16 bits by its type. -/
abbrev Instr.WellFormed (i : Instr) : Prop := i.asmLine.WellFormed

/-- "every field value is valid, len(h.txid) = 12" (R106). -/
abbrev Header.Valid (h : Header) : Prop := h.txid.length = 12

end Sys2Proof
end

