-- ==== Sys2Proof/Decode.lean ====
section
/-! DEFINITION. The command word (R80 to R84): the decoder, then the encoder and the assembler (R90). -/

namespace Sys2Proof

/-- OPC = bits 7:0 (R80). -/
def opcOf (w : Word) : BitVec 8 := w.extractLsb' 0 8
/-- RSV = bits 15:8 (R80). -/
def rsvOf (w : Word) : BitVec 8 := w.extractLsb' 8 8
/-- IMM16 = bits 31:16 (R80, R81). -/
def immOf (w : Word) : Half := w.extractLsb' 16 16

/-- Why a word is no command (R83). -/
inductive DecodeReject where
  | unknownOpcode (opc : BitVec 8)
  | reservedNotZero (rsv : BitVec 8)
  | immediateNotZero (imm : Half)
  deriving DecidableEq, Repr

/-- A command that does not use IMM16 must have it 0 (R80, R83). -/
def withoutImm (imm : Half) (i : Instr) : Except DecodeReject Instr :=
  if imm = 0 then .ok i else .error (.immediateNotZero imm)

/-- The rows of R82 by opcode number, the immediate given. -/
def decodeOpc (opc : Nat) (imm : Half) : Except DecodeReject Instr :=
  match opc with
  | 0x01 => withoutImm imm .hdrDecode
  | 0x02 => withoutImm imm .hdrEncode
  | 0x10 => .ok (.padLen imm)
  | 0x11 => withoutImm imm .attrDecode
  | 0x12 => withoutImm imm .attrEncode
  | 0x13 => withoutImm imm .attrDecodeAll
  | 0x14 => .ok (.attrGet imm)
  | 0x20 => withoutImm imm .xmaSerialize
  | 0x21 => withoutImm imm .xmaDeserialize
  | 0x30 => withoutImm imm .msgDecode
  | 0x31 => withoutImm imm .msgEncode
  | 0x32 => .ok (.findAttr imm)
  | 0x33 => withoutImm imm .extractXma
  | other => .error (.unknownOpcode (BitVec.ofNat 8 other))

/-- The command a word encodes, or why it is illegal (R82, R83). Total on all words. -/
def decode (w : Word) : Except DecodeReject Instr :=
  if rsvOf w = 0 then decodeOpc (opcOf w).toNat (immOf w) else .error (.reservedNotZero (rsvOf w))

/-- The opcode of each command (R82). -/
def Instr.opc : Instr → BitVec 8
  | .hdrDecode      => 0x01
  | .hdrEncode      => 0x02
  | .padLen _       => 0x10
  | .attrDecode     => 0x11
  | .attrEncode     => 0x12
  | .attrDecodeAll  => 0x13
  | .attrGet _      => 0x14
  | .xmaSerialize   => 0x20
  | .xmaDeserialize => 0x21
  | .msgDecode      => 0x30
  | .msgEncode      => 0x31
  | .findAttr _     => 0x32
  | .extractXma     => 0x33

/-- IMM16 of each command: its operand, or 0 (R80, R81). -/
def Instr.imm : Instr → Half
  | .padLen n   => n
  | .attrGet i  => i
  | .findAttr t => t
  | .hdrDecode | .hdrEncode | .attrDecode | .attrEncode | .attrDecodeAll | .xmaSerialize | .xmaDeserialize
  | .msgDecode | .msgEncode | .extractXma => 0

/-- The one 32-bit word of a command: IMM16, RSV = 0, OPC (R80). -/
def encode (i : Instr) : Word := i.imm ++ ((0 : BitVec 8) ++ i.opc : BitVec 16)

/-- The command a written line names, its operand given. -/
def Mnemonic.instr (imm : Half) : Mnemonic → Instr
  | .HDR_DECODE      => .hdrDecode
  | .HDR_ENCODE      => .hdrEncode
  | .PAD_LEN         => .padLen imm
  | .ATTR_DECODE     => .attrDecode
  | .ATTR_ENCODE     => .attrEncode
  | .ATTR_DECODE_ALL => .attrDecodeAll
  | .ATTR_GET        => .attrGet imm
  | .XMA_SERIALIZE   => .xmaSerialize
  | .XMA_DESERIALIZE => .xmaDeserialize
  | .MSG_DECODE      => .msgDecode
  | .MSG_ENCODE      => .msgEncode
  | .FIND_ATTR       => .findAttr imm
  | .EXTRACT_XMA     => .extractXma

/-- R90's assembler: the word of a written command, or why it refuses the line. -/
def assemble (l : AsmLine) : Except AsmProblem Word :=
  match l.problem with
  | some p => .error p
  | none   => .ok (encode (l.mnemonic.instr (BitVec.ofNat 16 (l.operand.getD 0))))

/-- What the decoder reads from a command given as the opcode table numbers its bits. Bits from `nbits` on are 0.
A command is 32 bits (R84), so a value that does not fit in 32 bits is none. -/
def decodeTableWord (nbits w : Nat) : Option Instr :=
  if w % 2 ^ nbits < 2 ^ 32 then (decode (BitVec.ofNat 32 (w % 2 ^ nbits))).toOption else none

end Sys2Proof
end

