-- ==== Sys2Proof/Config.lean ====
section
/-! DEFINITION. The block's parameters (R6) and the free values of its reset contents (R232). -/

namespace Sys2Proof

/-- The five parameters of R6. They are fixed for a model instance; State holds them, and no step changes them. -/
structure Config where
  bufBytes      : Nat
  vbufBytes     : Nat
  atabEntries   : Nat
  enforceCookie : Bool
  hostBase      : Nat
  deriving DecidableEq, Repr

/-- The legal ranges of R6. "Sizes outside these ranges are not a configuration of this block" (I13). -/
abbrev Config.Legal (c : Config) : Prop :=
  (20 ≤ c.bufBytes ∧ c.bufBytes ≤ 4096) ∧ (8 ≤ c.vbufBytes ∧ c.vbufBytes ≤ 4096) ∧
    (1 ≤ c.atabEntries ∧ c.atabEntries ≤ 1024)

/-- The defaults of R6. DESIGN CHOICE: the spec gives HOST_BASE no default ("platform's"); the model takes 0,
and no rule depends on it (log entry 4). -/
def Config.default : Config :=
  { bufBytes := 2048, vbufBytes := 2048, atabEntries := 32, enforceCookie := false, hostBase := 0 }

/-- FREE VALUE (R232, I1; log entry 1): what the byte at block address `a` holds after the `epoch`-th reset, until
something writes it. Nothing is known of it. -/
opaque Config.resetByte (epoch a : Nat) : Byte

/-- FREE VALUE (R232, I1; log entry 2): what ATAB entry `i` holds after the `epoch`-th reset, until a command
writes it. Nothing is known of it. -/
opaque Config.resetEntry (epoch i : Nat) : AtabEntry

end Sys2Proof
end

