-- ==== Sys2Proof/Machine/Bytes.lean ====
section
/-! DEFINITION. The constants (R5, R9) and the byte-sequence notation (R8): slices, big-endian fields. -/

namespace Sys2Proof.Machine

/-- MAGIC_COOKIE (R5). -/
def magicCookie : Word := 0x2112A442
/-- high16(MAGIC_COOKIE), the key of the port field (R151). -/
def magicHigh : Half := 0x2112
/-- HDR_BYTES (R5). -/
def hdrBytes : Nat := 20
/-- ATTR_PREFIX_BYTES (R5). -/
def attrPrefixBytes : Nat := 4
/-- XMA_VALUE_BYTES (R5). -/
def xmaValueBytes : Nat := 8
/-- TYPE_BINDING_REQUEST (R5). No command compares with it. -/
def typeBindingRequest : Half := 0x0001
/-- TYPE_BINDING_RESPONSE (R5). -/
def typeBindingResponse : Half := 0x0101
/-- TYPE_ERROR_RESPONSE (R5). No command compares with it. -/
def typeErrorResponse : Half := 0x0111
/-- ATTR_XOR_MAPPED_ADDRESS (R5). -/
def attrXorMappedAddress : Half := 0x0020
/-- FAMILY_IPV4 (R5). -/
def familyIPv4 : Byte := 0x01
/-- IBUF_BASE (R9). -/
def ibufBase : Nat := 0x1000
/-- OBUF_BASE (R9). -/
def obufBase : Nat := 0x2000
/-- VBUF_BASE (R9). -/
def vbufBase : Nat := 0x3000

/-- `b[i]` (R8), which R8 defines for `i < len(b)`. DESIGN CHOICE: outside that range the model answers 0; no command
reads there (log entry 13). -/
def nth (b : Bytes) (i : Nat) : Byte := b.getD i 0

/-- `b[i:j]` (R8), which R8 defines only when `i <= j <= len(b)`. DESIGN CHOICE: outside that range the model clips the
slice to the bytes there are; no command takes such a slice (log entry 13). -/
def slice (b : Bytes) (i j : Nat) : Bytes := (b.take j).drop i

/-- `be16` (R8). -/
def be16 (b0 b1 : Byte) : Half := b0 ++ b1

/-- `be32` (R8). -/
def be32 (b0 b1 b2 b3 : Byte) : Word := (b0 ++ b1 : Half) ++ (b2 ++ b3 : Half)

/-- `tobe16` (R8). -/
def tobe16 (v : Half) : Bytes := [v.extractLsb' 8 8, v.extractLsb' 0 8]

/-- `tobe32` (R8). -/
def tobe32 (v : Word) : Bytes :=
  [v.extractLsb' 24 8, v.extractLsb' 16 8, v.extractLsb' 8 8, v.extractLsb' 0 8]

end Sys2Proof.Machine
end

