-- ==== Sys2Proof/Machine/State.lean ====
section
/-! DEFINITION. All the state the spec gives the block (R20), the outcomes of a step, and the state after reset (R231, R232). -/

namespace Sys2Proof.Machine

/-- The 21 registers, by the spec's names (R21). -/
inductive RegName where
  | CMD | STATUS | ILEN | AOFF | TOTLEN | ACOUNT
  | HTYPE | HLEN | HCOOKIE | TXID0 | TXID1 | TXID2
  | ATYPE | ADLEN | APLEN | AVOFF | VLEN | OLEN
  | XFAM | XADDR | XPORT
  deriving DecidableEq, Repr

/-- The three byte buffers (R43 to R45). -/
inductive Buf where
  | IBUF | OBUF | VBUF
  deriving DecidableEq, Repr

/-- The error kinds the block reports (R201). -/
inductive ErrCode where
  | shortBuffer
  | invalidCookie
  | attributeNotFound
  | unsupportedAddressFamily
  | illegalCommand
  | lengthMismatch
  | capacityExceeded
  deriving DecidableEq, Repr

/-- The defined fields of STATUS (R23); the reserved bits 7 and 31:9 are not stored, they read 0. -/
structure Status where
  err      : BitVec 4
  found    : Bool
  na       : Bool
  cookieOk : Bool
  sticky   : Bool
  deriving DecidableEq, Repr

/-- One access of the host: its host address, its width in bits, and for a write the data (R61 to R63). -/
inductive Access where
  | read  (addr width : Nat)
  | write (addr width data : Nat)
  deriving DecidableEq, Repr

/-- What the outside world does to the block: an access, or a pulse of the reset input (R230). -/
inductive Event where
  | access (a : Access)
  | resetPulse
  deriving DecidableEq, Repr

/-- What the block gave back to the last access. -/
inductive Response where
  | none
  | word (w : Word)
  | byte (b : Byte)
  | written
  deriving DecidableEq, Repr

/-- The architectural state (R20), and four fields of the model's own: the parameters `cfg` (R6; log entry 3),
the accesses still to come `bus` (R71; log entry 5), the answer to the last access `resp` (log entry 6), and
`epoch`, the number of resets, which selects the free reset contents (R232; log entry 1). Each register holds the
bits R21 defines for it. `mem` holds the written bytes of IBUF, OBUF and VBUF by block address (R60), `atab` the
written entries of ATAB from index 0 on (R46). -/
structure State where
  cfg     : Config
  epoch   : Nat
  bus     : List Event
  resp    : Response
  cmd     : Word
  status  : Status
  ilen    : Half
  aoff    : Half
  totlen  : Half
  acount  : Half
  htype   : Half
  hlen    : Half
  hcookie : Word
  txid0   : Word
  txid1   : Word
  txid2   : Word
  atype   : Half
  adlen   : Half
  aplen   : BitVec 17
  avoff   : Half
  vlen    : Half
  olen    : Half
  xfam    : Byte
  xaddr   : Word
  xport   : Half
  mem     : List Host.Cell
  atab    : List AtabEntry
  deriving DecidableEq, Repr

/-- The reasons a step can stop. Both are accesses the host should not have made; no command raises one (R200). -/
inductive Fault where
  /-- An access the block refuses with BusError (R63), raised by `performAccess`. "a model treats a BusError as a
  fault of the host program" (R206). Safe: the block itself would go on unchanged (log entry 7). -/
  | busError (a : Access)
  /-- An access at a host address that is not HOST_BASE plus a block address (R60), raised by `performAccess`. It
  does not reach the block. Safe: the block would not change (log entry 8). -/
  | outsideWindow (a : Access)
  deriving DecidableEq, Repr

/-- The reasons a step can be refused. -/
inductive Refusal where
  /-- A command that has no meaning in the model. Raised by nothing: every arm of `exec` has its meaning. Safe. -/
  | notModelled (mnemonic : String)
  deriving DecidableEq, Repr

/-- The reset state: every register 0 (R231), no byte and no table entry written (R232). The parameters take their
defaults (R6); nothing is on the bus, and no access has been answered (DESIGN CHOICE, log entries 3 to 6). -/
def State.reset : State :=
  { cfg := Config.default, epoch := 0, bus := [], resp := .none
    cmd := 0
    status := { err := 0, found := false, na := false, cookieOk := false, sticky := false }
    ilen := 0, aoff := 0, totlen := 0, acount := 0
    htype := 0, hlen := 0, hcookie := 0, txid0 := 0, txid1 := 0, txid2 := 0
    atype := 0, adlen := 0, aplen := 0, avoff := 0, vlen := 0, olen := 0
    xfam := 0, xaddr := 0, xport := 0
    mem := [], atab := [] }

end Sys2Proof.Machine
end

