-- ==== Sys2Proof/Machine/Flags.lean ====
section
/-! DEFINITION. STATUS (R23): its word, the error codes (R201), and how a command, an error and the host write it. -/

namespace Sys2Proof.Machine

/-- The numbers of the error kinds (R201). -/
def ErrCode.code : ErrCode → BitVec 4
  | .shortBuffer              => 1
  | .invalidCookie            => 2
  | .attributeNotFound        => 3
  | .unsupportedAddressFamily => 4
  | .illegalCommand           => 5
  | .lengthMismatch           => 6
  | .capacityExceeded         => 7

/-- STATUS as the host reads it (R23): bits 31:9 zero, STICKY, bit 7 zero, COOKIE_OK, NA, FOUND, ERR. -/
def statusWord (st : Status) : Word :=
  (0 : BitVec 23) ++ (BitVec.ofBool st.sticky ++ ((0 : BitVec 1) ++ (BitVec.ofBool st.cookieOk ++
    (BitVec.ofBool st.na ++ (BitVec.ofBool st.found ++ st.err : BitVec 5) : BitVec 6) : BitVec 7) : BitVec 8) : BitVec 9)

/-- STATUS after `raise E` (R203): bits 6:0 cleared, ERR = E, STICKY set. -/
def statusRaised (e : ErrCode) : Status :=
  { err := e.code, found := false, na := false, cookieOk := false, sticky := true }

/-- STATUS after `complete` (R204): ERR = 0, the flags the rule set, STICKY unchanged. -/
def statusComplete (found na cookieOk : Bool) (st : Status) : Status :=
  { err := 0, found := found, na := na, cookieOk := cookieOk, sticky := st.sticky }

/-- A host write to STATUS (R23, R64): bit 8 set clears STICKY, every other bit is ignored. -/
def statusWritten (w : Word) (st : Status) : Status :=
  if w.getLsbD 8 then { st with sticky := false } else st

end Sys2Proof.Machine
end

