-- ==== Sys2Proof/Machine/Ops.lean ====
section
/-! DEFINITION. The named operations on memory, ATAB and registers, the host's address map (R60), and how every command ends (R203, R204). -/

namespace Sys2Proof.Machine

/-- The byte written last at an address, or none where nothing has been written since reset (R232). -/
def memPeek : List Host.Cell → Nat → Option Byte
  | [],          _ => none
  | (a, v) :: m, x => if x = a then some v else memPeek m x

/-- Memory with one byte written, in its canonical form: addresses strictly rising. -/
def memPoke : List Host.Cell → Nat → Byte → List Host.Cell
  | [],          x, u => [(x, u)]
  | (a, v) :: m, x, u =>
    if x < a then (x, u) :: (a, v) :: m else if x = a then (x, u) :: m else (a, v) :: memPoke m x u

/-- Memory with a byte sequence written from an address on. -/
def memPokes (m : List Host.Cell) (x : Nat) : Bytes → List Host.Cell
  | []      => m
  | b :: bs => memPokes (memPoke m x b) (x + 1) bs

/-- The canonical form of memory: addresses strictly rising, so no address twice. An unlisted address holds no
known byte, so no entry can equal it. -/
abbrev memWf (m : List Host.Cell) : Prop := m.Pairwise (fun p q => p.1 < q.1)

/-- The byte at a block address: the one written last, else the free value of the last reset (R232, I1). -/
def byteAt (s : State) (a : Nat) : Byte := (memPeek s.mem a).getD (Config.resetByte s.epoch a)

/-- `MemRead(addr, n)` (R9). -/
def memRead (s : State) (a n : Nat) : Bytes := (List.range n).map (fun k => byteAt s (a + k))

/-- `MemWrite(addr, n, v)` (R9), `v` a sequence of `n` bytes. -/
def memWrite (a : Nat) (bs : Bytes) (s : State) : State := { s with mem := memPokes s.mem a bs }

/-- `ATAB[i]` (R9, R46): the entry written last, else the free value of the last reset (R232, I1). -/
def atabAt (s : State) (i : Nat) : AtabEntry := (s.atab[i]?).getD (Config.resetEntry s.epoch i)

/-- The valid entries `ATAB[0 .. ACOUNT-1]`, in wire order (R46). -/
def validEntries (s : State) : List AtabEntry := (List.range s.acount.toNat).map (atabAt s)

/-- Writes `ATAB[i] <- es[i]` for every index of `es`, and ACOUNT (R130, R175). -/
def setAtab (es : List AtabEntry) (s : State) : State :=
  { s with atab := es ++ s.atab.drop es.length, acount := BitVec.ofNat 16 es.length }

/-- The first valid entry of a type, in wire order (R47, R177, R178). -/
def findEntry (t : Half) (s : State) : Option AtabEntry := (validEntries s).find? (fun e => e.type = t)

/-- The offsets of the registers (R21). -/
def RegName.offset : RegName → Nat
  | .CMD    => 0x000
  | .STATUS => 0x004
  | .ILEN   => 0x008
  | .AOFF   => 0x00C
  | .TOTLEN => 0x010
  | .ACOUNT => 0x014
  | .HTYPE  => 0x018
  | .HLEN   => 0x01C
  | .HCOOKIE => 0x020
  | .TXID0  => 0x024
  | .TXID1  => 0x028
  | .TXID2  => 0x02C
  | .ATYPE  => 0x030
  | .ADLEN  => 0x034
  | .APLEN  => 0x038
  | .AVOFF  => 0x03C
  | .VLEN   => 0x040
  | .OLEN   => 0x044
  | .XFAM   => 0x048
  | .XADDR  => 0x04C
  | .XPORT  => 0x050

/-- All 21 registers, in the order of their offsets (R21). -/
def allRegs : List RegName :=
  [.CMD, .STATUS, .ILEN, .AOFF, .TOTLEN, .ACOUNT, .HTYPE, .HLEN, .HCOOKIE, .TXID0, .TXID1, .TXID2,
   .ATYPE, .ADLEN, .APLEN, .AVOFF, .VLEN, .OLEN, .XFAM, .XADDR, .XPORT]

/-- The register at an offset of the register window, if there is one (R60, R61). -/
def regAtOffset (a : Nat) : Option RegName := allRegs.find? (fun r => r.offset = a)

/-- `x[NAME]` as the host reads it (R21, R61): 32 bits, undefined bits 0. -/
def regRead (r : RegName) (s : State) : Word :=
  match r with
  | .CMD     => s.cmd
  | .STATUS  => statusWord s.status
  | .ILEN    => s.ilen.setWidth 32
  | .AOFF    => s.aoff.setWidth 32
  | .TOTLEN  => s.totlen.setWidth 32
  | .ACOUNT  => s.acount.setWidth 32
  | .HTYPE   => s.htype.setWidth 32
  | .HLEN    => s.hlen.setWidth 32
  | .HCOOKIE => s.hcookie
  | .TXID0   => s.txid0
  | .TXID1   => s.txid1
  | .TXID2   => s.txid2
  | .ATYPE   => s.atype.setWidth 32
  | .ADLEN   => s.adlen.setWidth 32
  | .APLEN   => s.aplen.setWidth 32
  | .AVOFF   => s.avoff.setWidth 32
  | .VLEN    => s.vlen.setWidth 32
  | .OLEN    => s.olen.setWidth 32
  | .XFAM    => s.xfam.setWidth 32
  | .XADDR   => s.xaddr
  | .XPORT   => s.xport.setWidth 32

/-- What a WARL count register stores (R24, R36, R37): `min(w[15:0], cap)`. -/
def clampTo (cap : Nat) (w : Word) : Half := BitVec.ofNat 16 (min (w.setWidth 16).toNat cap)

/-- What a host write stores in a register (R64). A write to CMD also runs a command, which `hostWrite` adds. -/
def regWrite (r : RegName) (w : Word) (s : State) : State :=
  match r with
  | .CMD     => { s with cmd := w }
  | .STATUS  => { s with status := statusWritten w s.status }
  | .ILEN    => { s with ilen := clampTo s.cfg.bufBytes w }
  | .AOFF    => { s with aoff := w.setWidth 16 }
  | .TOTLEN  => { s with totlen := w.setWidth 16 }
  | .ACOUNT  => s
  | .HTYPE   => { s with htype := w.setWidth 16 }
  | .HLEN    => { s with hlen := w.setWidth 16 }
  | .HCOOKIE => { s with hcookie := w }
  | .TXID0   => { s with txid0 := w }
  | .TXID1   => { s with txid1 := w }
  | .TXID2   => { s with txid2 := w }
  | .ATYPE   => { s with atype := w.setWidth 16 }
  | .ADLEN   => { s with adlen := w.setWidth 16 }
  | .APLEN   => s
  | .AVOFF   => { s with avoff := w.setWidth 16 }
  | .VLEN    => { s with vlen := clampTo s.cfg.vbufBytes w }
  | .OLEN    => { s with olen := clampTo s.cfg.bufBytes w }
  | .XFAM    => { s with xfam := w.setWidth 8 }
  | .XADDR   => { s with xaddr := w }
  | .XPORT   => { s with xport := w.setWidth 16 }

/-- The base block address of a buffer (R9, R60). -/
def Buf.base : Buf → Nat
  | .IBUF => ibufBase
  | .OBUF => obufBase
  | .VBUF => vbufBase

/-- The capacity of a buffer (R6, R43 to R45). -/
def Buf.size (c : Config) : Buf → Nat
  | .IBUF => c.bufBytes
  | .OBUF => c.bufBytes
  | .VBUF => c.vbufBytes

/-- A block address inside a buffer (R60). -/
def inBuf (c : Config) (b : Buf) (a : Nat) : Bool := b.base ≤ a && a < b.base + b.size c

/-- A block address that R60 maps to a buffer byte. -/
def mappedByte (c : Config) (a : Nat) : Bool := inBuf c .IBUF a || inBuf c .OBUF a || inBuf c .VBUF a

/-- What an access of a width at a block address names, or none where the block refuses it (R61 to R63). -/
inductive Loc where
  | reg (r : RegName)
  | byte (a : Nat)
  deriving DecidableEq, Repr

/-- R61 and R62 accept a 32-bit access at a register's offset and an 8-bit access inside a buffer; R63 refuses every
other width and address. -/
def locate (c : Config) (a width : Nat) : Option Loc :=
  if width = 32 then (regAtOffset a).map .reg
  else if width = 8 then (if mappedByte c a then some (.byte a) else none)
  else none

/-- The block address of a host address (R60), none where the host address is not in the block's window. -/
def blockAddr (c : Config) (h : Nat) : Option Nat :=
  if c.hostBase ≤ h ∧ h < c.hostBase + 0x10000 then some (h - c.hostBase) else none

/-- `raise E` (R203): only STATUS changes. The state given is the one before the command's own writes. -/
def raise (e : ErrCode) (s : State) : State := { s with status := statusRaised e }

/-- `complete` (R204): STATUS from the flags the rule set; the state given holds the command's writes. -/
def complete (found na cookieOk : Bool) (s : State) : State :=
  { s with status := statusComplete found na cookieOk s.status }

/-- Every command ends here (R200): it completes with its staged state, or raises one error on the state before it. -/
def settle (s : State) (r : Except ErrCode State) : Host.Outcome State Fault Refusal :=
  match r with
  | .ok t    => .next t
  | .error e => .next (raise e s)

/-- The block after a reset pulse (R230 to R232): the reset state, fresh free contents, the same parameters, and the
accesses that are still to come. -/
def powerUp (s : State) : State :=
  { State.reset with cfg := s.cfg, epoch := s.epoch + 1, bus := s.bus }

end Sys2Proof.Machine
end

