-- ==== Sys2Proof/Machine/Operands.lean ====
section
/-! DEFINITION. The operand forms: groups of registers read and written as the source's values (R41), and the IBUF windows (R132). -/

namespace Sys2Proof.Machine

/-- `hdr_regs()` (R41). -/
def hdrRegs (s : State) : Header :=
  { type := s.htype, length := s.hlen, cookie := s.hcookie
    txid := tobe32 s.txid0 ++ tobe32 s.txid1 ++ tobe32 s.txid2 }

/-- `x[TXIDk]` of a transaction ID: `be32` of its bytes 4k to 4k+3 (R31, R41). Every ID a command writes has 12 bytes;
of a shorter one a missing byte is read as 0 (DESIGN CHOICE, log entry 13). -/
def txidWord (t : Bytes) (k : Nat) : Word :=
  be32 (nth t (4 * k)) (nth t (4 * k + 1)) (nth t (4 * k + 2)) (nth t (4 * k + 3))

/-- `set_hdr_regs(h)` (R41). -/
def setHdrRegs (h : Header) (s : State) : State :=
  { s with htype := h.type, hlen := h.length, hcookie := h.cookie
           txid0 := txidWord h.txid 0, txid1 := txidWord h.txid 1, txid2 := txidWord h.txid 2 }

/-- The padding calculator `pad4` (R120), on unbounded naturals. -/
def pad4 (n : Nat) : Nat := if n % 4 = 0 then n else n + (4 - n % 4)

/-- APLEN's value for a declared length: `pad4`, 17 bits wide (R34). -/
def aplenOf (n : Half) : BitVec 17 := BitVec.ofNat 17 (pad4 n.toNat)

/-- `set_attr_regs(type, dlen, voff)` (R41). -/
def setAttrRegs (type dlen voff : Half) (s : State) : State :=
  { s with atype := type, adlen := dlen, aplen := aplenOf dlen, avoff := voff }

/-- The address registers written from a value (R155, R178). -/
def setXmaRegs (a : XorMappedAddr) (s : State) : State :=
  { s with xfam := a.family, xaddr := a.addr, xport := a.port }

/-- `x[OLEN] <- n` (R37). -/
def setOlen (n : Half) (s : State) : State := { s with olen := n }

/-- `x[VLEN] <- n` (R36). -/
def setVlen (n : Half) (s : State) : State := { s with vlen := n }

/-- `x[APLEN] <- n` (R34). -/
def setAplen (n : BitVec 17) (s : State) : State := { s with aplen := n }

/-- `x[HLEN] <- n` (R29). -/
def setHlen (n : Half) (s : State) : State := { s with hlen := n }

/-- `xma_regs()` (R41). -/
def xmaRegs (s : State) : XorMappedAddr := { family := s.xfam, addr := s.xaddr, port := s.xport }

/-- The received bytes: IBUF bytes 0 to ILEN-1 (R24). -/
def received (s : State) : Bytes := memRead s ibufBase s.ilen.toNat

/-- `attr_window()` (R132). -/
def attrWindow (s : State) : Bytes :=
  if s.aoff.toNat ≤ s.ilen.toNat then memRead s (ibufBase + s.aoff.toNat) (s.ilen.toNat - s.aoff.toNat) else []

/-- The staged value: VBUF bytes 0 to VLEN-1 (R129). -/
def stagedValue (s : State) : Bytes := memRead s vbufBase s.vlen.toNat

end Sys2Proof.Machine
end

