-- ==== Sys2Proof/Machine/AttributeCodec.lean ====
section
/-! DEFINITION. The Attribute Codec (R120 to R132): its pure functions, PAD_LEN, ATTR_DECODE, ATTR_ENCODE, ATTR_DECODE_ALL, ATTR_GET. -/

namespace Sys2Proof.Machine

/-- An attribute value is valid when `plen = pad4(dlen)` and the value has `plen` bytes (R122). -/
abbrev attrValid (a : Attr) : Prop := a.plen = pad4 a.dlen.toNat ∧ a.value.length = a.plen

/-- `attr_decode(b)` (R123). -/
def attrDecode (b : Bytes) : Except ErrCode Attr :=
  if b.length < attrPrefixBytes then .error .shortBuffer
  else
    let n := be16 (nth b 2) (nth b 3)
    let p := pad4 n.toNat
    if b.length < attrPrefixBytes + p then .error .shortBuffer
    else .ok { type := be16 (nth b 0) (nth b 1), dlen := n, plen := p, value := slice b 4 (4 + p) }

/-- `attr_encode(a)` (R124). -/
def attrEncode (a : Attr) : Except ErrCode Bytes :=
  if a.value.length ≠ pad4 a.dlen.toNat then .error .lengthMismatch
  else .ok (tobe16 a.type ++ tobe16 a.dlen ++ a.value)

/-- The loop of `attr_decode_all` from cursor `cur` (R125). Each round moves the cursor by at least 4, so `total`
rounds always suffice and the first line is never reached with a cursor below `total`. -/
def attrDecodeFrom (b : Bytes) (total : Nat) : Nat → Nat → Except ErrCode (List Attr)
  | 0,        cur => if cur < total then .error .shortBuffer else .ok []
  | fuel + 1, cur =>
    if cur < total then
      match attrDecode (slice b cur total) with
      | .error e => .error e
      | .ok a =>
        match attrDecodeFrom b total fuel (cur + 4 + a.plen) with
        | .error e => .error e
        | .ok as => .ok (a :: as)
    else .ok []

/-- `attr_decode_all(b, total)` (R125). -/
def attrDecodeAll (b : Bytes) (total : Nat) : Except ErrCode (List Attr) :=
  if b.length < total then .error .shortBuffer else attrDecodeFrom b total total 0

/-- The table entries of a decoded list whose first attribute starts at IBUF offset `off`: the value of each starts
4 bytes into it, and the next starts `4 + plen` bytes on (R125, R130, R175). -/
def tableEntries (off : Nat) : List Attr → List AtabEntry
  | []      => []
  | a :: as =>
    { type := a.type, dlen := a.dlen, voff := BitVec.ofNat 16 (off + 4) } :: tableEntries (off + 4 + a.plen) as

/-- A decoded list that starts at IBUF offset `off` goes into ATAB if it fits (R130, R175). -/
def tableOf (c : Config) (off : Nat) (out : List Attr) : Except ErrCode (List AtabEntry) :=
  if out.length > c.atabEntries then .error .capacityExceeded else .ok (tableEntries off out)

/-- PAD_LEN n (R127). -/
def execPadLen (n : Half) (s : State) : Host.Outcome State Fault Refusal :=
  settle s (.ok (complete false false false (setAplen (aplenOf n) s)))

/-- ATTR_DECODE (R128). -/
def execAttrDecode (s : State) : Host.Outcome State Fault Refusal :=
  settle s <|
    match attrDecode (attrWindow s) with
    | .error e => .error e
    | .ok a => .ok (complete false false false
        (setAttrRegs a.type a.dlen (BitVec.ofNat 16 (s.aoff.toNat + 4)) s))

/-- The attribute ATTR_ENCODE encodes: ATYPE, ADLEN and the staged value (R129). -/
def stagedAttr (s : State) : Attr :=
  { type := s.atype, dlen := s.adlen, plen := pad4 s.adlen.toNat, value := stagedValue s }

/-- ATTR_ENCODE (R129). -/
def execAttrEncode (s : State) : Host.Outcome State Fault Refusal :=
  settle s <|
    match attrEncode (stagedAttr s) with
    | .error e => .error e
    | .ok e =>
      if s.olen.toNat + e.length > s.cfg.bufBytes then .error .capacityExceeded
      else .ok (complete false false false
        (setAplen (aplenOf s.adlen) (setOlen (BitVec.ofNat 16 (s.olen.toNat + e.length))
          (memWrite (obufBase + s.olen.toNat) e s))))

/-- ATTR_DECODE_ALL (R130). -/
def execAttrDecodeAll (s : State) : Host.Outcome State Fault Refusal :=
  settle s <|
    match attrDecodeAll (attrWindow s) s.totlen.toNat with
    | .error e => .error e
    | .ok out =>
      match tableOf s.cfg s.aoff.toNat out with
      | .error e => .error e
      | .ok es => .ok (complete false false false (setAtab es s))

/-- A table entry loaded into the attribute registers, FOUND set (R131, R177). -/
def loadEntry (e : AtabEntry) (s : State) : State :=
  complete true false false (setAttrRegs e.type e.dlen e.voff s)

/-- ATTR_GET i (R131). -/
def execAttrGet (i : Half) (s : State) : Host.Outcome State Fault Refusal :=
  settle s <|
    if i.toNat ≥ s.acount.toNat then .error .attributeNotFound else .ok (loadEntry (atabAt s i.toNat) s)

end Sys2Proof.Machine
end

