-- ==== Sys2Proof/Machine/HeaderCodec.lean ====
section
/-! DEFINITION. The Header Codec (R100 to R106): its pure functions, HDR_DECODE and HDR_ENCODE. -/

namespace Sys2Proof.Machine

/-- `hdr_decode(b)` (R101). -/
def hdrDecode (b : Bytes) : Except ErrCode Header :=
  if b.length < hdrBytes then .error .shortBuffer
  else .ok { type   := be16 (nth b 0) (nth b 1)
             length := be16 (nth b 2) (nth b 3)
             cookie := be32 (nth b 4) (nth b 5) (nth b 6) (nth b 7)
             txid   := slice b 8 20 }

/-- `hdr_encode(h)` (R102). -/
def hdrEncode (h : Header) : Bytes := tobe16 h.type ++ tobe16 h.length ++ tobe32 h.cookie ++ h.txid

/-- `cookie_ok(h)` (R103). -/
def cookieOk (h : Header) : Bool := h.cookie = magicCookie

/-- `hdr_check(h)` (R103). -/
def hdrCheck (c : Config) (h : Header) : Except ErrCode Header :=
  if c.enforceCookie = true ∧ cookieOk h = false then .error .invalidCookie else .ok h

/-- HDR_DECODE (R104). -/
def execHdrDecode (s : State) : Host.Outcome State Fault Refusal :=
  settle s <|
    match hdrDecode (received s) with
    | .error e => .error e
    | .ok h =>
      match hdrCheck s.cfg h with
      | .error e => .error e
      | .ok h => .ok (complete false false (cookieOk h) (setHdrRegs h s))

/-- HDR_ENCODE (R105). -/
def execHdrEncode (s : State) : Host.Outcome State Fault Refusal :=
  settle s (.ok (complete false false false
    (setOlen 20 (memWrite obufBase (hdrEncode (hdrRegs s)) s))))

end Sys2Proof.Machine
end

