-- ==== Sys2Proof/Machine/XorMappedAddress.lean ====
section
/-! DEFINITION. The XOR-Mapped-Address Transform (R150 to R155): its pure functions, XMA_SERIALIZE and XMA_DESERIALIZE. -/

namespace Sys2Proof.Machine

/-- `xma_serialize(family, addr, port)` (R151). -/
def xmaSerialize (a : XorMappedAddr) : Except ErrCode Bytes :=
  if a.family ≠ familyIPv4 then .error .unsupportedAddressFamily
  else .ok ([0x00, 0x01] ++ tobe16 (a.port ^^^ magicHigh) ++ tobe32 (a.addr ^^^ magicCookie))

/-- `xma_deserialize(v)` (R152). -/
def xmaDeserialize (v : Bytes) : Except ErrCode XorMappedAddr :=
  if v.length < xmaValueBytes then .error .shortBuffer
  else if nth v 1 ≠ familyIPv4 then .error .unsupportedAddressFamily
  else .ok { family := familyIPv4
             port   := be16 (nth v 2) (nth v 3) ^^^ magicHigh
             addr   := be32 (nth v 4) (nth v 5) (nth v 6) (nth v 7) ^^^ magicCookie }

/-- The 8 value bytes at an IBUF offset, deserialized, if they lie within the received bytes (R155, R178). -/
def xmaAt (off : Nat) (s : State) : Except ErrCode XorMappedAddr :=
  if off + 8 > s.ilen.toNat then .error .shortBuffer else xmaDeserialize (memRead s (ibufBase + off) 8)

/-- XMA_SERIALIZE (R154). -/
def execXmaSerialize (s : State) : Host.Outcome State Fault Refusal :=
  settle s <|
    match xmaSerialize (xmaRegs s) with
    | .error e => .error e
    | .ok v => .ok (complete false false false (setVlen 8 (memWrite vbufBase v s)))

/-- XMA_DESERIALIZE (R155). -/
def execXmaDeserialize (s : State) : Host.Outcome State Fault Refusal :=
  settle s <|
    match xmaAt s.avoff.toNat s with
    | .error e => .error e
    | .ok r => .ok (complete false false false (setXmaRegs r s))

end Sys2Proof.Machine
end

