-- ==== Sys2Proof/Machine/MessageAssembly.lean ====
section
/-! DEFINITION. Message Assembly (R170 to R178): its pure functions, MSG_DECODE, MSG_ENCODE, FIND_ATTR, EXTRACT_XMA. -/

namespace Sys2Proof.Machine

/-- The attributes section of a message with header `h` (R171): from byte 20 on, `h.length` bytes. -/
def sectionDecode (b : Bytes) (h : Header) : Except ErrCode (List Attr) :=
  if b.length < 20 + h.length.toNat then .error .shortBuffer
  else attrDecodeAll (slice b 20 b.length) h.length.toNat

/-- `msg_decode(b)` (R171). -/
def msgDecode (b : Bytes) : Except ErrCode Message :=
  match hdrDecode b with
  | .error e => .error e
  | .ok h =>
    match sectionDecode b h with
    | .error e => .error e
    | .ok as => .ok { header := h, attrs := as }

/-- The encodings of a list of attributes, one after the other (R172). -/
def attrsEncode : List Attr → Except ErrCode Bytes
  | []      => .ok []
  | a :: as =>
    match attrEncode a with
    | .error e => .error e
    | .ok e =>
      match attrsEncode as with
      | .error e => .error e
      | .ok es => .ok (e ++ es)

/-- `msg_encode(m)` (R172): the header's length is computed. -/
def msgEncode (m : Message) : Except ErrCode Bytes :=
  match attrsEncode m.attrs with
  | .error e => .error e
  | .ok es =>
    if es.length > 0xFFFF then .error .capacityExceeded
    else .ok (hdrEncode { m.header with length := BitVec.ofNat 16 es.length } ++ es)

/-- `find_attribute(m, t)` (R173): the first match in wire order. -/
def findAttribute (m : Message) (t : Half) : Option Attr := m.attrs.find? (fun a => a.type = t)

/-- `extract_mapped_address(m)` (R174). On an attribute that is not valid (R122), with `dlen >= 8` and fewer than 8
value bytes, R174 takes a slice that R8 does not define; the model's clipped slice makes it ShortBuffer there (DESIGN
CHOICE, log entry 13). -/
def extractMappedAddress (m : Message) : Except ErrCode Extracted :=
  if m.header.type ≠ typeBindingResponse then .ok .notApplicable
  else
    match findAttribute m attrXorMappedAddress with
    | none => .error .attributeNotFound
    | some a =>
      if a.dlen.toNat < 8 then .error .shortBuffer
      else
        match xmaDeserialize (slice a.value 0 8) with
        | .error e => .error e
        | .ok r => .ok (.mapped r)

/-- MSG_DECODE (R175). -/
def execMsgDecode (s : State) : Host.Outcome State Fault Refusal :=
  settle s <|
    match hdrDecode (received s) with
    | .error e => .error e
    | .ok h =>
      match hdrCheck s.cfg h with
      | .error e => .error e
      | .ok h =>
        match sectionDecode (received s) h with
        | .error e => .error e
        | .ok out =>
          match tableOf s.cfg 20 out with
          | .error e => .error e
          | .ok es => .ok (complete false false (cookieOk h) (setAtab es (setHdrRegs h s)))

/-- The registers MSG_ENCODE encodes: HLEN is the number of attribute bytes, OLEN - 20 (R176). -/
def withComputedLength (s : State) : State := setHlen (BitVec.ofNat 16 (s.olen.toNat - 20)) s

/-- MSG_ENCODE (R176). -/
def execMsgEncode (s : State) : Host.Outcome State Fault Refusal :=
  settle s <|
    if s.olen.toNat < 20 then .error .lengthMismatch
    else .ok (complete false false false
      (memWrite obufBase (hdrEncode (hdrRegs (withComputedLength s))) (withComputedLength s)))

/-- FIND_ATTR t (R177). -/
def execFindAttr (t : Half) (s : State) : Host.Outcome State Fault Refusal :=
  settle s <|
    match findEntry t s with
    | none => .error .attributeNotFound
    | some e => .ok (loadEntry e s)

/-- EXTRACT_XMA (R178). -/
def execExtractXma (s : State) : Host.Outcome State Fault Refusal :=
  settle s <|
    if s.htype ≠ typeBindingResponse then .ok (complete false true false s)
    else
      match findEntry attrXorMappedAddress s with
      | none => .error .attributeNotFound
      | some e =>
        if e.dlen.toNat < 8 then .error .shortBuffer
        else
          match xmaAt e.voff.toNat s with
          | .error x => .error x
          | .ok r => .ok (complete true false false (setXmaRegs r s))

end Sys2Proof.Machine
end

