-- ==== Sys2Proof/Machine/Dispatch.lean ====
section
/-! DEFINITION. The meaning of every command, one arm per constructor of Instr. -/

namespace Sys2Proof.Machine

def exec (i : Instr) (s : State) : Host.Outcome State Fault Refusal :=
  match i with
  | .hdrDecode => Sys2Proof.Machine.execHdrDecode s
  | .hdrEncode => Sys2Proof.Machine.execHdrEncode s
  | .padLen n => Sys2Proof.Machine.execPadLen n s
  | .attrDecode => Sys2Proof.Machine.execAttrDecode s
  | .attrEncode => Sys2Proof.Machine.execAttrEncode s
  | .attrDecodeAll => Sys2Proof.Machine.execAttrDecodeAll s
  | .attrGet k => Sys2Proof.Machine.execAttrGet k s
  | .xmaSerialize => Sys2Proof.Machine.execXmaSerialize s
  | .xmaDeserialize => Sys2Proof.Machine.execXmaDeserialize s
  | .msgDecode => Sys2Proof.Machine.execMsgDecode s
  | .msgEncode => Sys2Proof.Machine.execMsgEncode s
  | .findAttr t => Sys2Proof.Machine.execFindAttr t s
  | .extractXma => Sys2Proof.Machine.execExtractXma s

end Sys2Proof.Machine
end

