-- ==== Sys2Proof/Machine/Bus.lean ====
section
/-! DEFINITION. The host's accesses (R60 to R64, R69, R71), how a write to CMD runs a command (R22, R83), and host programs (R91). -/

namespace Sys2Proof.Machine

/-- A write to CMD (R22, R80, R83): the word is stored, then the command it encodes runs; an illegal word raises
IllegalCommand. -/
def runCommand (w : Word) (s : State) : Host.Outcome State Fault Refusal :=
  match decode w with
  | .ok i    => exec i { s with cmd := w }
  | .error _ => .next (raise .illegalCommand { s with cmd := w })

/-- A write the block accepts (R61, R62, R64). `data` is cut to the width of the location. -/
def hostWrite (l : Loc) (data : Nat) (s : State) : Host.Outcome State Fault Refusal :=
  match l with
  | .reg .CMD => runCommand (BitVec.ofNat 32 data) { s with resp := .written }
  | .reg r    => .next { regWrite r (BitVec.ofNat 32 data) s with resp := .written }
  | .byte a   => .next { memWrite a [BitVec.ofNat 8 data] s with resp := .written }

/-- A read the block accepts (R61, R62). It changes nothing but the answer given (R70). -/
def hostRead (l : Loc) (s : State) : Host.Outcome State Fault Refusal :=
  match l with
  | .reg r  => .next { s with resp := .word (regRead r s) }
  | .byte a => .next { s with resp := .byte (byteAt s a) }

/-- The host address and the width of an access. -/
def Access.place : Access → Nat × Nat
  | .read h width    => (h, width)
  | .write h width _ => (h, width)

/-- One host access (R60 to R64). An access the block refuses is a BusError (R63, R206). -/
def performAccess (a : Access) (s : State) : Host.Outcome State Fault Refusal :=
  match blockAddr s.cfg a.place.1 with
  | none => .fault (.outsideWindow a)
  | some b =>
    match locate s.cfg b a.place.2 with
    | none => .fault (.busError a)
    | some l =>
      match a with
      | .read _ _       => hostRead l s
      | .write _ _ data => hostWrite l data s

/-- One event: a host access, or a reset pulse (R230). -/
def performEvent (e : Event) (s : State) : Host.Outcome State Fault Refusal :=
  match e with
  | .access a   => performAccess a s
  | .resetPulse => .next (powerUp s)

/-- The next event is performed and leaves the bus; with none the block is idle and holds all state (R216, R241). -/
def performNext (s : State) : Host.Outcome State Fault Refusal :=
  match s.bus with
  | []        => .next s
  | e :: rest => performEvent e { s with bus := rest }

/-- A host write of a word to CMD, as an event (R22). -/
def cmdWrite (c : Config) (w : Nat) : Event :=
  .access (.write (c.hostBase + RegName.CMD.offset) 32 w)

/-- One line of a host program (R91). -/
inductive HostLine where
  | w  (r : RegName) (v : Nat)
  | r  (r : RegName)
  | wb (b : Buf) (off : Nat) (bytes : Bytes)
  | rb (b : Buf) (off n : Nat)
  | c  (l : AsmLine)
  deriving DecidableEq, Repr

/-- The byte writes of `WB`, in order (R91). -/
def byteWrites (h : Nat) : Bytes → List Event
  | []      => []
  | b :: bs => .access (.write h 8 b.toNat) :: byteWrites (h + 1) bs

/-- The host accesses a line stands for (R91); `C` expands to a write of the word R90 assembles. -/
def HostLine.events (cfg : Config) : HostLine → Except AsmProblem (List Event)
  | .w reg v        => .ok [.access (.write (cfg.hostBase + reg.offset) 32 v)]
  | .r reg          => .ok [.access (.read (cfg.hostBase + reg.offset) 32)]
  | .wb b off bytes => .ok (byteWrites (cfg.hostBase + b.base + off) bytes)
  | .rb b off n     => .ok ((List.range n).map (fun k => .access (.read (cfg.hostBase + b.base + off + k) 8)))
  | .c l            =>
    match assemble l with
    | .error p => .error p
    | .ok word => .ok [cmdWrite cfg word.toNat]

end Sys2Proof.Machine
end

