-- ==== Sys2Proof/Machine/Step.lean ====
section
/-! DEFINITION. One step: the block performs the next host access, and with it the whole command it starts (R69, R240). -/

namespace Sys2Proof.Machine

/-- One step of the block (R240). -/
def step (s : State) : Host.Outcome State Fault Refusal := performNext s

/-- The state with a host write of an instruction word to CMD as the very next access (R22, R48; log entry 9). The
block fetches no instructions: this write IS how a command comes to run. -/
def State.withFetchWord (s : State) (nbits w : Nat) : State :=
  { s with bus := cmdWrite s.cfg (w % 2 ^ nbits) :: s.bus }

end Sys2Proof.Machine
end

