-- ==== Sys2Proof/Safety.lean ====
section
/-! DEFINITION. The terms claims use: what the host can observe, frames, how a command ended, the opcode map as data, and the invariants. -/

namespace Sys2Proof.Machine

/-! ## Frames, in what the host observes -/

/-- Every register outside `rs` reads as before. -/
def SameRegsExcept (rs : List RegName) (s t : State) : Prop := ∀ r, r ∉ rs → regRead r t = regRead r s

/-- Every byte of memory reads as before. -/
def SameBytes (s t : State) : Prop := ∀ a, byteAt t a = byteAt s a

/-- Every byte outside the `n` bytes from `base` on reads as before. -/
def SameBytesOutside (base n : Nat) (s t : State) : Prop :=
  ∀ a, ¬(base ≤ a ∧ a < base + n) → byteAt t a = byteAt s a

/-- Every table entry, valid or not, is as before. -/
def SameTable (s t : State) : Prop := ∀ i, atabAt t i = atabAt s i

/-- The model's own fields are as before: the parameters, the accesses still to come, the answer given, the resets. -/
def SameModelFields (s t : State) : Prop :=
  t.cfg = s.cfg ∧ t.bus = s.bus ∧ t.resp = s.resp ∧ t.epoch = s.epoch

/-! ## How a command ended -/

/-- What R203 says of `raise e`: STATUS reads STICKY and the code, and nothing else has changed. -/
def Raised (e : ErrCode) (s t : State) : Prop :=
  regRead .STATUS t = 0x100#32 + e.code.setWidth 32 ∧
    SameRegsExcept [.STATUS] s t ∧ SameBytes s t ∧ SameTable s t ∧ SameModelFields s t

/-- What R204 says of STATUS at `complete`: ERR = 0, `flags` of bits 6:4, STICKY unchanged. -/
def CompletedWith (flags : Word) (s t : State) : Prop :=
  regRead .STATUS t = (regRead .STATUS s &&& 0x100#32) ||| flags

/-- The FOUND bit of STATUS (R23). -/
def flagFound : Word := 0x10#32
/-- The NA bit of STATUS (R23). -/
def flagNa : Word := 0x20#32
/-- The COOKIE_OK bit of STATUS (R23). -/
def flagCookieOk : Word := 0x40#32

/-- R202's table: which command can raise which code. -/
def mayRaise : Instr → ErrCode → Bool
  | .hdrDecode,      e => e = .shortBuffer || e = .invalidCookie
  | .hdrEncode,      _ => false
  | .padLen _,       _ => false
  | .attrDecode,     e => e = .shortBuffer
  | .attrEncode,     e => e = .lengthMismatch || e = .capacityExceeded
  | .attrDecodeAll,  e => e = .shortBuffer || e = .capacityExceeded
  | .attrGet _,      e => e = .attributeNotFound
  | .xmaSerialize,   e => e = .unsupportedAddressFamily
  | .xmaDeserialize, e => e = .shortBuffer || e = .unsupportedAddressFamily
  | .msgDecode,      e => e = .shortBuffer || e = .invalidCookie || e = .capacityExceeded
  | .msgEncode,      e => e = .lengthMismatch
  | .findAttr _,     e => e = .attributeNotFound
  | .extractXma,     e => e = .shortBuffer || e = .attributeNotFound || e = .unsupportedAddressFamily

/-! ## Numbers and byte ranges, said without the codec's functions -/

/-- The number a byte sequence writes, most significant byte first (R8, R65). -/
def beVal (b : Bytes) : Nat := b.foldl (fun n x => n * 256 + x.toNat) 0

/-- `4 * ceil(n / 4)` (R120). -/
def padded (n : Nat) : Nat := 4 * ((n + 3) / 4)

/-- The byte at an offset of IBUF. -/
def ibuf (s : State) (off : Nat) : Byte := byteAt s (0x1000 + off)

/-- `n` bytes of IBUF from an offset on. -/
def ibufBytes (s : State) (off n : Nat) : Bytes := (List.range n).map (fun k => ibuf s (off + k))

/-- `n` bytes of OBUF from an offset on. -/
def obufBytes (s : State) (off n : Nat) : Bytes := (List.range n).map (fun k => byteAt s (0x2000 + off + k))

/-- `n` bytes of VBUF from an offset on. -/
def vbufBytes (s : State) (off n : Nat) : Bytes := (List.range n).map (fun k => byteAt s (0x3000 + off + k))

/-- A register's value as a number. -/
def regNat (r : RegName) (s : State) : Nat := (regRead r s).toNat

/-- IBUF holds, from offset `off` to offset `stop` exactly, the attributes that `es` describes, in wire order: each
has its type and declared length big-endian in its first 4 bytes and takes `4 + padded` bytes (R86, R125, R130). -/
def AttrsAt (s : State) (off stop : Nat) : List AtabEntry → Prop
  | []      => off = stop
  | e :: es =>
    e.type.toNat = beVal (ibufBytes s off 2) ∧ e.dlen.toNat = beVal (ibufBytes s (off + 2) 2) ∧
      e.voff.toNat = off + 4 ∧ off + 4 + padded e.dlen.toNat ≤ stop ∧
      AttrsAt s (off + 4 + padded e.dlen.toNat) stop es

/-- The table holds exactly the list `es` as its valid entries, and the entries from `es.length` on are those of `s`
(R46, R130, R175). -/
def TableIs (es : List AtabEntry) (s t : State) : Prop :=
  regNat .ACOUNT t = es.length ∧ (∀ i (h : i < es.length), atabAt t i = es[i]) ∧
    ∀ i, es.length ≤ i → atabAt t i = atabAt s i

/-- The header registers hold the 20 bytes at the start of IBUF (R31, R85, R104). -/
def HeaderRegsFromIbuf (s t : State) : Prop :=
  regNat .HTYPE t = beVal (ibufBytes s 0 2) ∧ regNat .HLEN t = beVal (ibufBytes s 2 2) ∧
    regNat .HCOOKIE t = beVal (ibufBytes s 4 4) ∧ regNat .TXID0 t = beVal (ibufBytes s 8 4) ∧
    regNat .TXID1 t = beVal (ibufBytes s 12 4) ∧ regNat .TXID2 t = beVal (ibufBytes s 16 4)

/-- The first 20 bytes of OBUF after a command are the header registers of `s` with length `len` (R85, R102). -/
def HeaderInObuf (len : Nat) (s t : State) : Prop :=
  beVal (obufBytes t 0 2) = regNat .HTYPE s ∧ beVal (obufBytes t 2 2) = len ∧
    beVal (obufBytes t 4 4) = regNat .HCOOKIE s ∧ beVal (obufBytes t 8 4) = regNat .TXID0 s ∧
    beVal (obufBytes t 12 4) = regNat .TXID1 s ∧ beVal (obufBytes t 16 4) = regNat .TXID2 s

/-- The attribute registers hold a table entry (R41, R131, R177). -/
def AttrRegsHold (e : AtabEntry) (t : State) : Prop :=
  regNat .ATYPE t = e.type.toNat ∧ regNat .ADLEN t = e.dlen.toNat ∧
    regNat .APLEN t = padded e.dlen.toNat ∧ regNat .AVOFF t = e.voff.toNat

/-- The address registers hold what the 8 value bytes at an IBUF offset encode (R87, R155). -/
def AddressRegsFromIbuf (off : Nat) (s t : State) : Prop :=
  regRead .XFAM t = 0x01#32 ∧
    regNat .XPORT t = (beVal (ibufBytes s (off + 2) 2)).xor 0x2112 ∧
    regNat .XADDR t = (beVal (ibufBytes s (off + 4) 4)).xor 0x2112A442

/-- Register groups the frames name. -/
def headerRegs : List RegName := [.HTYPE, .HLEN, .HCOOKIE, .TXID0, .TXID1, .TXID2]
/-- The attribute registers (R41). -/
def attrRegs : List RegName := [.ATYPE, .ADLEN, .APLEN, .AVOFF]
/-- The address registers (R41). -/
def addressRegs : List RegName := [.XFAM, .XADDR, .XPORT]

/-! ## The opcode map and the register table as data -/

/-- One row of the opcode map: mask, match, and the command for an immediate (R82, opcode_table.json). -/
structure OpcodeRow where
  mask    : Word
  pattern : Word
  instr   : Half → Instr

/-- The 13 rows of R82 with the masks and matches of opcode_table.json. -/
def opcodeRows : List OpcodeRow :=
  [⟨0xFFFFFFFF, 0x00000001, fun _ => .hdrDecode⟩, ⟨0xFFFFFFFF, 0x00000002, fun _ => .hdrEncode⟩,
   ⟨0x0000FFFF, 0x00000010, .padLen⟩, ⟨0xFFFFFFFF, 0x00000011, fun _ => .attrDecode⟩,
   ⟨0xFFFFFFFF, 0x00000012, fun _ => .attrEncode⟩, ⟨0xFFFFFFFF, 0x00000013, fun _ => .attrDecodeAll⟩,
   ⟨0x0000FFFF, 0x00000014, .attrGet⟩, ⟨0xFFFFFFFF, 0x00000020, fun _ => .xmaSerialize⟩,
   ⟨0xFFFFFFFF, 0x00000021, fun _ => .xmaDeserialize⟩, ⟨0xFFFFFFFF, 0x00000030, fun _ => .msgDecode⟩,
   ⟨0xFFFFFFFF, 0x00000031, fun _ => .msgEncode⟩, ⟨0x0000FFFF, 0x00000032, .findAttr⟩,
   ⟨0xFFFFFFFF, 0x00000033, fun _ => .extractXma⟩]

/-- A word that some row of the opcode map matches (R82). -/
def MatchesSomeRow (w : Word) : Prop := ∃ row ∈ opcodeRows, w &&& row.mask = row.pattern

/-- The defined bits of a register (R21). -/
def definedBits : RegName → Word
  | .CMD | .HCOOKIE | .TXID0 | .TXID1 | .TXID2 | .XADDR => 0xFFFFFFFF
  | .STATUS => 0x17F
  | .APLEN => 0x1FFFF
  | .XFAM => 0xFF
  | .ILEN | .AOFF | .TOTLEN | .ACOUNT | .HTYPE | .HLEN | .ATYPE | .ADLEN | .AVOFF | .VLEN | .OLEN | .XPORT => 0xFFFF

/-- What an RW register reads after a host write of `w` (R21, R24, R36, R37, R64): the defined bits of `w`, ILEN, OLEN
and VLEN clamped to their buffer's size. -/
def storedValue (c : Config) (r : RegName) (w : Word) : Nat :=
  match r with
  | .ILEN | .OLEN => min (w.toNat % 0x10000) c.bufBytes
  | .VLEN => min (w.toNat % 0x10000) c.vbufBytes
  | .CMD | .STATUS | .AOFF | .TOTLEN | .ACOUNT | .HTYPE | .HLEN | .HCOOKIE | .TXID0 | .TXID1 | .TXID2 | .ATYPE
  | .ADLEN | .APLEN | .AVOFF | .XFAM | .XADDR | .XPORT => (w &&& definedBits r).toNat

/-! ## Invariants of the machine -/

/-- A table entry whose value, padding included, lies inside IBUF (R46, R125). -/
abbrev EntryInIbuf (c : Config) (e : AtabEntry) : Prop :=
  4 ≤ e.voff.toNat ∧ e.voff.toNat + pad4 e.dlen.toNat ≤ c.bufBytes

/-- STATUS holds no reserved code (I7), at most one of FOUND, NA and COOKIE_OK, and none of them with an error (R203). -/
abbrev StatusCoherent (st : Status) : Prop :=
  st.err.toNat ≤ 7 ∧ (st.err ≠ 0 → st.found = false ∧ st.na = false ∧ st.cookieOk = false) ∧
    ¬(st.found = true ∧ st.na = true) ∧ ¬(st.found = true ∧ st.cookieOk = true) ∧
    ¬(st.na = true ∧ st.cookieOk = true)

/-- What every reachable state satisfies. -/
structure State.Inv (s : State) : Prop where
  /-- The parameters are a configuration of the block (R6, I13). -/
  legal     : s.cfg.Legal
  /-- Memory is in its canonical form. -/
  memWf     : memWf s.mem
  /-- Only buffer bytes are ever written (R60). -/
  mapped    : ∀ p ∈ s.mem, mappedByte s.cfg p.1 = true
  /-- ILEN is clamped (R24). -/
  ilen      : s.ilen.toNat ≤ s.cfg.bufBytes
  /-- OLEN is clamped (R37). -/
  olen      : s.olen.toNat ≤ s.cfg.bufBytes
  /-- VLEN is clamped (R36). -/
  vlen      : s.vlen.toNat ≤ s.cfg.vbufBytes
  /-- ACOUNT counts written entries (R27, R46). -/
  acount    : s.acount.toNat ≤ s.atab.length
  /-- The table has ATAB_ENTRIES entries (R46). -/
  atabSize  : s.atab.length ≤ s.cfg.atabEntries
  /-- Every written entry lies in IBUF (R46). -/
  entries   : ∀ e ∈ s.atab, EntryInIbuf s.cfg e
  /-- STATUS is coherent (R23, I7). -/
  status    : StatusCoherent s.status

/-- STATUS bits 6:0 describe the command in CMD (R22, R23, R83, R202): FOUND only after ATTR_GET, FIND_ATTR or
EXTRACT_XMA, NA only after EXTRACT_XMA, COOKIE_OK only after HDR_DECODE or MSG_DECODE, code 5 only after an illegal
word, any other code only after a command that can raise it. -/
def StatusDescribesCmd (s : State) : Prop :=
  (s.status.found = true →
    ∃ i, decode s.cmd = .ok i ∧ ((∃ k, i = .attrGet k) ∨ (∃ t, i = .findAttr t) ∨ i = .extractXma)) ∧
  (s.status.na = true → decode s.cmd = .ok .extractXma) ∧
  (s.status.cookieOk = true → decode s.cmd = .ok .hdrDecode ∨ decode s.cmd = .ok .msgDecode) ∧
  (s.status.err ≠ 0 →
    ((∃ x, decode s.cmd = .error x) ∧ s.status.err = ErrCode.illegalCommand.code) ∨
      ∃ i e, decode s.cmd = .ok i ∧ mayRaise i e = true ∧ s.status.err = e.code)

/-- The premise "no error recorded since the last clear" (D25). -/
def NoErrorRecorded (s : State) : Prop := s.status.sticky = false

end Sys2Proof.Machine
end

