-- ==== Sys2Proof/Certificates/Slice0/Obligations.lean ====
section
/-! DEFINITION. The statements for the provers, from the spec's numbered rules. -/

open Sys2Proof Sys2Proof.Machine

/-! ## Encoding -/

/-- A write of a word to CMD runs the command the word decodes to, on the state in which the word is stored, the
access has left the bus and the host has its acknowledgement (R22, R69, R80). The second clause says the same of the
word a well-formed command encodes to, placed with `withFetchWord`. The bus, the answer and the cut of `d` to 32 bits are
the model's (log entries 5, 6, 9 and 11). -/
def Obligations.StepRunsDecodedCommand : Prop :=
  (∀ (s : State) (rest : List Event) (d : Nat) (i : Instr),
    s.bus = cmdWrite s.cfg d :: rest → decode (BitVec.ofNat 32 d) = .ok i →
      step s = exec i { s with bus := rest, resp := .written, cmd := BitVec.ofNat 32 d }) ∧
  ∀ (s : State) (i : Instr), i.WellFormed →
    step (s.withFetchWord 32 (encode i).toNat) = exec i { s with resp := .written, cmd := encode i }

/-- Words written out from R82's opcodes and R90's examples decode to the commands they stand for. -/
def Obligations.CommandWordsDecode : Prop :=
  decode 0x00000001 = .ok .hdrDecode ∧ decode 0x00000002 = .ok .hdrEncode ∧
    decode 0x00060010 = .ok (.padLen 6) ∧ decode 0x00000011 = .ok .attrDecode ∧
    decode 0x00010014 = .ok (.attrGet 1) ∧ decode 0x00000020 = .ok .xmaSerialize ∧
    decode 0x00000021 = .ok .xmaDeserialize ∧ decode 0x00000030 = .ok .msgDecode ∧
    decode 0x00200032 = .ok (.findAttr 0x20) ∧ decode 0x00000033 = .ok .extractXma ∧
    decode 0x00060110 = .error (.reservedNotZero 1) ∧ decode 0x00010001 = .error (.immediateNotZero 1) ∧
    decode 0x000000FF = .error (.unknownOpcode 0xFF)

/-- Decoding the word of a command gives the command back, for every command and every operand. -/
def Obligations.DecodeOfEncode : Prop := ∀ i : Instr, decode (encode i) = .ok i

/-- A command has no word but its own: encoding what a word decodes to gives the word back. -/
def Obligations.EncodeOfDecode : Prop := ∀ (w : Word) (i : Instr), decode w = .ok i → encode i = w

/-- R82: a word decodes to a command exactly when a row of the opcode map matches it under the row's mask, and it is
then that row's command with IMM16 = w[31:16] (R81) as its operand. -/
def Obligations.OpcodeMapSelectsCommand : Prop :=
  ∀ (w : Word) (i : Instr),
    decode w = .ok i ↔ ∃ row ∈ opcodeRows, w &&& row.mask = row.pattern ∧ i = row.instr (w.extractLsb' 16 16)

/-- R83: a word that no row matches, written to CMD, is stored there and does what R203 says of IllegalCommand: STATUS
reads STICKY and code 5, and nothing else changes. That the event leaves the bus, that the host has an acknowledgement and
that `d` is cut to 32 bits are the model's choices (log entries 5, 6 and 11). -/
def Obligations.IllegalWordRaisesIllegalCommand : Prop :=
  ∀ (s : State) (rest : List Event) (d : Nat),
    s.bus = cmdWrite s.cfg d :: rest → ¬MatchesSomeRow (BitVec.ofNat 32 d) →
      ∃ t, step s = .next t ∧ regRead .CMD t = BitVec.ofNat 32 d ∧ regRead .STATUS t = 0x105#32 ∧
        SameRegsExcept [.CMD, .STATUS] s t ∧ SameBytes s t ∧ SameTable s t ∧
        t.cfg = s.cfg ∧ t.bus = rest ∧ t.resp = .written ∧ t.epoch = s.epoch

/-- R90's assembler accepts a line exactly when it is the written form of a command, and gives that command's word;
otherwise it refuses it for an operand that is out of range, that is given to a command that takes none, or that is
missing. -/
def Obligations.AssemblerAcceptsWrittenCommands : Prop :=
  (∀ (l : AsmLine) (w : Word), assemble l = .ok w ↔ ∃ i : Instr, i.asmLine = l ∧ encode i = w) ∧
  (∀ l : AsmLine, l.mnemonic.takesOperand = true → l.operand = none → assemble l = .error .operandMissing) ∧
  (∀ (l : AsmLine) (n : Nat), l.mnemonic.takesOperand = true → l.operand = some n → 0xFFFF < n →
    assemble l = .error .operandOutOfRange) ∧
  ∀ (l : AsmLine) (n : Nat), l.mnemonic.takesOperand = false → l.operand = some n →
    assemble l = .error .operandGiven

/-! ## Reset and the host's accesses -/

/-- R231: every register reads 0 in the reset state, STATUS with all its fields and ACOUNT among them. STATUS reads 0
and not 0x105, so CMD = 0 has not been executed. -/
def Obligations.ResetRegistersReadZero : Prop := ∀ r : RegName, regRead r State.reset = 0#32

/-- A reset pulse always takes the block to the reset state: every register reads 0, no byte and no table entry has
a known value (each reads as the free value of the new reset, R232), the parameters and the accesses to come stay. -/
def Obligations.ResetPulseResets : Prop :=
  ∀ (s : State) (rest : List Event), s.bus = .resetPulse :: rest →
    ∃ t, step s = .next t ∧ (∀ r, regRead r t = 0#32) ∧ (∀ a, byteAt t a = Config.resetByte (s.epoch + 1) a) ∧
      (∀ i, atabAt t i = Config.resetEntry (s.epoch + 1) i) ∧ t.cfg = s.cfg ∧ t.bus = rest ∧
      t.epoch = s.epoch + 1

/-- With nothing on the bus the block is idle and holds all state (R216). -/
def Obligations.IdleBlockHoldsState : Prop := ∀ s : State, s.bus = [] → step s = .next s

/-- A 32-bit read at a register's offset gives the register, an 8-bit read at a mapped buffer byte gives the byte,
and neither changes anything but the bus and the answer given (R61, R62, R70). -/
def Obligations.HostReadsHaveNoSideEffect : Prop :=
  (∀ (s : State) (rest : List Event) (r : RegName),
    s.bus = .access (.read (s.cfg.hostBase + r.offset) 32) :: rest →
      step s = .next { s with bus := rest, resp := .word (regRead r s) }) ∧
  ∀ (s : State) (rest : List Event) (b : Buf) (k : Nat), s.cfg.Legal → k < b.size s.cfg →
    s.bus = .access (.read (s.cfg.hostBase + b.base + k) 8) :: rest →
      step s = .next { s with bus := rest, resp := .byte (byteAt s (b.base + k)) }

/-- R64: a 32-bit host write of `d` to a register. An RW register then reads what its rule stores (undefined bits
dropped, ILEN, OLEN and VLEN clamped) and nothing else changes; a read-only register ignores the write; STATUS loses
STICKY if bit 8 of the word is set and is otherwise unchanged; CMD reads the word, and the command it encodes runs. That
the event leaves the bus, that the host has an acknowledgement and that `d` is cut to 32 bits are the model's choices (log
entries 5, 6 and 11). -/
def Obligations.HostRegisterWrites : Prop :=
  ∀ (s : State) (rest : List Event) (r : RegName) (d : Nat),
    s.bus = .access (.write (s.cfg.hostBase + r.offset) 32 d) :: rest →
      ∃ t, step s = .next t ∧ t.cfg = s.cfg ∧ t.bus = rest ∧ t.resp = .written ∧ t.epoch = s.epoch ∧
        (r = .CMD → regRead .CMD t = BitVec.ofNat 32 d ∧ ∀ i, decode (BitVec.ofNat 32 d) = .ok i →
          exec i { s with bus := rest, resp := .written, cmd := BitVec.ofNat 32 d } = .next t) ∧
        (r ≠ .CMD → SameBytes s t ∧ SameTable s t ∧ SameRegsExcept [r] s t) ∧
        (r = .STATUS → regRead .STATUS t =
          if (BitVec.ofNat 32 d).getLsbD 8 then regRead .STATUS s &&& ~~~0x100#32 else regRead .STATUS s) ∧
        (r = .ACOUNT ∨ r = .APLEN → regRead r t = regRead r s) ∧
        (r ∉ [.CMD, .STATUS, .ACOUNT, .APLEN] → regNat r t = storedValue s.cfg r (BitVec.ofNat 32 d))

/-- R62: an 8-bit access inside a buffer. A write stores the byte and changes no other byte, no register and no table
entry; a read gives the byte and has no side effect. That the event leaves the bus, that the answer stands in the state and
that `d` is cut to 8 bits are the model's choices (log entries 5, 6 and 11). -/
def Obligations.BufferAccessesReadAndStoreOneByte : Prop :=
  ∀ (s : State) (rest : List Event) (b : Buf) (k : Nat), s.cfg.Legal → k < b.size s.cfg →
    (∀ d : Nat, s.bus = .access (.write (s.cfg.hostBase + b.base + k) 8 d) :: rest →
      ∃ t, step s = .next t ∧ byteAt t (b.base + k) = BitVec.ofNat 8 d ∧ SameBytesOutside (b.base + k) 1 s t ∧
        SameRegsExcept [] s t ∧ SameTable s t ∧ t.bus = rest ∧ t.resp = .written) ∧
    (s.bus = .access (.read (s.cfg.hostBase + b.base + k) 8) :: rest →
      ∃ t, step s = .next t ∧ t.resp = .byte (byteAt s (b.base + k)) ∧ SameBytes s t ∧
        SameRegsExcept [] s t ∧ SameTable s t ∧ t.bus = rest)

/-- An access at block address `a` ends in BusError exactly when it is neither a 32-bit access at a register's offset
nor an 8-bit access at a byte of one of the three buffers as R60 maps them (R63). In every other case it answers a
next state. A host address outside the block's window ends in a fault of its own (log entry 8). -/
def Obligations.RefusedAccessesAreBusErrors : Prop :=
  (∀ (s : State) (rest : List Event) (acc : Access) (a width : Nat),
    s.bus = .access acc :: rest → acc.place = (s.cfg.hostBase + a, width) → a < 0x10000 →
      ((∃ t, step s = .next t) ∨ step s = .fault (.busError acc)) ∧
      (step s = .fault (.busError acc) ↔
        ¬((width = 32 ∧ a % 4 = 0 ∧ a ≤ 0x050) ∨
          (width = 8 ∧ ((0x1000 ≤ a ∧ a < 0x1000 + s.cfg.bufBytes) ∨ (0x2000 ≤ a ∧ a < 0x2000 + s.cfg.bufBytes) ∨
            (0x3000 ≤ a ∧ a < 0x3000 + s.cfg.vbufBytes)))))) ∧
  ∀ (s : State) (rest : List Event) (acc : Access), s.bus = .access acc :: rest →
    acc.place.1 < s.cfg.hostBase ∨ s.cfg.hostBase + 0x10000 ≤ acc.place.1 → step s = .fault (.outsideWindow acc)

/-! ## The commands -/

/-- HDR_DECODE (R104): ShortBuffer below 20 received bytes, then InvalidCookie if the cookie is enforced and wrong,
else the six header registers from IBUF bytes 0 to 19, COOKIE_OK, and nothing else. -/
def Obligations.HdrDecodeMeaning : Prop :=
  decode 0x00000001 = .ok .hdrDecode ∧ ∀ s : State,
    (regNat .ILEN s < 20 → ∃ t, exec .hdrDecode s = .next t ∧ Raised .shortBuffer s t) ∧
    (20 ≤ regNat .ILEN s → s.cfg.enforceCookie = true → ibufBytes s 4 4 ≠ [0x21, 0x12, 0xA4, 0x42] →
      ∃ t, exec .hdrDecode s = .next t ∧ Raised .invalidCookie s t) ∧
    (20 ≤ regNat .ILEN s → (s.cfg.enforceCookie = true → ibufBytes s 4 4 = [0x21, 0x12, 0xA4, 0x42]) →
      ∃ t, exec .hdrDecode s = .next t ∧ HeaderRegsFromIbuf s t ∧
        CompletedWith (if ibufBytes s 4 4 = [0x21, 0x12, 0xA4, 0x42] then flagCookieOk else 0#32) s t ∧
        SameRegsExcept (.STATUS :: headerRegs) s t ∧ SameBytes s t ∧ SameTable s t ∧ SameModelFields s t)

/-- HDR_ENCODE (R105): OBUF bytes 0 to 19 from the header registers, OLEN = 20, no error, nothing else. -/
def Obligations.HdrEncodeMeaning : Prop :=
  decode 0x00000002 = .ok .hdrEncode ∧ ∀ s : State,
    ∃ t, exec .hdrEncode s = .next t ∧ HeaderInObuf (regNat .HLEN s) s t ∧ regNat .OLEN t = 20 ∧
      CompletedWith 0#32 s t ∧ SameRegsExcept [.STATUS, .OLEN] s t ∧ SameBytesOutside 0x2000 20 s t ∧
      SameTable s t ∧ SameModelFields s t

/-- PAD_LEN n (R127): APLEN = pad4(n), no error, nothing else. -/
def Obligations.PadLenMeaning : Prop :=
  ∀ (n : Half) (w : Word), w.extractLsb' 16 16 = n → w &&& 0x0000FFFF#32 = 0x00000010#32 →
    decode w = .ok (.padLen n) ∧ ∀ s : State,
      ∃ t, exec (.padLen n) s = .next t ∧ regNat .APLEN t = padded n.toNat ∧ CompletedWith 0#32 s t ∧
        SameRegsExcept [.STATUS, .APLEN] s t ∧ SameBytes s t ∧ SameTable s t ∧ SameModelFields s t

/-- ATTR_DECODE (R128): with fewer than 4 bytes between AOFF and ILEN, or fewer than 4 + pad4(n) for the declared
length n in bytes 2 and 3, ShortBuffer; else the four attribute registers, and nothing else. -/
def Obligations.AttrDecodeMeaning : Prop :=
  decode 0x00000011 = .ok .attrDecode ∧ ∀ s : State,
    let off := regNat .AOFF s
    let n := beVal (ibufBytes s (off + 2) 2)
    (regNat .ILEN s < off + 4 ∨ regNat .ILEN s < off + 4 + padded n →
      ∃ t, exec .attrDecode s = .next t ∧ Raised .shortBuffer s t) ∧
    (off + 4 + padded n ≤ regNat .ILEN s →
      ∃ t, exec .attrDecode s = .next t ∧ regNat .ATYPE t = beVal (ibufBytes s off 2) ∧ regNat .ADLEN t = n ∧
        regNat .APLEN t = padded n ∧ regNat .AVOFF t = off + 4 ∧ CompletedWith 0#32 s t ∧
        SameRegsExcept (.STATUS :: attrRegs) s t ∧ SameBytes s t ∧ SameTable s t ∧ SameModelFields s t)

/-- ATTR_ENCODE (R129): LengthMismatch when VLEN is not pad4(ADLEN), then CapacityExceeded when the encoding would
pass the end of OBUF; else type, declared length and the VLEN staged bytes appended at OLEN, OLEN advanced, APLEN
written, and nothing else. -/
def Obligations.AttrEncodeMeaning : Prop :=
  decode 0x00000012 = .ok .attrEncode ∧ ∀ s : State, s.cfg.Legal →
    let p := padded (regNat .ADLEN s)
    let o := regNat .OLEN s
    (regNat .VLEN s ≠ p → ∃ t, exec .attrEncode s = .next t ∧ Raised .lengthMismatch s t) ∧
    (regNat .VLEN s = p → s.cfg.bufBytes < o + (4 + p) →
      ∃ t, exec .attrEncode s = .next t ∧ Raised .capacityExceeded s t) ∧
    (regNat .VLEN s = p → o + (4 + p) ≤ s.cfg.bufBytes →
      ∃ t, exec .attrEncode s = .next t ∧ beVal (obufBytes t o 2) = regNat .ATYPE s ∧
        beVal (obufBytes t (o + 2) 2) = regNat .ADLEN s ∧ obufBytes t (o + 4) p = vbufBytes s 0 p ∧
        SameBytesOutside (0x2000 + o) (4 + p) s t ∧ regNat .OLEN t = o + (4 + p) ∧ regNat .APLEN t = p ∧
        CompletedWith 0#32 s t ∧ SameRegsExcept [.STATUS, .OLEN, .APLEN] s t ∧ SameTable s t ∧ SameModelFields s t)

/-- ATTR_DECODE_ALL (R130): if the TOTLEN bytes from AOFF on lie within ILEN and are exactly a list of attributes, the
list goes into ATAB in wire order, duplicates and all, with ACOUNT its length, or CapacityExceeded if it is longer
than ATAB_ENTRIES; if not, ShortBuffer. -/
def Obligations.AttrDecodeAllMeaning : Prop :=
  decode 0x00000013 = .ok .attrDecodeAll ∧ ∀ s : State,
    let off := regNat .AOFF s
    let stop := off + regNat .TOTLEN s
    let fits := regNat .TOTLEN s ≤ regNat .ILEN s - off
    (¬fits ∨ (∀ es, ¬AttrsAt s off stop es) →
      ∃ t, exec .attrDecodeAll s = .next t ∧ Raised .shortBuffer s t) ∧
    ∀ es, fits → AttrsAt s off stop es →
      (s.cfg.atabEntries < es.length → ∃ t, exec .attrDecodeAll s = .next t ∧ Raised .capacityExceeded s t) ∧
      (es.length ≤ s.cfg.atabEntries →
        ∃ t, exec .attrDecodeAll s = .next t ∧ TableIs es s t ∧ CompletedWith 0#32 s t ∧
          SameRegsExcept [.STATUS, .ACOUNT] s t ∧ SameBytes s t ∧ SameModelFields s t)

/-- ATTR_GET i (R131): AttributeNotFound at or beyond ACOUNT; else entry i in the attribute registers, FOUND, and
nothing else. -/
def Obligations.AttrGetMeaning : Prop :=
  ∀ (i : Half) (w : Word), w.extractLsb' 16 16 = i → w &&& 0x0000FFFF#32 = 0x00000014#32 →
    decode w = .ok (.attrGet i) ∧ ∀ s : State,
      (regNat .ACOUNT s ≤ i.toNat → ∃ t, exec (.attrGet i) s = .next t ∧ Raised .attributeNotFound s t) ∧
      (i.toNat < regNat .ACOUNT s →
        ∃ t, exec (.attrGet i) s = .next t ∧ AttrRegsHold (atabAt s i.toNat) t ∧ CompletedWith flagFound s t ∧
          SameRegsExcept (.STATUS :: attrRegs) s t ∧ SameBytes s t ∧ SameTable s t ∧ SameModelFields s t)

/-- XMA_SERIALIZE (R154): UnsupportedAddressFamily unless XFAM is 1; else VBUF bytes 0 to 7 hold 0, 1, the port XOR
0x2112 and the address XOR 0x2112A442, VLEN = 8, and nothing else. -/
def Obligations.XmaSerializeMeaning : Prop :=
  decode 0x00000020 = .ok .xmaSerialize ∧ ∀ s : State,
    (regRead .XFAM s ≠ 1#32 → ∃ t, exec .xmaSerialize s = .next t ∧ Raised .unsupportedAddressFamily s t) ∧
    (regRead .XFAM s = 1#32 →
      ∃ t, exec .xmaSerialize s = .next t ∧ vbufBytes t 0 2 = [0x00, 0x01] ∧
        beVal (vbufBytes t 2 2) = (regNat .XPORT s).xor 0x2112 ∧
        beVal (vbufBytes t 4 4) = (regNat .XADDR s).xor 0x2112A442 ∧ SameBytesOutside 0x3000 8 s t ∧
        regNat .VLEN t = 8 ∧ CompletedWith 0#32 s t ∧ SameRegsExcept [.STATUS, .VLEN] s t ∧ SameTable s t ∧
        SameModelFields s t)

/-- XMA_DESERIALIZE (R155): ShortBuffer unless 8 received bytes lie from AVOFF on, then UnsupportedAddressFamily
unless the second is 1; else the address registers from those bytes, and nothing else. -/
def Obligations.XmaDeserializeMeaning : Prop :=
  decode 0x00000021 = .ok .xmaDeserialize ∧ ∀ s : State,
    let v := regNat .AVOFF s
    (regNat .ILEN s < v + 8 → ∃ t, exec .xmaDeserialize s = .next t ∧ Raised .shortBuffer s t) ∧
    (v + 8 ≤ regNat .ILEN s → ibuf s (v + 1) ≠ 0x01 →
      ∃ t, exec .xmaDeserialize s = .next t ∧ Raised .unsupportedAddressFamily s t) ∧
    (v + 8 ≤ regNat .ILEN s → ibuf s (v + 1) = 0x01 →
      ∃ t, exec .xmaDeserialize s = .next t ∧ AddressRegsFromIbuf v s t ∧ CompletedWith 0#32 s t ∧
        SameRegsExcept (.STATUS :: addressRegs) s t ∧ SameBytes s t ∧ SameTable s t ∧ SameModelFields s t)

/-- MSG_DECODE (R175): ShortBuffer, InvalidCookie, ShortBuffer, ShortBuffer and CapacityExceeded in that order; else
the header registers, ATAB, ACOUNT and COOKIE_OK, and nothing else. -/
def Obligations.MsgDecodeMeaning : Prop :=
  decode 0x00000030 = .ok .msgDecode ∧ ∀ s : State,
    let len := beVal (ibufBytes s 2 2)
    let cookieRight := ibufBytes s 4 4 = [0x21, 0x12, 0xA4, 0x42]
    (regNat .ILEN s < 20 → ∃ t, exec .msgDecode s = .next t ∧ Raised .shortBuffer s t) ∧
    (20 ≤ regNat .ILEN s → s.cfg.enforceCookie = true → ¬cookieRight →
      ∃ t, exec .msgDecode s = .next t ∧ Raised .invalidCookie s t) ∧
    (20 ≤ regNat .ILEN s → (s.cfg.enforceCookie = true → cookieRight) →
      (regNat .ILEN s < 20 + len ∨ (∀ es, ¬AttrsAt s 20 (20 + len) es) →
        ∃ t, exec .msgDecode s = .next t ∧ Raised .shortBuffer s t) ∧
      ∀ es, 20 + len ≤ regNat .ILEN s → AttrsAt s 20 (20 + len) es →
        (s.cfg.atabEntries < es.length → ∃ t, exec .msgDecode s = .next t ∧ Raised .capacityExceeded s t) ∧
        (es.length ≤ s.cfg.atabEntries →
          ∃ t, exec .msgDecode s = .next t ∧ HeaderRegsFromIbuf s t ∧ TableIs es s t ∧
            CompletedWith (if ibufBytes s 4 4 = [0x21, 0x12, 0xA4, 0x42] then flagCookieOk else 0#32) s t ∧
            SameRegsExcept (.STATUS :: .ACOUNT :: headerRegs) s t ∧ SameBytes s t ∧ SameModelFields s t))

/-- MSG_ENCODE (R176): LengthMismatch when OLEN is below 20; else HLEN = OLEN - 20 and the header with that length in
OBUF bytes 0 to 19, and nothing else. The law, which R176 marks as derived: if OBUF bytes 20 to OLEN-1 are the
encodings of a list of attributes, then after MSG_ENCODE the OLEN bytes of OBUF are `msg_encode` of the header registers
and that list. -/
def Obligations.MsgEncodeMeaning : Prop :=
  decode 0x00000031 = .ok .msgEncode ∧ ∀ s : State,
    (regNat .OLEN s < 20 → ∃ t, exec .msgEncode s = .next t ∧ Raised .lengthMismatch s t) ∧
    (20 ≤ regNat .OLEN s →
      ∃ t, exec .msgEncode s = .next t ∧ regNat .HLEN t = regNat .OLEN s - 20 ∧
        HeaderInObuf (regNat .OLEN s - 20) s t ∧ SameBytesOutside 0x2000 20 s t ∧ CompletedWith 0#32 s t ∧
        SameRegsExcept [.STATUS, .HLEN] s t ∧ SameTable s t ∧ SameModelFields s t ∧
        ∀ (as : List Attr) (e : Bytes), attrsEncode as = .ok e → regNat .OLEN s = 20 + e.length →
          obufBytes s 20 e.length = e →
            msgEncode { header := hdrRegs t, attrs := as } = .ok (obufBytes t 0 (regNat .OLEN t)))

/-- FIND_ATTR t (R177): the valid entry of type t with the lowest index in the attribute registers, FOUND, and nothing
else; AttributeNotFound when no valid entry has type t. -/
def Obligations.FindAttrMeaning : Prop :=
  ∀ (ty : Half) (w : Word), w.extractLsb' 16 16 = ty → w &&& 0x0000FFFF#32 = 0x00000032#32 →
    decode w = .ok (.findAttr ty) ∧ ∀ s : State,
      ((∀ i, i < regNat .ACOUNT s → (atabAt s i).type ≠ ty) →
        ∃ t, exec (.findAttr ty) s = .next t ∧ Raised .attributeNotFound s t) ∧
      ∀ i, i < regNat .ACOUNT s → (atabAt s i).type = ty → (∀ j, j < i → (atabAt s j).type ≠ ty) →
        ∃ t, exec (.findAttr ty) s = .next t ∧ AttrRegsHold (atabAt s i) t ∧ CompletedWith flagFound s t ∧
          SameRegsExcept (.STATUS :: attrRegs) s t ∧ SameBytes s t ∧ SameTable s t ∧ SameModelFields s t

/-- EXTRACT_XMA (R178): not applicable unless HTYPE is 0x0101, which sets NA alone; then AttributeNotFound, ShortBuffer
and UnsupportedAddressFamily in that order for the first valid entry of type 0x0020; else the address registers from
the 8 bytes IBUF now holds at its offset, FOUND, and nothing else. -/
def Obligations.ExtractXmaMeaning : Prop :=
  decode 0x00000033 = .ok .extractXma ∧ ∀ s : State,
    (regRead .HTYPE s ≠ 0x0101#32 →
      ∃ t, exec .extractXma s = .next t ∧ CompletedWith flagNa s t ∧
        SameRegsExcept [.STATUS] s t ∧ SameBytes s t ∧ SameTable s t ∧ SameModelFields s t) ∧
    (regRead .HTYPE s = 0x0101#32 →
      ((∀ i, i < regNat .ACOUNT s → (atabAt s i).type ≠ 0x0020) →
        ∃ t, exec .extractXma s = .next t ∧ Raised .attributeNotFound s t) ∧
      ∀ i, i < regNat .ACOUNT s → (atabAt s i).type = 0x0020 → (∀ j, j < i → (atabAt s j).type ≠ 0x0020) →
        let v := (atabAt s i).voff.toNat
        ((atabAt s i).dlen.toNat < 8 ∨ regNat .ILEN s < v + 8 →
          ∃ t, exec .extractXma s = .next t ∧ Raised .shortBuffer s t) ∧
        (8 ≤ (atabAt s i).dlen.toNat → v + 8 ≤ regNat .ILEN s → ibuf s (v + 1) ≠ 0x01 →
          ∃ t, exec .extractXma s = .next t ∧ Raised .unsupportedAddressFamily s t) ∧
        (8 ≤ (atabAt s i).dlen.toNat → v + 8 ≤ regNat .ILEN s → ibuf s (v + 1) = 0x01 →
          ∃ t, exec .extractXma s = .next t ∧ AddressRegsFromIbuf v s t ∧ CompletedWith flagFound s t ∧
            SameRegsExcept (.STATUS :: addressRegs) s t ∧ SameBytes s t ∧ SameTable s t ∧ SameModelFields s t))

/-! ## The codec's laws -/

/-- R120 and R121: pad4 is its source formula, 4 * ceil(n / 4), a multiple of 4, at least n and at most 3 above it, n
itself exactly for multiples of 4; for a declared length it is at most 65536, which 65533, 65534 and 65535 reach. -/
def Obligations.PaddingLaw : Prop :=
  (∀ n : Nat, pad4 n % 4 = 0 ∧ n ≤ pad4 n ∧ pad4 n - n ≤ 3 ∧ (pad4 n = n ↔ n % 4 = 0) ∧ pad4 n = 4 * ((n + 3) / 4) ∧
    pad4 n = (if n % 4 = 0 then n else n + (4 - n % 4)) ∧ (n < 65536 → pad4 n ≤ 65536)) ∧
  pad4 65533 = 65536 ∧ pad4 65534 = 65536 ∧ pad4 65535 = 65536

/-- R106: (a) a header decodes from its encoding, (b) a 20-byte prefix is the encoding of what it decodes to, (c) fewer
than 20 bytes are ShortBuffer. -/
def Obligations.HeaderRoundTrips : Prop :=
  (∀ h : Header, h.Valid → hdrDecode (hdrEncode h) = .ok h) ∧
  (∀ b : Bytes, 20 ≤ b.length → ∃ h, hdrDecode b = .ok h ∧ hdrEncode h = slice b 0 20) ∧
  ∀ b : Bytes, b.length < 20 → hdrDecode b = .error .shortBuffer

/-- R126: (a) a valid attribute decodes from its encoding, (b) a list of valid attributes decodes from the encodings
one after the other, (c) an attribute that passes the end of the buffer is ShortBuffer, (d) two attributes of declared
lengths 4 and 6 decode to exactly those two, and the total is 8 + 12 bytes. -/
def Obligations.AttributeRoundTrips : Prop :=
  (∀ a : Attr, attrValid a → ∃ e, attrEncode a = .ok e ∧ attrDecode e = .ok a) ∧
  (∀ as : List Attr, (∀ a ∈ as, attrValid a) →
    ∃ e, attrsEncode as = .ok e ∧ attrDecodeAll e e.length = .ok as) ∧
  (∀ b : Bytes, 4 ≤ b.length → b.length < 4 + padded (beVal (slice b 2 4)) → attrDecode b = .error .shortBuffer) ∧
  ∀ a a' : Attr, attrValid a → attrValid a' → a.dlen = 4 → a'.dlen = 6 →
    ∃ e, attrsEncode [a, a'] = .ok e ∧ e.length = 20 ∧ attrDecodeAll e 20 = .ok [a, a']

/-- R153: (a) every IPv4 address and port comes back from its serialized value, (b) XORing the address octet by octet
with the cookie's bytes is the 32-bit XOR, and the port likewise, (c) the XOR applied twice is the identity. -/
def Obligations.AddressRoundTrips : Prop :=
  (∀ (addr : Word) (port : Half), ∃ v, xmaSerialize ⟨familyIPv4, addr, port⟩ = .ok v ∧ v.length = 8 ∧
    xmaDeserialize v = .ok ⟨familyIPv4, addr, port⟩) ∧
  (∀ addr : Word, tobe32 (addr ^^^ 0x2112A442) = List.zipWith (· ^^^ ·) (tobe32 addr) [0x21, 0x12, 0xA4, 0x42]) ∧
  (∀ port : Half, tobe16 (port ^^^ 0x2112) = List.zipWith (· ^^^ ·) (tobe16 port) [0x21, 0x12]) ∧
  (∀ x c : Word, (x ^^^ c) ^^^ c = x) ∧ ∀ x c : Half, (x ^^^ c) ^^^ c = x

/-- R172's law: a message whose attributes are valid and fit decodes from its encoding, with its length field
computed. -/
def Obligations.MessageDecodesFromItsEncoding : Prop :=
  ∀ m : Message, m.header.Valid → (∀ a ∈ m.attrs, attrValid a) →
    (m.attrs.map (fun a => 4 + a.plen)).sum ≤ 0xFFFF →
      ∃ b, msgEncode m = .ok b ∧
        msgDecode b = .ok { m with header.length := BitVec.ofNat 16 (m.attrs.map (fun a => 4 + a.plen)).sum }

/-- MSG_DECODE computes `msg_decode` (R171): with a cookie that is right or not enforced it raises the error
`msg_decode` gives; and where `msg_decode` gives a message whose attributes fit in ATAB, it leaves that message's header
in the header registers and one valid table entry per attribute, with the attribute's type and declared length and the
offset at which IBUF holds the attribute's value. -/
def Obligations.MsgDecodeComputesPureDecode : Prop :=
  ∀ s : State, (s.cfg.enforceCookie = true → ibufBytes s 4 4 = [0x21, 0x12, 0xA4, 0x42]) →
    (∀ e, msgDecode (received s) = .error e → ∃ t, exec .msgDecode s = .next t ∧ Raised e s t) ∧
    ∀ m, msgDecode (received s) = .ok m → m.attrs.length ≤ s.cfg.atabEntries →
      ∃ t, exec .msgDecode s = .next t ∧ hdrRegs t = m.header ∧
        (validEntries t).map (fun e => (e.type, e.dlen, ibufBytes t e.voff.toNat (pad4 e.dlen.toNat))) =
          m.attrs.map (fun a => (a.type, a.dlen, a.value))

/-- What the law of R176 supposes: since the last HDR_ENCODE, OBUF and OLEN were changed only by ATTR_ENCODE commands,
which completed on the attributes `as` in this order. Anything else may happen in between that leaves OBUF, OLEN and
the parameters alone: host writes of other registers and of VBUF, other commands. -/
inductive EncodedSinceHeader : State → List Attr → Prop where
  | header {s t : State} (h : exec .hdrEncode s = .next t) : EncodedSinceHeader t []
  | append {s t : State} {as : List Attr} (hs : EncodedSinceHeader s as) (h : exec .attrEncode s = .next t)
      (he : t.status.err = 0) : EncodedSinceHeader t (as ++ [stagedAttr s])
  | between {s t : State} {as : List Attr} (hs : EncodedSinceHeader s as) (hc : t.cfg = s.cfg)
      (ho : regRead .OLEN t = regRead .OLEN s) (hb : ∀ a, inBuf s.cfg .OBUF a = true → byteAt t a = byteAt s a) :
      EncodedSinceHeader t as

/-- The law of R176: if, since the last HDR_ENCODE, OBUF was changed only by ATTR_ENCODE commands that appended the
encodings of a list of attributes, then after MSG_ENCODE the OLEN bytes of OBUF are `msg_encode` of the header registers
and that list. -/
def Obligations.EncodeCommandsBuildTheMessage : Prop :=
  ∀ (s : State) (as : List Attr), s.cfg.Legal → EncodedSinceHeader s as →
    ∃ t, exec .msgEncode s = .next t ∧
      msgEncode { header := hdrRegs t, attrs := as } = .ok (obufBytes t 0 (regNat .OLEN t))

/-- EXTRACT_XMA right after a successful MSG_DECODE computes `extract_mapped_address` (R174) of the decoded message. -/
def Obligations.ExtractAfterDecodeComputesPureExtract : Prop :=
  ∀ (s : State) (m : Message), (s.cfg.enforceCookie = true → ibufBytes s 4 4 = [0x21, 0x12, 0xA4, 0x42]) →
    msgDecode (received s) = .ok m → m.attrs.length ≤ s.cfg.atabEntries →
      ∃ t u, exec .msgDecode s = .next t ∧ exec .extractXma t = .next u ∧
        (∀ e, extractMappedAddress m = .error e → Raised e t u) ∧
        (extractMappedAddress m = .ok .notApplicable → CompletedWith flagNa t u ∧ xmaRegs u = xmaRegs t) ∧
        ∀ a, extractMappedAddress m = .ok (.mapped a) → CompletedWith flagFound t u ∧ xmaRegs u = a

/-! ## Rules of the whole machine -/

/-- R200: every command, in every state, ends in exactly one of two ways: it completes with ERR = 0 and STICKY
unchanged, or it raises one error, which changes nothing but STATUS. It never faults and is never refused. -/
def Obligations.EveryCommandCompletesOrRaises : Prop :=
  ∀ (i : Instr) (s : State), ∃ t, exec i s = .next t ∧
    ((∃ flags, CompletedWith flags s t ∧ flags ∈ [0#32, flagFound, flagNa, flagCookieOk] ∧
        ∀ e, ¬Raised e s t) ∨
      ∃ e, Raised e s t ∧ ∀ e', Raised e' s t → e' = e)

/-- R202: a command can raise a code exactly where the table says so: no command in any state raises another, and for
every "yes" there is a state that meets the invariant in which it does. IllegalCommand is raised by no command. -/
def Obligations.CommandsRaiseExactlyTheirCodes : Prop :=
  (∀ (i : Instr) (e : ErrCode) (s t : State), exec i s = .next t → Raised e s t → mayRaise i e = true) ∧
  (∀ (i : Instr) (e : ErrCode), mayRaise i e = true → ∃ s t : State, s.Inv ∧ exec i s = .next t ∧ Raised e s t) ∧
  ∀ i : Instr, mayRaise i .illegalCommand = false

/-- No command writes CMD, ILEN, AOFF, TOTLEN or a byte of IBUF; only HDR_ENCODE, ATTR_ENCODE and MSG_ENCODE write
OBUF, and only XMA_SERIALIZE writes VBUF; only ATTR_DECODE_ALL and MSG_DECODE write ATAB or ACOUNT (R22, R24 to R27,
R43 to R46). -/
def Obligations.CommandsLeaveHostOperandsAlone : Prop :=
  ∀ (i : Instr) (s : State), s.cfg.Legal →
    ∃ t, exec i s = .next t ∧ SameModelFields s t ∧
      (∀ r ∈ [RegName.CMD, .ILEN, .AOFF, .TOTLEN], regRead r t = regRead r s) ∧
      (∀ a, inBuf s.cfg .IBUF a = true → byteAt t a = byteAt s a) ∧
      (i ∉ [.hdrEncode, .attrEncode, .msgEncode] → ∀ a, inBuf s.cfg .OBUF a = true → byteAt t a = byteAt s a) ∧
      (i ≠ .xmaSerialize → ∀ a, inBuf s.cfg .VBUF a = true → byteAt t a = byteAt s a) ∧
      (i ∉ [.attrDecodeAll, .msgDecode] → SameTable s t ∧ regRead .ACOUNT t = regRead .ACOUNT s)

/-- STICKY is set by every error and lost only by a host write of STATUS with bit 8 set, or by reset (R23, R209): in
any other step a STICKY that is set stays set, and if ERR is not 0 after a command STICKY is set. -/
def Obligations.StickyIsLostOnlyByHostOrReset : Prop :=
  (∀ (s : State) (e : Event) (rest : List Event), s.bus = e :: rest → e ≠ .resetPulse →
    (∀ d, (BitVec.ofNat 32 d).getLsbD 8 = true →
      e ≠ .access (.write (s.cfg.hostBase + RegName.STATUS.offset) 32 d)) →
    s.status.sticky = true → ∀ t, step s = .next t → t.status.sticky = true) ∧
  ∀ (i : Instr) (s : State), ∃ t, exec i s = .next t ∧ (t.status.err ≠ 0 → t.status.sticky = true)

/-- The invariant holds in the reset state. -/
def Obligations.InvariantAtReset : Prop := State.reset.Inv ∧ StatusDescribesCmd State.reset

/-- Every step keeps the invariant: the parameters stay legal, memory keeps its canonical form and lists only mapped
bytes, the counts stay within their buffers, the table within its size, its entries within IBUF, and STATUS coherent. -/
def Obligations.StepKeepsInvariant : Prop := ∀ s t : State, s.Inv → step s = .next t → t.Inv

/-- Every step keeps STATUS describing the command in CMD (R22, R23, R83, R202). -/
def Obligations.StepKeepsStatusDescribingCmd : Prop :=
  ∀ s t : State, StatusDescribesCmd s → step s = .next t → StatusDescribesCmd t

/-- No step changes the parameters (R20: they "are fixed for a model instance"), and each step that performs something
takes exactly the first event off the bus (R71). -/
def Obligations.StepKeepsParametersAndOrder : Prop :=
  ∀ s t : State, step s = .next t → t.cfg = s.cfg ∧ t.bus = s.bus.tail

/-- "no command's behaviour depends on STATUS" (R49): run from two states that differ in STATUS only, a command leaves
states that differ at most in STICKY, and STICKY differs only if no error was raised. -/
def Obligations.CommandsDoNotDependOnStatus : Prop :=
  ∀ (i : Instr) (s : State) (st : Status), ∃ t u,
    exec i s = .next t ∧ exec i { s with status := st } = .next u ∧
      u = { t with status := { t.status with sticky := u.status.sticky } } ∧
      (t.status.err ≠ 0 → u = t)

/-- The decode commands read only the first ILEN bytes of IBUF, ATTR_ENCODE only the first VLEN bytes of VBUF, and no
command reads another byte (R24, R43 to R45): from two states that agree on everything but other bytes of memory, a
command leaves the same registers and table, and memories that agree on every byte it wrote and on every byte the two
agreed on before. -/
def Obligations.CommandsReadOnlyTheirOperands : Prop :=
  ∀ (i : Instr) (s : State) (m : List Host.Cell),
    (∀ a, 0x1000 ≤ a → a < 0x1000 + s.ilen.toNat → byteAt { s with mem := m } a = byteAt s a) →
    (∀ a, 0x3000 ≤ a → a < 0x3000 + s.vlen.toNat → byteAt { s with mem := m } a = byteAt s a) →
      ∃ t u, exec i s = .next t ∧ exec i { s with mem := m } = .next u ∧ (∀ r, regRead r u = regRead r t) ∧
        SameTable t u ∧ SameModelFields t u ∧
        ∀ a, byteAt u a = byteAt t a ∨ (byteAt u a = byteAt { s with mem := m } a ∧ byteAt t a = byteAt s a)

/-- From the reset state no command's outcome depends on the unspecified contents (R232): with another draw of them
the same command leaves the same state but for the draw. -/
def Obligations.ResetContentsDoNotMatter : Prop :=
  ∀ (i : Instr) (k : Nat), ∃ t, exec i State.reset = .next t ∧
    exec i { State.reset with epoch := k } = .next { t with epoch := k }

/-- A `C` line of a host program stands for one write of the command's word to CMD (R91). -/
def Obligations.CommandLineIsOneCmdWrite : Prop :=
  ∀ (c : Config) (i : Instr), HostLine.events c (.c i.asmLine) = .ok [cmdWrite c (encode i).toNat]
end

