-- ==== Sys2Proof/Laws/State.lean ====
section
/-! SUPPORT. One lemma per field and named update of State, each true by definition. -/

namespace Sys2Proof.Machine

/-! ### setHdrRegs -/

@[simp] theorem setHdrRegs_cfg (h : Header) (s : State) :
    (setHdrRegs h s).cfg = s.cfg := rfl
@[simp] theorem setHdrRegs_epoch (h : Header) (s : State) :
    (setHdrRegs h s).epoch = s.epoch := rfl
@[simp] theorem setHdrRegs_bus (h : Header) (s : State) :
    (setHdrRegs h s).bus = s.bus := rfl
@[simp] theorem setHdrRegs_resp (h : Header) (s : State) :
    (setHdrRegs h s).resp = s.resp := rfl
@[simp] theorem setHdrRegs_cmd (h : Header) (s : State) :
    (setHdrRegs h s).cmd = s.cmd := rfl
@[simp] theorem setHdrRegs_status (h : Header) (s : State) :
    (setHdrRegs h s).status = s.status := rfl
@[simp] theorem setHdrRegs_ilen (h : Header) (s : State) :
    (setHdrRegs h s).ilen = s.ilen := rfl
@[simp] theorem setHdrRegs_aoff (h : Header) (s : State) :
    (setHdrRegs h s).aoff = s.aoff := rfl
@[simp] theorem setHdrRegs_totlen (h : Header) (s : State) :
    (setHdrRegs h s).totlen = s.totlen := rfl
@[simp] theorem setHdrRegs_acount (h : Header) (s : State) :
    (setHdrRegs h s).acount = s.acount := rfl
@[simp] theorem setHdrRegs_htype (h : Header) (s : State) :
    (setHdrRegs h s).htype = h.type := rfl
@[simp] theorem setHdrRegs_hlen (h : Header) (s : State) :
    (setHdrRegs h s).hlen = h.length := rfl
@[simp] theorem setHdrRegs_hcookie (h : Header) (s : State) :
    (setHdrRegs h s).hcookie = h.cookie := rfl
@[simp] theorem setHdrRegs_txid0 (h : Header) (s : State) :
    (setHdrRegs h s).txid0 = txidWord h.txid 0 := rfl
@[simp] theorem setHdrRegs_txid1 (h : Header) (s : State) :
    (setHdrRegs h s).txid1 = txidWord h.txid 1 := rfl
@[simp] theorem setHdrRegs_txid2 (h : Header) (s : State) :
    (setHdrRegs h s).txid2 = txidWord h.txid 2 := rfl
@[simp] theorem setHdrRegs_atype (h : Header) (s : State) :
    (setHdrRegs h s).atype = s.atype := rfl
@[simp] theorem setHdrRegs_adlen (h : Header) (s : State) :
    (setHdrRegs h s).adlen = s.adlen := rfl
@[simp] theorem setHdrRegs_aplen (h : Header) (s : State) :
    (setHdrRegs h s).aplen = s.aplen := rfl
@[simp] theorem setHdrRegs_avoff (h : Header) (s : State) :
    (setHdrRegs h s).avoff = s.avoff := rfl
@[simp] theorem setHdrRegs_vlen (h : Header) (s : State) :
    (setHdrRegs h s).vlen = s.vlen := rfl
@[simp] theorem setHdrRegs_olen (h : Header) (s : State) :
    (setHdrRegs h s).olen = s.olen := rfl
@[simp] theorem setHdrRegs_xfam (h : Header) (s : State) :
    (setHdrRegs h s).xfam = s.xfam := rfl
@[simp] theorem setHdrRegs_xaddr (h : Header) (s : State) :
    (setHdrRegs h s).xaddr = s.xaddr := rfl
@[simp] theorem setHdrRegs_xport (h : Header) (s : State) :
    (setHdrRegs h s).xport = s.xport := rfl
@[simp] theorem setHdrRegs_mem (h : Header) (s : State) :
    (setHdrRegs h s).mem = s.mem := rfl
@[simp] theorem setHdrRegs_atab (h : Header) (s : State) :
    (setHdrRegs h s).atab = s.atab := rfl

/-! ### setAttrRegs -/

@[simp] theorem setAttrRegs_cfg (t n v : Half) (s : State) :
    (setAttrRegs t n v s).cfg = s.cfg := rfl
@[simp] theorem setAttrRegs_epoch (t n v : Half) (s : State) :
    (setAttrRegs t n v s).epoch = s.epoch := rfl
@[simp] theorem setAttrRegs_bus (t n v : Half) (s : State) :
    (setAttrRegs t n v s).bus = s.bus := rfl
@[simp] theorem setAttrRegs_resp (t n v : Half) (s : State) :
    (setAttrRegs t n v s).resp = s.resp := rfl
@[simp] theorem setAttrRegs_cmd (t n v : Half) (s : State) :
    (setAttrRegs t n v s).cmd = s.cmd := rfl
@[simp] theorem setAttrRegs_status (t n v : Half) (s : State) :
    (setAttrRegs t n v s).status = s.status := rfl
@[simp] theorem setAttrRegs_ilen (t n v : Half) (s : State) :
    (setAttrRegs t n v s).ilen = s.ilen := rfl
@[simp] theorem setAttrRegs_aoff (t n v : Half) (s : State) :
    (setAttrRegs t n v s).aoff = s.aoff := rfl
@[simp] theorem setAttrRegs_totlen (t n v : Half) (s : State) :
    (setAttrRegs t n v s).totlen = s.totlen := rfl
@[simp] theorem setAttrRegs_acount (t n v : Half) (s : State) :
    (setAttrRegs t n v s).acount = s.acount := rfl
@[simp] theorem setAttrRegs_htype (t n v : Half) (s : State) :
    (setAttrRegs t n v s).htype = s.htype := rfl
@[simp] theorem setAttrRegs_hlen (t n v : Half) (s : State) :
    (setAttrRegs t n v s).hlen = s.hlen := rfl
@[simp] theorem setAttrRegs_hcookie (t n v : Half) (s : State) :
    (setAttrRegs t n v s).hcookie = s.hcookie := rfl
@[simp] theorem setAttrRegs_txid0 (t n v : Half) (s : State) :
    (setAttrRegs t n v s).txid0 = s.txid0 := rfl
@[simp] theorem setAttrRegs_txid1 (t n v : Half) (s : State) :
    (setAttrRegs t n v s).txid1 = s.txid1 := rfl
@[simp] theorem setAttrRegs_txid2 (t n v : Half) (s : State) :
    (setAttrRegs t n v s).txid2 = s.txid2 := rfl
@[simp] theorem setAttrRegs_atype (t n v : Half) (s : State) :
    (setAttrRegs t n v s).atype = t := rfl
@[simp] theorem setAttrRegs_adlen (t n v : Half) (s : State) :
    (setAttrRegs t n v s).adlen = n := rfl
@[simp] theorem setAttrRegs_aplen (t n v : Half) (s : State) :
    (setAttrRegs t n v s).aplen = aplenOf n := rfl
@[simp] theorem setAttrRegs_avoff (t n v : Half) (s : State) :
    (setAttrRegs t n v s).avoff = v := rfl
@[simp] theorem setAttrRegs_vlen (t n v : Half) (s : State) :
    (setAttrRegs t n v s).vlen = s.vlen := rfl
@[simp] theorem setAttrRegs_olen (t n v : Half) (s : State) :
    (setAttrRegs t n v s).olen = s.olen := rfl
@[simp] theorem setAttrRegs_xfam (t n v : Half) (s : State) :
    (setAttrRegs t n v s).xfam = s.xfam := rfl
@[simp] theorem setAttrRegs_xaddr (t n v : Half) (s : State) :
    (setAttrRegs t n v s).xaddr = s.xaddr := rfl
@[simp] theorem setAttrRegs_xport (t n v : Half) (s : State) :
    (setAttrRegs t n v s).xport = s.xport := rfl
@[simp] theorem setAttrRegs_mem (t n v : Half) (s : State) :
    (setAttrRegs t n v s).mem = s.mem := rfl
@[simp] theorem setAttrRegs_atab (t n v : Half) (s : State) :
    (setAttrRegs t n v s).atab = s.atab := rfl

/-! ### setXmaRegs -/

@[simp] theorem setXmaRegs_cfg (a : XorMappedAddr) (s : State) :
    (setXmaRegs a s).cfg = s.cfg := rfl
@[simp] theorem setXmaRegs_epoch (a : XorMappedAddr) (s : State) :
    (setXmaRegs a s).epoch = s.epoch := rfl
@[simp] theorem setXmaRegs_bus (a : XorMappedAddr) (s : State) :
    (setXmaRegs a s).bus = s.bus := rfl
@[simp] theorem setXmaRegs_resp (a : XorMappedAddr) (s : State) :
    (setXmaRegs a s).resp = s.resp := rfl
@[simp] theorem setXmaRegs_cmd (a : XorMappedAddr) (s : State) :
    (setXmaRegs a s).cmd = s.cmd := rfl
@[simp] theorem setXmaRegs_status (a : XorMappedAddr) (s : State) :
    (setXmaRegs a s).status = s.status := rfl
@[simp] theorem setXmaRegs_ilen (a : XorMappedAddr) (s : State) :
    (setXmaRegs a s).ilen = s.ilen := rfl
@[simp] theorem setXmaRegs_aoff (a : XorMappedAddr) (s : State) :
    (setXmaRegs a s).aoff = s.aoff := rfl
@[simp] theorem setXmaRegs_totlen (a : XorMappedAddr) (s : State) :
    (setXmaRegs a s).totlen = s.totlen := rfl
@[simp] theorem setXmaRegs_acount (a : XorMappedAddr) (s : State) :
    (setXmaRegs a s).acount = s.acount := rfl
@[simp] theorem setXmaRegs_htype (a : XorMappedAddr) (s : State) :
    (setXmaRegs a s).htype = s.htype := rfl
@[simp] theorem setXmaRegs_hlen (a : XorMappedAddr) (s : State) :
    (setXmaRegs a s).hlen = s.hlen := rfl
@[simp] theorem setXmaRegs_hcookie (a : XorMappedAddr) (s : State) :
    (setXmaRegs a s).hcookie = s.hcookie := rfl
@[simp] theorem setXmaRegs_txid0 (a : XorMappedAddr) (s : State) :
    (setXmaRegs a s).txid0 = s.txid0 := rfl
@[simp] theorem setXmaRegs_txid1 (a : XorMappedAddr) (s : State) :
    (setXmaRegs a s).txid1 = s.txid1 := rfl
@[simp] theorem setXmaRegs_txid2 (a : XorMappedAddr) (s : State) :
    (setXmaRegs a s).txid2 = s.txid2 := rfl
@[simp] theorem setXmaRegs_atype (a : XorMappedAddr) (s : State) :
    (setXmaRegs a s).atype = s.atype := rfl
@[simp] theorem setXmaRegs_adlen (a : XorMappedAddr) (s : State) :
    (setXmaRegs a s).adlen = s.adlen := rfl
@[simp] theorem setXmaRegs_aplen (a : XorMappedAddr) (s : State) :
    (setXmaRegs a s).aplen = s.aplen := rfl
@[simp] theorem setXmaRegs_avoff (a : XorMappedAddr) (s : State) :
    (setXmaRegs a s).avoff = s.avoff := rfl
@[simp] theorem setXmaRegs_vlen (a : XorMappedAddr) (s : State) :
    (setXmaRegs a s).vlen = s.vlen := rfl
@[simp] theorem setXmaRegs_olen (a : XorMappedAddr) (s : State) :
    (setXmaRegs a s).olen = s.olen := rfl
@[simp] theorem setXmaRegs_xfam (a : XorMappedAddr) (s : State) :
    (setXmaRegs a s).xfam = a.family := rfl
@[simp] theorem setXmaRegs_xaddr (a : XorMappedAddr) (s : State) :
    (setXmaRegs a s).xaddr = a.addr := rfl
@[simp] theorem setXmaRegs_xport (a : XorMappedAddr) (s : State) :
    (setXmaRegs a s).xport = a.port := rfl
@[simp] theorem setXmaRegs_mem (a : XorMappedAddr) (s : State) :
    (setXmaRegs a s).mem = s.mem := rfl
@[simp] theorem setXmaRegs_atab (a : XorMappedAddr) (s : State) :
    (setXmaRegs a s).atab = s.atab := rfl

/-! ### setAtab -/

@[simp] theorem setAtab_cfg (es : List AtabEntry) (s : State) :
    (setAtab es s).cfg = s.cfg := rfl
@[simp] theorem setAtab_epoch (es : List AtabEntry) (s : State) :
    (setAtab es s).epoch = s.epoch := rfl
@[simp] theorem setAtab_bus (es : List AtabEntry) (s : State) :
    (setAtab es s).bus = s.bus := rfl
@[simp] theorem setAtab_resp (es : List AtabEntry) (s : State) :
    (setAtab es s).resp = s.resp := rfl
@[simp] theorem setAtab_cmd (es : List AtabEntry) (s : State) :
    (setAtab es s).cmd = s.cmd := rfl
@[simp] theorem setAtab_status (es : List AtabEntry) (s : State) :
    (setAtab es s).status = s.status := rfl
@[simp] theorem setAtab_ilen (es : List AtabEntry) (s : State) :
    (setAtab es s).ilen = s.ilen := rfl
@[simp] theorem setAtab_aoff (es : List AtabEntry) (s : State) :
    (setAtab es s).aoff = s.aoff := rfl
@[simp] theorem setAtab_totlen (es : List AtabEntry) (s : State) :
    (setAtab es s).totlen = s.totlen := rfl
@[simp] theorem setAtab_acount (es : List AtabEntry) (s : State) :
    (setAtab es s).acount = BitVec.ofNat 16 es.length := rfl
@[simp] theorem setAtab_htype (es : List AtabEntry) (s : State) :
    (setAtab es s).htype = s.htype := rfl
@[simp] theorem setAtab_hlen (es : List AtabEntry) (s : State) :
    (setAtab es s).hlen = s.hlen := rfl
@[simp] theorem setAtab_hcookie (es : List AtabEntry) (s : State) :
    (setAtab es s).hcookie = s.hcookie := rfl
@[simp] theorem setAtab_txid0 (es : List AtabEntry) (s : State) :
    (setAtab es s).txid0 = s.txid0 := rfl
@[simp] theorem setAtab_txid1 (es : List AtabEntry) (s : State) :
    (setAtab es s).txid1 = s.txid1 := rfl
@[simp] theorem setAtab_txid2 (es : List AtabEntry) (s : State) :
    (setAtab es s).txid2 = s.txid2 := rfl
@[simp] theorem setAtab_atype (es : List AtabEntry) (s : State) :
    (setAtab es s).atype = s.atype := rfl
@[simp] theorem setAtab_adlen (es : List AtabEntry) (s : State) :
    (setAtab es s).adlen = s.adlen := rfl
@[simp] theorem setAtab_aplen (es : List AtabEntry) (s : State) :
    (setAtab es s).aplen = s.aplen := rfl
@[simp] theorem setAtab_avoff (es : List AtabEntry) (s : State) :
    (setAtab es s).avoff = s.avoff := rfl
@[simp] theorem setAtab_vlen (es : List AtabEntry) (s : State) :
    (setAtab es s).vlen = s.vlen := rfl
@[simp] theorem setAtab_olen (es : List AtabEntry) (s : State) :
    (setAtab es s).olen = s.olen := rfl
@[simp] theorem setAtab_xfam (es : List AtabEntry) (s : State) :
    (setAtab es s).xfam = s.xfam := rfl
@[simp] theorem setAtab_xaddr (es : List AtabEntry) (s : State) :
    (setAtab es s).xaddr = s.xaddr := rfl
@[simp] theorem setAtab_xport (es : List AtabEntry) (s : State) :
    (setAtab es s).xport = s.xport := rfl
@[simp] theorem setAtab_mem (es : List AtabEntry) (s : State) :
    (setAtab es s).mem = s.mem := rfl
@[simp] theorem setAtab_atab (es : List AtabEntry) (s : State) :
    (setAtab es s).atab = es ++ s.atab.drop es.length := rfl

/-! ### memWrite -/

@[simp] theorem memWrite_cfg (a : Nat) (bs : Bytes) (s : State) :
    (memWrite a bs s).cfg = s.cfg := rfl
@[simp] theorem memWrite_epoch (a : Nat) (bs : Bytes) (s : State) :
    (memWrite a bs s).epoch = s.epoch := rfl
@[simp] theorem memWrite_bus (a : Nat) (bs : Bytes) (s : State) :
    (memWrite a bs s).bus = s.bus := rfl
@[simp] theorem memWrite_resp (a : Nat) (bs : Bytes) (s : State) :
    (memWrite a bs s).resp = s.resp := rfl
@[simp] theorem memWrite_cmd (a : Nat) (bs : Bytes) (s : State) :
    (memWrite a bs s).cmd = s.cmd := rfl
@[simp] theorem memWrite_status (a : Nat) (bs : Bytes) (s : State) :
    (memWrite a bs s).status = s.status := rfl
@[simp] theorem memWrite_ilen (a : Nat) (bs : Bytes) (s : State) :
    (memWrite a bs s).ilen = s.ilen := rfl
@[simp] theorem memWrite_aoff (a : Nat) (bs : Bytes) (s : State) :
    (memWrite a bs s).aoff = s.aoff := rfl
@[simp] theorem memWrite_totlen (a : Nat) (bs : Bytes) (s : State) :
    (memWrite a bs s).totlen = s.totlen := rfl
@[simp] theorem memWrite_acount (a : Nat) (bs : Bytes) (s : State) :
    (memWrite a bs s).acount = s.acount := rfl
@[simp] theorem memWrite_htype (a : Nat) (bs : Bytes) (s : State) :
    (memWrite a bs s).htype = s.htype := rfl
@[simp] theorem memWrite_hlen (a : Nat) (bs : Bytes) (s : State) :
    (memWrite a bs s).hlen = s.hlen := rfl
@[simp] theorem memWrite_hcookie (a : Nat) (bs : Bytes) (s : State) :
    (memWrite a bs s).hcookie = s.hcookie := rfl
@[simp] theorem memWrite_txid0 (a : Nat) (bs : Bytes) (s : State) :
    (memWrite a bs s).txid0 = s.txid0 := rfl
@[simp] theorem memWrite_txid1 (a : Nat) (bs : Bytes) (s : State) :
    (memWrite a bs s).txid1 = s.txid1 := rfl
@[simp] theorem memWrite_txid2 (a : Nat) (bs : Bytes) (s : State) :
    (memWrite a bs s).txid2 = s.txid2 := rfl
@[simp] theorem memWrite_atype (a : Nat) (bs : Bytes) (s : State) :
    (memWrite a bs s).atype = s.atype := rfl
@[simp] theorem memWrite_adlen (a : Nat) (bs : Bytes) (s : State) :
    (memWrite a bs s).adlen = s.adlen := rfl
@[simp] theorem memWrite_aplen (a : Nat) (bs : Bytes) (s : State) :
    (memWrite a bs s).aplen = s.aplen := rfl
@[simp] theorem memWrite_avoff (a : Nat) (bs : Bytes) (s : State) :
    (memWrite a bs s).avoff = s.avoff := rfl
@[simp] theorem memWrite_vlen (a : Nat) (bs : Bytes) (s : State) :
    (memWrite a bs s).vlen = s.vlen := rfl
@[simp] theorem memWrite_olen (a : Nat) (bs : Bytes) (s : State) :
    (memWrite a bs s).olen = s.olen := rfl
@[simp] theorem memWrite_xfam (a : Nat) (bs : Bytes) (s : State) :
    (memWrite a bs s).xfam = s.xfam := rfl
@[simp] theorem memWrite_xaddr (a : Nat) (bs : Bytes) (s : State) :
    (memWrite a bs s).xaddr = s.xaddr := rfl
@[simp] theorem memWrite_xport (a : Nat) (bs : Bytes) (s : State) :
    (memWrite a bs s).xport = s.xport := rfl
@[simp] theorem memWrite_mem (a : Nat) (bs : Bytes) (s : State) :
    (memWrite a bs s).mem = memPokes s.mem a bs := rfl
@[simp] theorem memWrite_atab (a : Nat) (bs : Bytes) (s : State) :
    (memWrite a bs s).atab = s.atab := rfl

/-! ### raise -/

@[simp] theorem raise_cfg (e : ErrCode) (s : State) :
    (raise e s).cfg = s.cfg := rfl
@[simp] theorem raise_epoch (e : ErrCode) (s : State) :
    (raise e s).epoch = s.epoch := rfl
@[simp] theorem raise_bus (e : ErrCode) (s : State) :
    (raise e s).bus = s.bus := rfl
@[simp] theorem raise_resp (e : ErrCode) (s : State) :
    (raise e s).resp = s.resp := rfl
@[simp] theorem raise_cmd (e : ErrCode) (s : State) :
    (raise e s).cmd = s.cmd := rfl
@[simp] theorem raise_status (e : ErrCode) (s : State) :
    (raise e s).status = statusRaised e := rfl
@[simp] theorem raise_ilen (e : ErrCode) (s : State) :
    (raise e s).ilen = s.ilen := rfl
@[simp] theorem raise_aoff (e : ErrCode) (s : State) :
    (raise e s).aoff = s.aoff := rfl
@[simp] theorem raise_totlen (e : ErrCode) (s : State) :
    (raise e s).totlen = s.totlen := rfl
@[simp] theorem raise_acount (e : ErrCode) (s : State) :
    (raise e s).acount = s.acount := rfl
@[simp] theorem raise_htype (e : ErrCode) (s : State) :
    (raise e s).htype = s.htype := rfl
@[simp] theorem raise_hlen (e : ErrCode) (s : State) :
    (raise e s).hlen = s.hlen := rfl
@[simp] theorem raise_hcookie (e : ErrCode) (s : State) :
    (raise e s).hcookie = s.hcookie := rfl
@[simp] theorem raise_txid0 (e : ErrCode) (s : State) :
    (raise e s).txid0 = s.txid0 := rfl
@[simp] theorem raise_txid1 (e : ErrCode) (s : State) :
    (raise e s).txid1 = s.txid1 := rfl
@[simp] theorem raise_txid2 (e : ErrCode) (s : State) :
    (raise e s).txid2 = s.txid2 := rfl
@[simp] theorem raise_atype (e : ErrCode) (s : State) :
    (raise e s).atype = s.atype := rfl
@[simp] theorem raise_adlen (e : ErrCode) (s : State) :
    (raise e s).adlen = s.adlen := rfl
@[simp] theorem raise_aplen (e : ErrCode) (s : State) :
    (raise e s).aplen = s.aplen := rfl
@[simp] theorem raise_avoff (e : ErrCode) (s : State) :
    (raise e s).avoff = s.avoff := rfl
@[simp] theorem raise_vlen (e : ErrCode) (s : State) :
    (raise e s).vlen = s.vlen := rfl
@[simp] theorem raise_olen (e : ErrCode) (s : State) :
    (raise e s).olen = s.olen := rfl
@[simp] theorem raise_xfam (e : ErrCode) (s : State) :
    (raise e s).xfam = s.xfam := rfl
@[simp] theorem raise_xaddr (e : ErrCode) (s : State) :
    (raise e s).xaddr = s.xaddr := rfl
@[simp] theorem raise_xport (e : ErrCode) (s : State) :
    (raise e s).xport = s.xport := rfl
@[simp] theorem raise_mem (e : ErrCode) (s : State) :
    (raise e s).mem = s.mem := rfl
@[simp] theorem raise_atab (e : ErrCode) (s : State) :
    (raise e s).atab = s.atab := rfl

/-! ### complete -/

@[simp] theorem complete_cfg (f n c : Bool) (s : State) :
    (complete f n c s).cfg = s.cfg := rfl
@[simp] theorem complete_epoch (f n c : Bool) (s : State) :
    (complete f n c s).epoch = s.epoch := rfl
@[simp] theorem complete_bus (f n c : Bool) (s : State) :
    (complete f n c s).bus = s.bus := rfl
@[simp] theorem complete_resp (f n c : Bool) (s : State) :
    (complete f n c s).resp = s.resp := rfl
@[simp] theorem complete_cmd (f n c : Bool) (s : State) :
    (complete f n c s).cmd = s.cmd := rfl
@[simp] theorem complete_status (f n c : Bool) (s : State) :
    (complete f n c s).status = statusComplete f n c s.status := rfl
@[simp] theorem complete_ilen (f n c : Bool) (s : State) :
    (complete f n c s).ilen = s.ilen := rfl
@[simp] theorem complete_aoff (f n c : Bool) (s : State) :
    (complete f n c s).aoff = s.aoff := rfl
@[simp] theorem complete_totlen (f n c : Bool) (s : State) :
    (complete f n c s).totlen = s.totlen := rfl
@[simp] theorem complete_acount (f n c : Bool) (s : State) :
    (complete f n c s).acount = s.acount := rfl
@[simp] theorem complete_htype (f n c : Bool) (s : State) :
    (complete f n c s).htype = s.htype := rfl
@[simp] theorem complete_hlen (f n c : Bool) (s : State) :
    (complete f n c s).hlen = s.hlen := rfl
@[simp] theorem complete_hcookie (f n c : Bool) (s : State) :
    (complete f n c s).hcookie = s.hcookie := rfl
@[simp] theorem complete_txid0 (f n c : Bool) (s : State) :
    (complete f n c s).txid0 = s.txid0 := rfl
@[simp] theorem complete_txid1 (f n c : Bool) (s : State) :
    (complete f n c s).txid1 = s.txid1 := rfl
@[simp] theorem complete_txid2 (f n c : Bool) (s : State) :
    (complete f n c s).txid2 = s.txid2 := rfl
@[simp] theorem complete_atype (f n c : Bool) (s : State) :
    (complete f n c s).atype = s.atype := rfl
@[simp] theorem complete_adlen (f n c : Bool) (s : State) :
    (complete f n c s).adlen = s.adlen := rfl
@[simp] theorem complete_aplen (f n c : Bool) (s : State) :
    (complete f n c s).aplen = s.aplen := rfl
@[simp] theorem complete_avoff (f n c : Bool) (s : State) :
    (complete f n c s).avoff = s.avoff := rfl
@[simp] theorem complete_vlen (f n c : Bool) (s : State) :
    (complete f n c s).vlen = s.vlen := rfl
@[simp] theorem complete_olen (f n c : Bool) (s : State) :
    (complete f n c s).olen = s.olen := rfl
@[simp] theorem complete_xfam (f n c : Bool) (s : State) :
    (complete f n c s).xfam = s.xfam := rfl
@[simp] theorem complete_xaddr (f n c : Bool) (s : State) :
    (complete f n c s).xaddr = s.xaddr := rfl
@[simp] theorem complete_xport (f n c : Bool) (s : State) :
    (complete f n c s).xport = s.xport := rfl
@[simp] theorem complete_mem (f n c : Bool) (s : State) :
    (complete f n c s).mem = s.mem := rfl
@[simp] theorem complete_atab (f n c : Bool) (s : State) :
    (complete f n c s).atab = s.atab := rfl

/-! ### setOlen -/

@[simp] theorem setOlen_cfg (n : Half) (s : State) :
    (setOlen n s).cfg = s.cfg := rfl
@[simp] theorem setOlen_epoch (n : Half) (s : State) :
    (setOlen n s).epoch = s.epoch := rfl
@[simp] theorem setOlen_bus (n : Half) (s : State) :
    (setOlen n s).bus = s.bus := rfl
@[simp] theorem setOlen_resp (n : Half) (s : State) :
    (setOlen n s).resp = s.resp := rfl
@[simp] theorem setOlen_cmd (n : Half) (s : State) :
    (setOlen n s).cmd = s.cmd := rfl
@[simp] theorem setOlen_status (n : Half) (s : State) :
    (setOlen n s).status = s.status := rfl
@[simp] theorem setOlen_ilen (n : Half) (s : State) :
    (setOlen n s).ilen = s.ilen := rfl
@[simp] theorem setOlen_aoff (n : Half) (s : State) :
    (setOlen n s).aoff = s.aoff := rfl
@[simp] theorem setOlen_totlen (n : Half) (s : State) :
    (setOlen n s).totlen = s.totlen := rfl
@[simp] theorem setOlen_acount (n : Half) (s : State) :
    (setOlen n s).acount = s.acount := rfl
@[simp] theorem setOlen_htype (n : Half) (s : State) :
    (setOlen n s).htype = s.htype := rfl
@[simp] theorem setOlen_hlen (n : Half) (s : State) :
    (setOlen n s).hlen = s.hlen := rfl
@[simp] theorem setOlen_hcookie (n : Half) (s : State) :
    (setOlen n s).hcookie = s.hcookie := rfl
@[simp] theorem setOlen_txid0 (n : Half) (s : State) :
    (setOlen n s).txid0 = s.txid0 := rfl
@[simp] theorem setOlen_txid1 (n : Half) (s : State) :
    (setOlen n s).txid1 = s.txid1 := rfl
@[simp] theorem setOlen_txid2 (n : Half) (s : State) :
    (setOlen n s).txid2 = s.txid2 := rfl
@[simp] theorem setOlen_atype (n : Half) (s : State) :
    (setOlen n s).atype = s.atype := rfl
@[simp] theorem setOlen_adlen (n : Half) (s : State) :
    (setOlen n s).adlen = s.adlen := rfl
@[simp] theorem setOlen_aplen (n : Half) (s : State) :
    (setOlen n s).aplen = s.aplen := rfl
@[simp] theorem setOlen_avoff (n : Half) (s : State) :
    (setOlen n s).avoff = s.avoff := rfl
@[simp] theorem setOlen_vlen (n : Half) (s : State) :
    (setOlen n s).vlen = s.vlen := rfl
@[simp] theorem setOlen_olen (n : Half) (s : State) :
    (setOlen n s).olen = n := rfl
@[simp] theorem setOlen_xfam (n : Half) (s : State) :
    (setOlen n s).xfam = s.xfam := rfl
@[simp] theorem setOlen_xaddr (n : Half) (s : State) :
    (setOlen n s).xaddr = s.xaddr := rfl
@[simp] theorem setOlen_xport (n : Half) (s : State) :
    (setOlen n s).xport = s.xport := rfl
@[simp] theorem setOlen_mem (n : Half) (s : State) :
    (setOlen n s).mem = s.mem := rfl
@[simp] theorem setOlen_atab (n : Half) (s : State) :
    (setOlen n s).atab = s.atab := rfl

/-! ### setVlen -/

@[simp] theorem setVlen_cfg (n : Half) (s : State) :
    (setVlen n s).cfg = s.cfg := rfl
@[simp] theorem setVlen_epoch (n : Half) (s : State) :
    (setVlen n s).epoch = s.epoch := rfl
@[simp] theorem setVlen_bus (n : Half) (s : State) :
    (setVlen n s).bus = s.bus := rfl
@[simp] theorem setVlen_resp (n : Half) (s : State) :
    (setVlen n s).resp = s.resp := rfl
@[simp] theorem setVlen_cmd (n : Half) (s : State) :
    (setVlen n s).cmd = s.cmd := rfl
@[simp] theorem setVlen_status (n : Half) (s : State) :
    (setVlen n s).status = s.status := rfl
@[simp] theorem setVlen_ilen (n : Half) (s : State) :
    (setVlen n s).ilen = s.ilen := rfl
@[simp] theorem setVlen_aoff (n : Half) (s : State) :
    (setVlen n s).aoff = s.aoff := rfl
@[simp] theorem setVlen_totlen (n : Half) (s : State) :
    (setVlen n s).totlen = s.totlen := rfl
@[simp] theorem setVlen_acount (n : Half) (s : State) :
    (setVlen n s).acount = s.acount := rfl
@[simp] theorem setVlen_htype (n : Half) (s : State) :
    (setVlen n s).htype = s.htype := rfl
@[simp] theorem setVlen_hlen (n : Half) (s : State) :
    (setVlen n s).hlen = s.hlen := rfl
@[simp] theorem setVlen_hcookie (n : Half) (s : State) :
    (setVlen n s).hcookie = s.hcookie := rfl
@[simp] theorem setVlen_txid0 (n : Half) (s : State) :
    (setVlen n s).txid0 = s.txid0 := rfl
@[simp] theorem setVlen_txid1 (n : Half) (s : State) :
    (setVlen n s).txid1 = s.txid1 := rfl
@[simp] theorem setVlen_txid2 (n : Half) (s : State) :
    (setVlen n s).txid2 = s.txid2 := rfl
@[simp] theorem setVlen_atype (n : Half) (s : State) :
    (setVlen n s).atype = s.atype := rfl
@[simp] theorem setVlen_adlen (n : Half) (s : State) :
    (setVlen n s).adlen = s.adlen := rfl
@[simp] theorem setVlen_aplen (n : Half) (s : State) :
    (setVlen n s).aplen = s.aplen := rfl
@[simp] theorem setVlen_avoff (n : Half) (s : State) :
    (setVlen n s).avoff = s.avoff := rfl
@[simp] theorem setVlen_vlen (n : Half) (s : State) :
    (setVlen n s).vlen = n := rfl
@[simp] theorem setVlen_olen (n : Half) (s : State) :
    (setVlen n s).olen = s.olen := rfl
@[simp] theorem setVlen_xfam (n : Half) (s : State) :
    (setVlen n s).xfam = s.xfam := rfl
@[simp] theorem setVlen_xaddr (n : Half) (s : State) :
    (setVlen n s).xaddr = s.xaddr := rfl
@[simp] theorem setVlen_xport (n : Half) (s : State) :
    (setVlen n s).xport = s.xport := rfl
@[simp] theorem setVlen_mem (n : Half) (s : State) :
    (setVlen n s).mem = s.mem := rfl
@[simp] theorem setVlen_atab (n : Half) (s : State) :
    (setVlen n s).atab = s.atab := rfl

/-! ### setAplen -/

@[simp] theorem setAplen_cfg (n : BitVec 17) (s : State) :
    (setAplen n s).cfg = s.cfg := rfl
@[simp] theorem setAplen_epoch (n : BitVec 17) (s : State) :
    (setAplen n s).epoch = s.epoch := rfl
@[simp] theorem setAplen_bus (n : BitVec 17) (s : State) :
    (setAplen n s).bus = s.bus := rfl
@[simp] theorem setAplen_resp (n : BitVec 17) (s : State) :
    (setAplen n s).resp = s.resp := rfl
@[simp] theorem setAplen_cmd (n : BitVec 17) (s : State) :
    (setAplen n s).cmd = s.cmd := rfl
@[simp] theorem setAplen_status (n : BitVec 17) (s : State) :
    (setAplen n s).status = s.status := rfl
@[simp] theorem setAplen_ilen (n : BitVec 17) (s : State) :
    (setAplen n s).ilen = s.ilen := rfl
@[simp] theorem setAplen_aoff (n : BitVec 17) (s : State) :
    (setAplen n s).aoff = s.aoff := rfl
@[simp] theorem setAplen_totlen (n : BitVec 17) (s : State) :
    (setAplen n s).totlen = s.totlen := rfl
@[simp] theorem setAplen_acount (n : BitVec 17) (s : State) :
    (setAplen n s).acount = s.acount := rfl
@[simp] theorem setAplen_htype (n : BitVec 17) (s : State) :
    (setAplen n s).htype = s.htype := rfl
@[simp] theorem setAplen_hlen (n : BitVec 17) (s : State) :
    (setAplen n s).hlen = s.hlen := rfl
@[simp] theorem setAplen_hcookie (n : BitVec 17) (s : State) :
    (setAplen n s).hcookie = s.hcookie := rfl
@[simp] theorem setAplen_txid0 (n : BitVec 17) (s : State) :
    (setAplen n s).txid0 = s.txid0 := rfl
@[simp] theorem setAplen_txid1 (n : BitVec 17) (s : State) :
    (setAplen n s).txid1 = s.txid1 := rfl
@[simp] theorem setAplen_txid2 (n : BitVec 17) (s : State) :
    (setAplen n s).txid2 = s.txid2 := rfl
@[simp] theorem setAplen_atype (n : BitVec 17) (s : State) :
    (setAplen n s).atype = s.atype := rfl
@[simp] theorem setAplen_adlen (n : BitVec 17) (s : State) :
    (setAplen n s).adlen = s.adlen := rfl
@[simp] theorem setAplen_aplen (n : BitVec 17) (s : State) :
    (setAplen n s).aplen = n := rfl
@[simp] theorem setAplen_avoff (n : BitVec 17) (s : State) :
    (setAplen n s).avoff = s.avoff := rfl
@[simp] theorem setAplen_vlen (n : BitVec 17) (s : State) :
    (setAplen n s).vlen = s.vlen := rfl
@[simp] theorem setAplen_olen (n : BitVec 17) (s : State) :
    (setAplen n s).olen = s.olen := rfl
@[simp] theorem setAplen_xfam (n : BitVec 17) (s : State) :
    (setAplen n s).xfam = s.xfam := rfl
@[simp] theorem setAplen_xaddr (n : BitVec 17) (s : State) :
    (setAplen n s).xaddr = s.xaddr := rfl
@[simp] theorem setAplen_xport (n : BitVec 17) (s : State) :
    (setAplen n s).xport = s.xport := rfl
@[simp] theorem setAplen_mem (n : BitVec 17) (s : State) :
    (setAplen n s).mem = s.mem := rfl
@[simp] theorem setAplen_atab (n : BitVec 17) (s : State) :
    (setAplen n s).atab = s.atab := rfl

/-! ### setHlen -/

@[simp] theorem setHlen_cfg (n : Half) (s : State) :
    (setHlen n s).cfg = s.cfg := rfl
@[simp] theorem setHlen_epoch (n : Half) (s : State) :
    (setHlen n s).epoch = s.epoch := rfl
@[simp] theorem setHlen_bus (n : Half) (s : State) :
    (setHlen n s).bus = s.bus := rfl
@[simp] theorem setHlen_resp (n : Half) (s : State) :
    (setHlen n s).resp = s.resp := rfl
@[simp] theorem setHlen_cmd (n : Half) (s : State) :
    (setHlen n s).cmd = s.cmd := rfl
@[simp] theorem setHlen_status (n : Half) (s : State) :
    (setHlen n s).status = s.status := rfl
@[simp] theorem setHlen_ilen (n : Half) (s : State) :
    (setHlen n s).ilen = s.ilen := rfl
@[simp] theorem setHlen_aoff (n : Half) (s : State) :
    (setHlen n s).aoff = s.aoff := rfl
@[simp] theorem setHlen_totlen (n : Half) (s : State) :
    (setHlen n s).totlen = s.totlen := rfl
@[simp] theorem setHlen_acount (n : Half) (s : State) :
    (setHlen n s).acount = s.acount := rfl
@[simp] theorem setHlen_htype (n : Half) (s : State) :
    (setHlen n s).htype = s.htype := rfl
@[simp] theorem setHlen_hlen (n : Half) (s : State) :
    (setHlen n s).hlen = n := rfl
@[simp] theorem setHlen_hcookie (n : Half) (s : State) :
    (setHlen n s).hcookie = s.hcookie := rfl
@[simp] theorem setHlen_txid0 (n : Half) (s : State) :
    (setHlen n s).txid0 = s.txid0 := rfl
@[simp] theorem setHlen_txid1 (n : Half) (s : State) :
    (setHlen n s).txid1 = s.txid1 := rfl
@[simp] theorem setHlen_txid2 (n : Half) (s : State) :
    (setHlen n s).txid2 = s.txid2 := rfl
@[simp] theorem setHlen_atype (n : Half) (s : State) :
    (setHlen n s).atype = s.atype := rfl
@[simp] theorem setHlen_adlen (n : Half) (s : State) :
    (setHlen n s).adlen = s.adlen := rfl
@[simp] theorem setHlen_aplen (n : Half) (s : State) :
    (setHlen n s).aplen = s.aplen := rfl
@[simp] theorem setHlen_avoff (n : Half) (s : State) :
    (setHlen n s).avoff = s.avoff := rfl
@[simp] theorem setHlen_vlen (n : Half) (s : State) :
    (setHlen n s).vlen = s.vlen := rfl
@[simp] theorem setHlen_olen (n : Half) (s : State) :
    (setHlen n s).olen = s.olen := rfl
@[simp] theorem setHlen_xfam (n : Half) (s : State) :
    (setHlen n s).xfam = s.xfam := rfl
@[simp] theorem setHlen_xaddr (n : Half) (s : State) :
    (setHlen n s).xaddr = s.xaddr := rfl
@[simp] theorem setHlen_xport (n : Half) (s : State) :
    (setHlen n s).xport = s.xport := rfl
@[simp] theorem setHlen_mem (n : Half) (s : State) :
    (setHlen n s).mem = s.mem := rfl
@[simp] theorem setHlen_atab (n : Half) (s : State) :
    (setHlen n s).atab = s.atab := rfl

end Sys2Proof.Machine
end

