-- ==== Sys2Proof/Laws/Bytes.lean ====
section
/-! SUPPORT. Byte sequences and big-endian fields: lengths, indices, values, and the two directions of each field. -/

namespace Sys2Proof.Machine

@[simp] theorem tobe16_length (v : Half) : (tobe16 v).length = 2 := rfl
@[simp] theorem tobe32_length (v : Word) : (tobe32 v).length = 4 := rfl

theorem be16_tobe16 (v : Half) : be16 (v.extractLsb' 8 8) (v.extractLsb' 0 8) = v := by
  have := v.isLt
  apply BitVec.eq_of_toNat_eq
  simp only [be16, BitVec.toNat_append, BitVec.extractLsb'_toNat]
  rw [← Nat.shiftLeft_add_eq_or_of_lt (by omega)]
  simp only [Nat.shiftLeft_eq, Nat.shiftRight_eq_div_pow]
  omega

theorem be32_tobe32 (v : Word) :
    be32 (v.extractLsb' 24 8) (v.extractLsb' 16 8) (v.extractLsb' 8 8) (v.extractLsb' 0 8) = v := by
  apply BitVec.eq_of_toNat_eq
  simp only [be32, BitVec.toNat_append, BitVec.extractLsb'_toNat, ← Nat.shiftLeft_add_eq_or_of_lt
    (show _ % 2 ^ 8 < 2 ^ 8 from Nat.mod_lt _ (by decide))]
  rw [← Nat.shiftLeft_add_eq_or_of_lt (by omega)]
  have := v.isLt
  simp only [Nat.shiftLeft_eq, Nat.shiftRight_eq_div_pow]
  omega

theorem be16_toNat (a b : Byte) : (be16 a b).toNat = a.toNat * 256 + b.toNat := by
  have := b.isLt
  simp only [be16, BitVec.toNat_append]
  rw [← Nat.shiftLeft_add_eq_or_of_lt (by omega), Nat.shiftLeft_eq]

theorem be32_toNat (a b c d : Byte) :
    (be32 a b c d).toNat = ((a.toNat * 256 + b.toNat) * 256 + c.toNat) * 256 + d.toNat := by
  have := c.isLt
  have := d.isLt
  simp only [be32, BitVec.toNat_append]
  rw [← Nat.shiftLeft_add_eq_or_of_lt (a := a.toNat) (by omega),
    ← Nat.shiftLeft_add_eq_or_of_lt (a := c.toNat) (by omega),
    ← Nat.shiftLeft_add_eq_or_of_lt (by rw [Nat.shiftLeft_eq]; omega)]
  simp only [Nat.shiftLeft_eq]
  omega

theorem tobe16_be16 (a b : Byte) : tobe16 (be16 a b) = [a, b] := by
  have ha := a.isLt
  have hb := b.isLt
  simp only [tobe16, List.cons.injEq, and_true]
  constructor <;> apply BitVec.eq_of_toNat_eq <;>
    simp only [BitVec.extractLsb'_toNat, be16_toNat, Nat.shiftRight_eq_div_pow] <;> omega

theorem tobe32_be32 (a b c d : Byte) : tobe32 (be32 a b c d) = [a, b, c, d] := by
  have ha := a.isLt
  have hb := b.isLt
  have hc := c.isLt
  have hd := d.isLt
  simp only [tobe32, List.cons.injEq, and_true]
  refine ⟨?_, ?_, ?_, ?_⟩ <;> apply BitVec.eq_of_toNat_eq <;>
    simp only [BitVec.extractLsb'_toNat, be32_toNat, Nat.shiftRight_eq_div_pow] <;> omega

theorem beVal_tobe16 (v : Half) : beVal (tobe16 v) = v.toNat := by
  rw [← be16_tobe16 v, be16_toNat]
  simp [beVal, be16_tobe16, tobe16]

theorem beVal_tobe32 (v : Word) : beVal (tobe32 v) = v.toNat := by
  rw [← be32_tobe32 v, be32_toNat]
  simp [beVal, be32_tobe32, tobe32]

@[simp] theorem slice_length (b : Bytes) (i j : Nat) : (slice b i j).length = min j b.length - i := by
  simp [slice]

theorem nth_append_left {b c : Bytes} {i : Nat} (h : i < b.length) : nth (b ++ c) i = nth b i := by
  simp [nth, List.getElem?_append_left h]

theorem nth_append_right {b c : Bytes} {i : Nat} (h : b.length ≤ i) : nth (b ++ c) i = nth c (i - b.length) := by
  simp [nth, List.getElem?_append_right h]

theorem nth_slice {b : Bytes} {i j k : Nat} (h : i + k < j) : nth (slice b i j) k = nth b (i + k) := by
  simp [nth, slice, h]

theorem pad4_eq_padded (n : Nat) : pad4 n = padded n := by
  unfold pad4 padded; split <;> omega

theorem pad4_le (n : Half) : pad4 n.toNat ≤ 65536 := by
  have := n.isLt
  unfold pad4; split <;> omega

theorem aplenOf_toNat (n : Half) : (aplenOf n).toNat = pad4 n.toNat := by
  have := pad4_le n
  simp only [aplenOf, BitVec.toNat_ofNat]
  omega

end Sys2Proof.Machine
end

