-- ==== Sys2Proof/Laws/Memory.lean ====
section
/-! SUPPORT. Memory: a read after a write, other places untouched, the canonical form kept; the same for ATAB. -/

namespace Sys2Proof.Machine

theorem memPeek_memPoke (m : List Host.Cell) (x y : Nat) (u : Byte) :
    memPeek (memPoke m x u) y = if y = x then some u else memPeek m y := by
  induction m with
  | nil => simp [memPoke, memPeek]
  | cons p m ih =>
    obtain ⟨a, v⟩ := p
    simp only [memPoke]
    split
    · simp [memPeek]
    · split
      · subst x; simp only [memPeek]; split <;> rfl
      · simp only [memPeek, ih]
        split <;> split <;> first | rfl | omega

theorem memPeek_memPokes (bs : Bytes) : ∀ (m : List Host.Cell) (x y : Nat),
    memPeek (memPokes m x bs) y = if x ≤ y ∧ y < x + bs.length then some (nth bs (y - x)) else memPeek m y := by
  induction bs with
  | nil => intro m x y; rw [if_neg (by simp)]; rfl
  | cons b bs ih =>
    intro m x y
    rw [memPokes, ih, memPeek_memPoke]
    by_cases h : y = x
    · subst h
      rw [if_neg (by omega), if_pos rfl, if_pos (by simp)]
      simp [nth]
    · simp only [if_neg h]
      by_cases h' : x + 1 ≤ y ∧ y < x + 1 + bs.length
      · rw [if_pos h', if_pos (by simp; omega), show y - x = y - (x + 1) + 1 by omega]
        simp [nth]
      · rw [if_neg h', if_neg (by simp; omega)]

theorem mem_memPoke {m : List Host.Cell} {x : Nat} {u : Byte} {p : Host.Cell} (h : p ∈ memPoke m x u) :
    p = (x, u) ∨ p ∈ m := by
  induction m with
  | nil => simpa [memPoke] using h
  | cons q m ih =>
    obtain ⟨a, v⟩ := q
    simp only [memPoke] at h
    split at h
    · simpa using h
    · split at h
      · rcases List.mem_cons.1 h with h | h
        · exact .inl h
        · exact .inr (List.mem_cons_of_mem _ h)
      · rcases List.mem_cons.1 h with h | h
        · exact .inr (by simp [h])
        · rcases ih h with h | h
          · exact .inl h
          · exact .inr (List.mem_cons_of_mem _ h)

/-- Writing a byte keeps the canonical form. -/
theorem memWf_memPoke {m : List Host.Cell} (h : memWf m) (x : Nat) (u : Byte) : memWf (memPoke m x u) := by
  induction m with
  | nil => simp [memPoke, memWf]
  | cons q m ih =>
    obtain ⟨a, v⟩ := q
    have h' := List.pairwise_cons.1 h
    simp only [memPoke]
    split
    · refine List.pairwise_cons.2 ⟨fun p hp => ?_, h⟩
      rcases List.mem_cons.1 hp with rfl | hp
      · assumption
      · have := h'.1 p hp; simp only at *; omega
    · split
      · subst x; exact List.pairwise_cons.2 ⟨h'.1, h'.2⟩
      · refine List.pairwise_cons.2 ⟨fun p hp => ?_, ih h'.2⟩
        rcases mem_memPoke hp with rfl | hp
        · simp only at *; omega
        · exact h'.1 p hp

/-- Writing a byte sequence keeps the canonical form. -/
theorem memWf_memPokes (bs : Bytes) : ∀ {m : List Host.Cell} (x : Nat), memWf m → memWf (memPokes m x bs) := by
  induction bs with
  | nil => intro m x h; exact h
  | cons b bs ih => intro m x h; exact ih _ (memWf_memPoke h x b)

theorem mem_memPokes (bs : Bytes) : ∀ {m : List Host.Cell} {x : Nat} {p : Host.Cell}, p ∈ memPokes m x bs →
    (x ≤ p.1 ∧ p.1 < x + bs.length) ∨ p ∈ m := by
  induction bs with
  | nil => intro m x p h; exact .inr h
  | cons b bs ih =>
    intro m x p h
    rcases ih h with h | h
    · exact .inl (by simp; omega)
    · rcases mem_memPoke h with rfl | h
      · exact .inl (by simp)
      · exact .inr h

/-- Everything `memWrite` does to a byte that is read back: inside the written range the byte written, outside it the
byte before. -/
theorem byteAt_memWrite (s : State) (x : Nat) (bs : Bytes) (y : Nat) :
    byteAt (memWrite x bs s) y = if x ≤ y ∧ y < x + bs.length then nth bs (y - x) else byteAt s y := by
  simp only [byteAt, memWrite_mem, memWrite_epoch, memPeek_memPokes]
  split <;> simp

/-- A read depends on memory and the reset count alone. -/
theorem byteAt_congr {s t : State} (hm : t.mem = s.mem) (he : t.epoch = s.epoch) (a : Nat) :
    byteAt t a = byteAt s a := by
  simp [byteAt, hm, he]

@[simp] theorem memRead_length (s : State) (a n : Nat) : (memRead s a n).length = n := by simp [memRead]

theorem nth_memRead (s : State) {a n k : Nat} (h : k < n) : nth (memRead s a n) k = byteAt s (a + k) := by
  simp [nth, memRead, List.getElem?_map, List.getElem?_range h]

theorem memRead_congr {s t : State} {a b n : Nat} (h : ∀ k, k < n → byteAt t (b + k) = byteAt s (a + k)) :
    memRead t b n = memRead s a n := by
  simp only [memRead]
  exact List.map_congr_left fun k hk => h k (List.mem_range.1 hk)

/-- What was written is read back. -/
theorem memRead_memWrite (s : State) (x : Nat) (bs : Bytes) : memRead (memWrite x bs s) x bs.length = bs := by
  apply List.ext_getElem (by simp)
  intro k hk hk'
  simp only [memRead, List.getElem_map, List.getElem_range, byteAt_memWrite]
  rw [if_pos (by omega)]
  simp [nth, hk']

theorem slice_memRead (s : State) {a n i j : Nat} (hj : j ≤ n) :
    slice (memRead s a n) i j = memRead s (a + i) (j - i) := by
  apply List.ext_getElem (by simp; omega)
  intro k hk hk'
  simp [slice, memRead, Nat.add_assoc]

theorem atabAt_congr {s t : State} (ha : t.atab = s.atab) (he : t.epoch = s.epoch) (i : Nat) :
    atabAt t i = atabAt s i := by
  simp [atabAt, ha, he]

/-- Everything `setAtab` does to an entry that is read back. -/
theorem atabAt_setAtab (es : List AtabEntry) (s : State) (i : Nat) :
    atabAt (setAtab es s) i = if h : i < es.length then es[i] else atabAt s i := by
  simp only [atabAt, setAtab_atab, setAtab_epoch]
  split
  · rename_i h; simp [List.getElem?_append_left h, h]
  · rename_i h
    rw [List.getElem?_append_right (by omega), List.getElem?_drop]
    simp [show es.length + (i - es.length) = i by omega]

theorem validEntries_length (s : State) : (validEntries s).length = s.acount.toNat := by simp [validEntries]

theorem mem_validEntries {s : State} {e : AtabEntry} :
    e ∈ validEntries s ↔ ∃ i, i < s.acount.toNat ∧ atabAt s i = e := by
  simp [validEntries]

end Sys2Proof.Machine
end

