-- ==== Sys2Proof/Laws/Ops.lean ====
section
/-! SUPPORT. How a command ends (settle, raise, complete), what the host then reads, and the frames of the named updates. -/

namespace Sys2Proof.Machine

/-! ## STATUS as a word -/

theorem statusWord_raised (e : ErrCode) : statusWord (statusRaised e) = 0x100#32 + e.code.setWidth 32 := by
  cases e <;> decide

/-- The flags of `complete` as bits of STATUS. -/
def flagBits (found na cookieOk : Bool) : Word :=
  (if found then flagFound else 0#32) ||| (if na then flagNa else 0#32) ||| (if cookieOk then flagCookieOk else 0#32)

theorem statusWord_and_sticky (st : Status) :
    statusWord st &&& 0x100#32 = if st.sticky then 0x100#32 else 0#32 := by
  obtain ⟨e, f, n, c, y⟩ := st
  revert e f n c y
  decide

theorem statusWord_complete (f n c : Bool) (st : Status) :
    statusWord (statusComplete f n c st) = (statusWord st &&& 0x100#32) ||| flagBits f n c := by
  rw [statusWord_and_sticky]
  cases f <;> cases n <;> cases c <;> cases h : st.sticky <;> simp only [statusComplete, h] <;> decide

/-- Two STATUS values that read the same are the same. -/
theorem statusWord_injective {a b : Status} (h : statusWord a = statusWord b) : a = b := by
  have key : ∀ st : Status, st = ⟨(statusWord st).extractLsb' 0 4, (statusWord st).getLsbD 4,
      (statusWord st).getLsbD 5, (statusWord st).getLsbD 6, (statusWord st).getLsbD 8⟩ := by
    rintro ⟨e, f, n, c, y⟩
    revert e f n c y
    decide
  rw [key a, key b, h]

/-! ## settle, raise, complete -/

@[simp] theorem settle_ok (s t : State) : settle s (.ok t) = .next t := rfl
@[simp] theorem settle_error (s : State) (e : ErrCode) : settle s (.error e) = .next (raise e s) := rfl

/-- Everything `settle` can answer: a next state, which is the staged one or the raise of the error. -/
theorem settle_next (s : State) (r : Except ErrCode State) :
    ∃ t, settle s r = .next t ∧ (r = .ok t ∨ ∃ e, r = .error e ∧ t = raise e s) := by
  cases r with
  | ok t => exact ⟨t, rfl, .inl rfl⟩
  | error e => exact ⟨raise e s, rfl, .inr ⟨e, rfl, rfl⟩⟩

/-- `raise` does what R203 says of it. -/
theorem raised_raise (e : ErrCode) (s : State) : Raised e s (raise e s) := by
  refine ⟨statusWord_raised e, ?_, fun a => rfl, fun i => rfl, rfl, rfl, rfl, rfl⟩
  intro r hr
  cases r <;> first | rfl | simp at hr

/-- A settled error is raised. -/
theorem settle_raises {s : State} {r : Except ErrCode State} {e : ErrCode} (h : r = .error e) :
    ∃ t, settle s r = .next t ∧ Raised e s t := ⟨_, by rw [h]; rfl, raised_raise e s⟩

/-- `complete` does what R204 says of STATUS, on any staged state that has not touched it. -/
theorem completedWith_complete {s t : State} (h : t.status = s.status) (f n c : Bool) :
    CompletedWith (flagBits f n c) s (complete f n c t) := by
  simp only [CompletedWith, regRead, complete_status, h, statusWord_complete]

/-- `complete` writes STATUS only. -/
theorem regRead_complete {r : RegName} (h : r ≠ .STATUS) (f n c : Bool) (s : State) :
    regRead r (complete f n c s) = regRead r s := by
  cases r <;> first | rfl | exact absurd rfl h

@[simp] theorem byteAt_complete (f n c : Bool) (s : State) (a : Nat) : byteAt (complete f n c s) a = byteAt s a := rfl
@[simp] theorem atabAt_complete (f n c : Bool) (s : State) (i : Nat) : atabAt (complete f n c s) i = atabAt s i := rfl

/-! ## Frames of the named updates -/

theorem regRead_setHdrRegs {r : RegName} (h : r ∉ headerRegs) (x : Header) (s : State) :
    regRead r (setHdrRegs x s) = regRead r s := by
  cases r <;> first | rfl | simp [headerRegs] at h

theorem regRead_setAttrRegs {r : RegName} (h : r ∉ attrRegs) (t n v : Half) (s : State) :
    regRead r (setAttrRegs t n v s) = regRead r s := by
  cases r <;> first | rfl | simp [attrRegs] at h

theorem regRead_setXmaRegs {r : RegName} (h : r ∉ addressRegs) (x : XorMappedAddr) (s : State) :
    regRead r (setXmaRegs x s) = regRead r s := by
  cases r <;> first | rfl | simp [addressRegs] at h

theorem regRead_setAtab {r : RegName} (h : r ≠ .ACOUNT) (es : List AtabEntry) (s : State) :
    regRead r (setAtab es s) = regRead r s := by
  cases r <;> first | rfl | exact absurd rfl h

theorem regRead_memWrite (r : RegName) (a : Nat) (bs : Bytes) (s : State) :
    regRead r (memWrite a bs s) = regRead r s := by
  cases r <;> rfl

theorem regRead_setOlen {r : RegName} (h : r ≠ .OLEN) (n : Half) (s : State) :
    regRead r (setOlen n s) = regRead r s := by
  cases r <;> first | rfl | exact absurd rfl h

theorem regRead_setVlen {r : RegName} (h : r ≠ .VLEN) (n : Half) (s : State) :
    regRead r (setVlen n s) = regRead r s := by
  cases r <;> first | rfl | exact absurd rfl h

theorem regRead_setAplen {r : RegName} (h : r ≠ .APLEN) (n : BitVec 17) (s : State) :
    regRead r (setAplen n s) = regRead r s := by
  cases r <;> first | rfl | exact absurd rfl h

theorem regRead_setHlen {r : RegName} (h : r ≠ .HLEN) (n : Half) (s : State) :
    regRead r (setHlen n s) = regRead r s := by
  cases r <;> first | rfl | exact absurd rfl h

@[simp] theorem byteAt_setOlen (n : Half) (s : State) (a : Nat) : byteAt (setOlen n s) a = byteAt s a := rfl
@[simp] theorem byteAt_setVlen (n : Half) (s : State) (a : Nat) : byteAt (setVlen n s) a = byteAt s a := rfl
@[simp] theorem byteAt_setAplen (n : BitVec 17) (s : State) (a : Nat) : byteAt (setAplen n s) a = byteAt s a := rfl
@[simp] theorem byteAt_setHlen (n : Half) (s : State) (a : Nat) : byteAt (setHlen n s) a = byteAt s a := rfl

@[simp] theorem byteAt_setHdrRegs (x : Header) (s : State) (a : Nat) : byteAt (setHdrRegs x s) a = byteAt s a := rfl
@[simp] theorem byteAt_setAttrRegs (t n v : Half) (s : State) (a : Nat) : byteAt (setAttrRegs t n v s) a = byteAt s a := rfl
@[simp] theorem byteAt_setXmaRegs (x : XorMappedAddr) (s : State) (a : Nat) : byteAt (setXmaRegs x s) a = byteAt s a := rfl
@[simp] theorem byteAt_setAtab (es : List AtabEntry) (s : State) (a : Nat) : byteAt (setAtab es s) a = byteAt s a := rfl

@[simp] theorem byteAt_raise (e : ErrCode) (s : State) (a : Nat) : byteAt (raise e s) a = byteAt s a := rfl
@[simp] theorem atabAt_raise (e : ErrCode) (s : State) (i : Nat) : atabAt (raise e s) i = atabAt s i := rfl
@[simp] theorem atabAt_setHdrRegs (x : Header) (s : State) (i : Nat) : atabAt (setHdrRegs x s) i = atabAt s i := rfl
@[simp] theorem atabAt_setAttrRegs (t n v : Half) (s : State) (i : Nat) :
    atabAt (setAttrRegs t n v s) i = atabAt s i := rfl
@[simp] theorem atabAt_setXmaRegs (x : XorMappedAddr) (s : State) (i : Nat) :
    atabAt (setXmaRegs x s) i = atabAt s i := rfl
@[simp] theorem atabAt_memWrite (x : Nat) (bs : Bytes) (s : State) (i : Nat) :
    atabAt (memWrite x bs s) i = atabAt s i := rfl
@[simp] theorem atabAt_setOlen (n : Half) (s : State) (i : Nat) : atabAt (setOlen n s) i = atabAt s i := rfl
@[simp] theorem atabAt_setVlen (n : Half) (s : State) (i : Nat) : atabAt (setVlen n s) i = atabAt s i := rfl
@[simp] theorem atabAt_setAplen (n : BitVec 17) (s : State) (i : Nat) : atabAt (setAplen n s) i = atabAt s i := rfl
@[simp] theorem atabAt_setHlen (n : Half) (s : State) (i : Nat) : atabAt (setHlen n s) i = atabAt s i := rfl

/-! ## The register window -/

theorem regAtOffset_offset (r : RegName) : regAtOffset r.offset = some r := by cases r <;> decide

/-- A register is found at an offset exactly when the offset is its own (R61). -/
theorem regAtOffset_eq_some {a : Nat} {r : RegName} : regAtOffset a = some r ↔ a = r.offset := by
  constructor
  · intro h
    have := List.find?_some h
    simpa [eq_comm] using this
  · rintro rfl; exact regAtOffset_offset r

theorem regAtOffset_eq_none {a : Nat} : regAtOffset a = none ↔ ∀ r : RegName, a ≠ r.offset := by
  constructor
  · intro h r hr; rw [hr, regAtOffset_offset] at h; simp at h
  · intro h
    cases hr : regAtOffset a with
    | none => rfl
    | some r => exact absurd (regAtOffset_eq_some.1 hr) (h r)

/-- Everything `blockAddr` can answer (R60). -/
theorem blockAddr_base_add {c : Config} {a : Nat} (h : a < 0x10000) : blockAddr c (c.hostBase + a) = some a := by
  unfold blockAddr; rw [if_pos (by omega)]; congr 1; omega

theorem blockAddr_eq_none {c : Config} {h : Nat} :
    blockAddr c h = none ↔ h < c.hostBase ∨ c.hostBase + 0x10000 ≤ h := by
  unfold blockAddr; split <;> simp <;> omega

theorem locate_reg (c : Config) (r : RegName) : locate c r.offset 32 = some (.reg r) := by
  simp [locate, regAtOffset_offset]

theorem locate_byte {c : Config} {a : Nat} (h : mappedByte c a = true) : locate c a 8 = some (.byte a) := by
  simp [locate, h]

theorem mappedByte_buf {c : Config} {b : Buf} {k : Nat} (h : k < b.size c) : mappedByte c (b.base + k) = true := by
  have : inBuf c b (b.base + k) = true := by simp [inBuf, h]
  cases b <;> simp [mappedByte, this]

/-- Everything `locate` can answer (R61 to R63). -/
theorem locate_cases (c : Config) (a width : Nat) :
    (∃ r : RegName, width = 32 ∧ a = r.offset ∧ locate c a width = some (.reg r)) ∨
    (width = 8 ∧ mappedByte c a = true ∧ locate c a width = some (.byte a)) ∨
    (¬(width = 32 ∧ ∃ r : RegName, a = r.offset) ∧ ¬(width = 8 ∧ mappedByte c a = true) ∧ locate c a width = none) := by
  by_cases h32 : width = 32
  · subst h32
    cases hr : regAtOffset a with
    | some r => exact .inl ⟨r, rfl, regAtOffset_eq_some.1 hr, by simp [locate, hr]⟩
    | none =>
      refine .inr (.inr ⟨?_, by simp, by simp [locate, hr]⟩)
      rintro ⟨_, r, h⟩; exact regAtOffset_eq_none.1 hr r h
  · by_cases h8 : width = 8 ∧ mappedByte c a = true
    · obtain ⟨rfl, h⟩ := h8; exact .inr (.inl ⟨rfl, h, locate_byte h⟩)
    · refine .inr (.inr ⟨fun h => h32 h.1, h8, ?_⟩)
      unfold locate; rw [if_neg h32]; split
      · rw [if_neg]; tauto
      · rfl

/-- The block addresses R60 maps to buffer bytes. -/
theorem mappedByte_iff (c : Config) (a : Nat) : mappedByte c a = true ↔
    (0x1000 ≤ a ∧ a < 0x1000 + c.bufBytes) ∨ (0x2000 ≤ a ∧ a < 0x2000 + c.bufBytes) ∨
      (0x3000 ≤ a ∧ a < 0x3000 + c.vbufBytes) := by
  simp only [mappedByte, inBuf, Bool.or_eq_true, Bool.and_eq_true, decide_eq_true_eq, or_assoc]
  rfl

theorem toNat_setWidth_32 {n : Nat} (v : BitVec n) (h : n ≤ 32) : (v.setWidth 32).toNat = v.toNat := by
  rw [BitVec.toNat_setWidth]
  exact Nat.mod_eq_of_lt (Nat.lt_of_lt_of_le v.isLt (Nat.pow_le_pow_right (by decide) h))

/-! ## Registers as numbers -/

@[simp] theorem regNat_ILEN (s : State) : regNat .ILEN s = s.ilen.toNat :=
  toNat_setWidth_32 s.ilen (by decide)
@[simp] theorem regNat_AOFF (s : State) : regNat .AOFF s = s.aoff.toNat :=
  toNat_setWidth_32 s.aoff (by decide)
@[simp] theorem regNat_TOTLEN (s : State) : regNat .TOTLEN s = s.totlen.toNat :=
  toNat_setWidth_32 s.totlen (by decide)
@[simp] theorem regNat_ACOUNT (s : State) : regNat .ACOUNT s = s.acount.toNat :=
  toNat_setWidth_32 s.acount (by decide)
@[simp] theorem regNat_HTYPE (s : State) : regNat .HTYPE s = s.htype.toNat :=
  toNat_setWidth_32 s.htype (by decide)
@[simp] theorem regNat_HLEN (s : State) : regNat .HLEN s = s.hlen.toNat :=
  toNat_setWidth_32 s.hlen (by decide)
@[simp] theorem regNat_HCOOKIE (s : State) : regNat .HCOOKIE s = s.hcookie.toNat := rfl
@[simp] theorem regNat_TXID0 (s : State) : regNat .TXID0 s = s.txid0.toNat := rfl
@[simp] theorem regNat_TXID1 (s : State) : regNat .TXID1 s = s.txid1.toNat := rfl
@[simp] theorem regNat_TXID2 (s : State) : regNat .TXID2 s = s.txid2.toNat := rfl
@[simp] theorem regNat_ATYPE (s : State) : regNat .ATYPE s = s.atype.toNat :=
  toNat_setWidth_32 s.atype (by decide)
@[simp] theorem regNat_ADLEN (s : State) : regNat .ADLEN s = s.adlen.toNat :=
  toNat_setWidth_32 s.adlen (by decide)
@[simp] theorem regNat_APLEN (s : State) : regNat .APLEN s = s.aplen.toNat :=
  toNat_setWidth_32 s.aplen (by decide)
@[simp] theorem regNat_AVOFF (s : State) : regNat .AVOFF s = s.avoff.toNat :=
  toNat_setWidth_32 s.avoff (by decide)
@[simp] theorem regNat_VLEN (s : State) : regNat .VLEN s = s.vlen.toNat :=
  toNat_setWidth_32 s.vlen (by decide)
@[simp] theorem regNat_OLEN (s : State) : regNat .OLEN s = s.olen.toNat :=
  toNat_setWidth_32 s.olen (by decide)
@[simp] theorem regNat_XFAM (s : State) : regNat .XFAM s = s.xfam.toNat :=
  toNat_setWidth_32 s.xfam (by decide)
@[simp] theorem regNat_XADDR (s : State) : regNat .XADDR s = s.xaddr.toNat := rfl
@[simp] theorem regNat_XPORT (s : State) : regNat .XPORT s = s.xport.toNat :=
  toNat_setWidth_32 s.xport (by decide)

/-! ## Bytes of the buffers as numbers -/

theorem beVal_two (a b : Byte) : beVal [a, b] = (be16 a b).toNat := by simp [beVal, be16_toNat]
theorem beVal_four (a b c d : Byte) : beVal [a, b, c, d] = (be32 a b c d).toNat := by simp [beVal, be32_toNat]

theorem ibufBytes_two (s : State) (off : Nat) : ibufBytes s off 2 = [ibuf s off, ibuf s (off + 1)] := rfl
theorem ibufBytes_four (s : State) (off : Nat) :
    ibufBytes s off 4 = [ibuf s off, ibuf s (off + 1), ibuf s (off + 2), ibuf s (off + 3)] := rfl

@[simp] theorem received_length (s : State) : (received s).length = s.ilen.toNat := by simp [received]

/-- The received bytes are those of IBUF (R24). -/
theorem nth_received {s : State} {k : Nat} (h : k < s.ilen.toNat) : nth (received s) k = ibuf s k :=
  nth_memRead s h

@[simp] theorem attrWindow_length (s : State) : (attrWindow s).length = s.ilen.toNat - s.aoff.toNat := by
  unfold attrWindow; split
  · simp
  · simp; omega

/-- The attribute window starts at AOFF (R132). -/
theorem nth_attrWindow {s : State} {k : Nat} (h : s.aoff.toNat + k < s.ilen.toNat) :
    nth (attrWindow s) k = ibuf s (s.aoff.toNat + k) := by
  rw [attrWindow, if_pos (by omega), nth_memRead s (by omega), ibuf, Nat.add_assoc]; rfl

@[simp] theorem stagedValue_length (s : State) : (stagedValue s).length = s.vlen.toNat := by simp [stagedValue]

/-! ## step -/

/-- A step is the next event, performed on the state it has left the bus of. -/
theorem step_cons {s : State} {e : Event} {rest : List Event} (h : s.bus = e :: rest) :
    step s = performEvent e { s with bus := rest } := by simp [step, performNext, h]

theorem step_nil {s : State} (h : s.bus = []) : step s = .next s := by simp [step, performNext, h]

end Sys2Proof.Machine
end

