-- ==== Sys2Proof/Laws/Decode.lean ====
section
/-! SUPPORT. The fields of a command word, and what the decoder can answer. -/

namespace Sys2Proof

theorem encode_toNat (i : Instr) : (encode i).toNat = i.imm.toNat * 65536 + i.opc.toNat := by
  have := i.opc.isLt
  simp only [encode, BitVec.toNat_append]
  rw [← Nat.shiftLeft_add_eq_or_of_lt (by simp; omega)]
  simp [Nat.shiftLeft_eq]

theorem opcOf_toNat (w : Word) : (opcOf w).toNat = w.toNat % 256 := by simp [opcOf]
theorem rsvOf_toNat (w : Word) : (rsvOf w).toNat = w.toNat / 256 % 256 := by
  simp [rsvOf, Nat.shiftRight_eq_div_pow]
theorem immOf_toNat (w : Word) : (immOf w).toNat = w.toNat / 65536 % 65536 := by
  simp [immOf, Nat.shiftRight_eq_div_pow]

@[simp] theorem opcOf_encode (i : Instr) : opcOf (encode i) = i.opc := by
  have := i.opc.isLt
  apply BitVec.eq_of_toNat_eq; rw [opcOf_toNat, encode_toNat]; omega
@[simp] theorem rsvOf_encode (i : Instr) : rsvOf (encode i) = 0 := by
  have := i.opc.isLt
  apply BitVec.eq_of_toNat_eq; rw [rsvOf_toNat, encode_toNat]; simp; omega
@[simp] theorem immOf_encode (i : Instr) : immOf (encode i) = i.imm := by
  have := i.opc.isLt
  have := i.imm.isLt
  apply BitVec.eq_of_toNat_eq; rw [immOf_toNat, encode_toNat]; omega

/-- The three fields of a command word determine it (R80). -/
theorem word_eq_of_fields {v w : Word} (h1 : opcOf v = opcOf w) (h2 : rsvOf v = rsvOf w) (h3 : immOf v = immOf w) :
    v = w := by
  have a := congrArg BitVec.toNat h1
  have b := congrArg BitVec.toNat h2
  have c := congrArg BitVec.toNat h3
  have := v.isLt
  have := w.isLt
  rw [opcOf_toNat, opcOf_toNat] at a
  rw [rsvOf_toNat, rsvOf_toNat] at b
  rw [immOf_toNat, immOf_toNat] at c
  exact BitVec.eq_of_toNat_eq (by omega)

theorem withoutImm_ok {imm : Half} {i j : Instr} (h : withoutImm imm i = .ok j) : imm = 0 ∧ j = i := by
  unfold withoutImm at h; split at h <;> simp_all

theorem decodeOpc_ok {n : Nat} {imm : Half} {i : Instr} (h : decodeOpc n imm = .ok i) :
    n = i.opc.toNat ∧ imm = i.imm := by
  unfold decodeOpc at h
  split at h <;> first
    | (obtain ⟨h1, h2⟩ := withoutImm_ok h; subst h2; subst h1; exact ⟨rfl, rfl⟩)
    | (injection h with h; subst h; exact ⟨rfl, rfl⟩)
    | simp at h

/-- What a decoded word holds: the command's opcode, RSV = 0, and its immediate (R80, R82). -/
theorem decode_ok {w : Word} {i : Instr} (h : decode w = .ok i) :
    opcOf w = i.opc ∧ rsvOf w = 0 ∧ immOf w = i.imm := by
  unfold decode at h
  split at h
  · rename_i hr
    obtain ⟨a, b⟩ := decodeOpc_ok h
    exact ⟨BitVec.eq_of_toNat_eq a, hr, b⟩
  · simp at h

end Sys2Proof
end

