-- ==== Sys2Proof/Laws/Bus.lean ====
section
/-! SUPPORT. What a step does for each kind of event that the block accepts, refuses or never sees. -/

namespace Sys2Proof.Machine

theorem offset_lt (r : RegName) : r.offset < 0x10000 := by cases r <;> decide

theorem base_add_lt {c : Config} (h : c.Legal) {b : Buf} {k : Nat} (hk : k < b.size c) : b.base + k < 0x10000 := by
  obtain ⟨⟨_, h1⟩, ⟨_, h2⟩, _⟩ := h
  cases b <;> simp [Buf.size, Buf.base, ibufBase, obufBase, vbufBase] at * <;> omega

/-- A read the block accepts. -/
theorem performAccess_read {s : State} {h a width : Nat} {l : Loc} (hh : h = s.cfg.hostBase + a) (ha : a < 0x10000)
    (hl : locate s.cfg a width = some l) : performAccess (.read h width) s = hostRead l s := by
  simp [performAccess, Access.place, hh, blockAddr_base_add ha, hl]

/-- A write the block accepts. -/
theorem performAccess_write {s : State} {h a width d : Nat} {l : Loc} (hh : h = s.cfg.hostBase + a) (ha : a < 0x10000)
    (hl : locate s.cfg a width = some l) : performAccess (.write h width d) s = hostWrite l d s := by
  simp [performAccess, Access.place, hh, blockAddr_base_add ha, hl]

/-- An access the block refuses (R63). -/
theorem performAccess_refused {s : State} {acc : Access} {a width : Nat} (hp : acc.place = (s.cfg.hostBase + a, width))
    (ha : a < 0x10000) (hl : locate s.cfg a width = none) : performAccess acc s = .fault (.busError acc) := by
  simp [performAccess, hp, blockAddr_base_add ha, hl]

/-- An access that does not reach the block. -/
theorem performAccess_outside {s : State} {acc : Access}
    (h : acc.place.1 < s.cfg.hostBase ∨ s.cfg.hostBase + 0x10000 ≤ acc.place.1) :
    performAccess acc s = .fault (.outsideWindow acc) := by
  simp [performAccess, blockAddr_eq_none.2 h]

/-- A step whose event is a read the block accepts. -/
theorem step_read {s : State} {rest : List Event} {h a width : Nat} {l : Loc}
    (hb : s.bus = .access (.read h width) :: rest) (hh : h = s.cfg.hostBase + a) (ha : a < 0x10000)
    (hl : locate s.cfg a width = some l) : step s = hostRead l { s with bus := rest } := by
  rw [step_cons hb]
  exact performAccess_read (s := { s with bus := rest }) hh ha hl

/-- A step whose event is a write the block accepts. -/
theorem step_write {s : State} {rest : List Event} {h a width d : Nat} {l : Loc}
    (hb : s.bus = .access (.write h width d) :: rest) (hh : h = s.cfg.hostBase + a) (ha : a < 0x10000)
    (hl : locate s.cfg a width = some l) : step s = hostWrite l d { s with bus := rest } := by
  rw [step_cons hb]
  exact performAccess_write (s := { s with bus := rest }) hh ha hl

/-- A step whose event is an access the block refuses. -/
theorem step_refused {s : State} {rest : List Event} {acc : Access} {a width : Nat} (hb : s.bus = .access acc :: rest)
    (hp : acc.place = (s.cfg.hostBase + a, width)) (ha : a < 0x10000) (hl : locate s.cfg a width = none) :
    step s = .fault (.busError acc) := by
  rw [step_cons hb]
  exact performAccess_refused (s := { s with bus := rest }) hp ha hl

/-- A step whose event is a write to CMD. -/
theorem step_cmdWrite {s : State} {rest : List Event} {d : Nat} (h : s.bus = cmdWrite s.cfg d :: rest) :
    step s = runCommand (BitVec.ofNat 32 d) { s with bus := rest, resp := .written } := by
  exact step_write h rfl (by decide) (locate_reg _ .CMD)

/-- A host write to a register other than CMD stores what `regWrite` says. -/
theorem hostWrite_reg {r : RegName} (h : r ≠ .CMD) (d : Nat) (s : State) :
    hostWrite (.reg r) d s = .next { regWrite r (BitVec.ofNat 32 d) s with resp := .written } := by
  cases r <;> first | rfl | exact absurd rfl h

theorem clampTo_toNat (cap : Nat) (w : Word) : (clampTo cap w).toNat = min (w.toNat % 65536) cap := by
  have := Nat.mod_lt w.toNat (show 65536 > 0 by decide)
  simp only [clampTo, BitVec.toNat_setWidth, BitVec.toNat_ofNat]
  rw [Nat.mod_eq_of_lt]; omega

theorem statusWord_written (w : Word) (st : Status) :
    statusWord (statusWritten w st) =
      if w.getLsbD 8 then statusWord st &&& ~~~0x100#32 else statusWord st := by
  unfold statusWritten
  split
  · obtain ⟨e, f, n, c, y⟩ := st
    revert e f n c y
    decide
  · rfl

/-- A host write changes no register but the one written. -/
theorem regRead_regWrite_other {p r : RegName} (h : p ≠ r) (w : Word) (s : State) :
    regRead p (regWrite r w s) = regRead p s := by
  cases r <;> cases p <;> first | rfl | exact absurd rfl h

theorem byteAt_regWrite (r : RegName) (w : Word) (s : State) (a : Nat) :
    byteAt (regWrite r w s) a = byteAt s a := by cases r <;> rfl

theorem atabAt_regWrite (r : RegName) (w : Word) (s : State) (i : Nat) :
    atabAt (regWrite r w s) i = atabAt s i := by cases r <;> rfl

end Sys2Proof.Machine
end

