-- ==== Sys2Proof/Laws/Exec.lean ====
section
/-! SUPPORT. What every command has in common: it answers a next state, and leaves CMD and the model's own fields alone. -/

namespace Sys2Proof.Machine

/-- The meanings of all commands, for unfolding `exec` once. -/
theorem exec_settles (i : Instr) (s : State) : ∃ r, exec i s = settle s r ∧
    ∀ t, r = .ok t → t.cmd = s.cmd ∧ SameModelFields s t ∧ t.status.err = 0 ∧ t.status.sticky = s.status.sticky := by
  cases i <;>
    simp only [exec, execHdrDecode, execHdrEncode, execPadLen, execAttrDecode, execAttrEncode, execAttrDecodeAll,
      execAttrGet, execXmaSerialize, execXmaDeserialize, execMsgDecode, execMsgEncode, execFindAttr,
      execExtractXma] <;>
    refine ⟨_, rfl, fun t h => ?_⟩ <;>
    (repeat' split at h) <;>
    first
      | (simp at h; done)
      | (injection h with h; subst h; simp [SameModelFields, loadEntry, withComputedLength, statusComplete])

/-- Every command answers a next state, in which CMD and the model's own fields are as before. -/
theorem exec_next (i : Instr) (s : State) : ∃ t, exec i s = .next t ∧ t.cmd = s.cmd ∧ SameModelFields s t := by
  obtain ⟨r, hr, h⟩ := exec_settles i s
  obtain ⟨t, ht, hk | ⟨e, _, rfl⟩⟩ := settle_next s r
  · exact ⟨t, hr.trans ht, (h t hk).1, (h t hk).2.1⟩
  · exact ⟨_, hr.trans ht, rfl, rfl, rfl, rfl, rfl⟩

end Sys2Proof.Machine
end

