-- ==== Sys2Proof/Laws/Codec.lean ====
section
/-! SUPPORT. What the codec's functions answer: one lemma each, so that callers need not unfold them. -/

namespace Sys2Proof.Machine

theorem hdrDecode_short {b : Bytes} (h : b.length < 20) : hdrDecode b = .error .shortBuffer := by
  simp [hdrDecode, hdrBytes, h]

theorem hdrDecode_ok {b : Bytes} (h : 20 ≤ b.length) : hdrDecode b = .ok
    { type := be16 (nth b 0) (nth b 1), length := be16 (nth b 2) (nth b 3),
      cookie := be32 (nth b 4) (nth b 5) (nth b 6) (nth b 7), txid := slice b 8 20 } := by
  rw [hdrDecode, if_neg]; exact Nat.not_lt.2 h

theorem hdrEncode_length {h : Header} (hv : h.Valid) : (hdrEncode h).length = 20 := by
  simp [hdrEncode, show h.txid.length = 12 from hv]

theorem hdrRegs_valid (s : State) : (hdrRegs s).Valid := rfl

theorem attrDecode_short {b : Bytes} (h : b.length < 4 ∨ b.length < 4 + pad4 (be16 (nth b 2) (nth b 3)).toNat) :
    attrDecode b = .error .shortBuffer := by
  unfold attrDecode attrPrefixBytes; split
  · rfl
  · simp only; rw [if_pos (by omega)]

theorem attrDecode_ok {b : Bytes} (h : 4 + pad4 (be16 (nth b 2) (nth b 3)).toNat ≤ b.length) :
    attrDecode b = .ok ⟨be16 (nth b 0) (nth b 1), be16 (nth b 2) (nth b 3),
      pad4 (be16 (nth b 2) (nth b 3)).toNat, slice b 4 (4 + pad4 (be16 (nth b 2) (nth b 3)).toNat)⟩ := by
  unfold attrDecode attrPrefixBytes; rw [if_neg (by omega)]; simp only; rw [if_neg (by omega)]

/-- An attribute decodes only in one way, and is valid (R122). -/
theorem attrDecode_valid {b : Bytes} {a : Attr} (h : attrDecode b = .ok a) :
    attrValid a ∧ 4 + a.plen ≤ b.length ∧ a.type = be16 (nth b 0) (nth b 1) ∧ a.dlen = be16 (nth b 2) (nth b 3) ∧
      a.value = slice b 4 (4 + a.plen) := by
  by_cases hl : 4 + pad4 (be16 (nth b 2) (nth b 3)).toNat ≤ b.length
  · rw [attrDecode_ok hl] at h
    injection h with h
    subst h
    exact ⟨⟨rfl, by simp; omega⟩, hl, rfl, rfl, rfl⟩
  · rw [attrDecode_short (.inr (by omega))] at h; simp at h

theorem attrEncode_ok {a : Attr} (h : a.value.length = pad4 a.dlen.toNat) :
    attrEncode a = .ok (tobe16 a.type ++ tobe16 a.dlen ++ a.value) := by
  unfold attrEncode; rw [if_neg (by omega)]

theorem attrEncode_mismatch {a : Attr} (h : a.value.length ≠ pad4 a.dlen.toNat) :
    attrEncode a = .error .lengthMismatch := by
  unfold attrEncode; rw [if_pos h]

/-- An attribute's encoding is `4 + pad4(dlen)` bytes (R86). -/
theorem attrEncode_length {a : Attr} {e : Bytes} (h : attrEncode a = .ok e) : e.length = 4 + pad4 a.dlen.toNat := by
  by_cases hl : a.value.length = pad4 a.dlen.toNat
  · rw [attrEncode_ok hl] at h; injection h with h; subst h; simp [hl]; omega
  · rw [attrEncode_mismatch hl] at h; simp at h

/-- With enough rounds left, the loop of `attr_decode_all` answers as R125's while loop does: at the end it stops, and
before the end it decodes one attribute and goes on after it. -/
theorem attrDecodeFrom_end {b : Bytes} {total cur : Nat} (fuel : Nat) (h : total ≤ cur) :
    attrDecodeFrom b total fuel cur = .ok [] := by
  cases fuel <;> simp [attrDecodeFrom, Nat.not_lt.2 h]

theorem attrDecodeFrom_succ {b : Bytes} {total cur : Nat} (fuel : Nat) (h : cur < total) :
    attrDecodeFrom b total (fuel + 1) cur =
      match attrDecode (slice b cur total) with
      | .error e => .error e
      | .ok a =>
        match attrDecodeFrom b total fuel (cur + 4 + a.plen) with
        | .error e => .error e
        | .ok as => .ok (a :: as) := by
  cases hx : attrDecode (slice b cur total) with
  | error e => simp [attrDecodeFrom, h, hx]
  | ok a => cases hy : attrDecodeFrom b total fuel (cur + 4 + a.plen) <;> simp [attrDecodeFrom, h, hx, hy]

/-- Only ShortBuffer comes out of `attr_decode_all` (R125). -/
theorem attrDecodeFrom_error {b : Bytes} {total : Nat} : ∀ {fuel cur : Nat} {e : ErrCode},
    attrDecodeFrom b total fuel cur = .error e → e = .shortBuffer := by
  intro fuel
  induction fuel with
  | zero => intro cur e h; unfold attrDecodeFrom at h; split at h <;> simp_all
  | succ n ih =>
    intro cur e h
    by_cases hc : cur < total
    · rw [attrDecodeFrom_succ n hc] at h
      split at h
      · rename_i x hx
        injection h with h; subst h
        unfold attrDecode at hx
        split at hx
        · simp_all
        · simp only at hx; split at hx <;> simp_all
      · split at h
        · rename_i hx; injection h with h; subst h; exact ih hx
        · simp at h
    · rw [attrDecodeFrom_end _ (by omega)] at h; simp at h

theorem attrDecodeAll_error {b : Bytes} {total : Nat} {e : ErrCode} (h : attrDecodeAll b total = .error e) :
    e = .shortBuffer := by
  unfold attrDecodeAll at h; split at h
  · simp_all
  · exact attrDecodeFrom_error h

/-- The bytes of a sequence, from index `cur` to `total` exactly, are the attributes `as` one after the other. -/
def AttrsIn (b : Bytes) (total cur : Nat) : List Attr → Prop
  | []      => cur = total
  | a :: as => attrDecode (slice b cur total) = .ok a ∧ AttrsIn b total (cur + 4 + a.plen) as

/-- Everything the loop of `attr_decode_all` can answer with a list (R125): the list is the one that lies in the bytes
from the cursor to `total`, and each such list is answered, whatever the number of rounds left, if it suffices. -/
theorem attrDecodeFrom_ok {b : Bytes} {total : Nat} : ∀ {fuel cur : Nat} {as : List Attr}, cur ≤ total →
    total ≤ b.length → total ≤ cur + fuel → (attrDecodeFrom b total fuel cur = .ok as ↔ AttrsIn b total cur as) := by
  intro fuel
  induction fuel with
  | zero =>
    intro cur as h1 h2 h3
    have : cur = total := by omega
    subst this
    rw [attrDecodeFrom_end _ (le_refl _)]
    cases as with
    | nil => simp [AttrsIn]
    | cons a as =>
      refine ⟨fun h => by simp at h, fun h => ?_⟩
      have := (attrDecode_valid h.1).2.1
      simp at this
  | succ n ih =>
    intro cur as h1 h2 h3
    by_cases hc : cur < total
    · rw [attrDecodeFrom_succ n hc]
      cases as with
      | nil =>
        refine ⟨fun h => ?_, fun h => by have : cur = total := h; omega⟩
        split at h
        · simp at h
        · split at h <;> simp at h
      | cons a as =>
        constructor
        · intro h
          split at h
          · simp at h
          · rename_i a' ha
            split at h
            · simp at h
            · rename_i as' has
              injection h with h
              injection h with e1 e2
              subst e1; subst e2
              have := (attrDecode_valid ha).2.1
              simp at this
              exact ⟨ha, (ih (by omega) h2 (by omega)).1 has⟩
        · rintro ⟨ha, has⟩
          have := (attrDecode_valid ha).2.1
          simp at this
          rw [ha]; simp only
          rw [(ih (by omega) h2 (by omega)).2 has]
    · have : cur = total := by omega
      subst this
      rw [attrDecodeFrom_end _ (le_refl _)]
      cases as with
      | nil => simp [AttrsIn]
      | cons a as =>
        refine ⟨fun h => by simp at h, fun h => ?_⟩
        have := (attrDecode_valid h.1).2.1
        simp at this

/-- Everything `attr_decode_all` can answer with a list (R125). -/
theorem attrDecodeAll_ok {b : Bytes} {total : Nat} {as : List Attr} :
    attrDecodeAll b total = .ok as ↔ total ≤ b.length ∧ AttrsIn b total 0 as := by
  unfold attrDecodeAll
  by_cases h : b.length < total
  · rw [if_pos h]; simp; omega
  · rw [if_neg h, attrDecodeFrom_ok (by omega) (by omega) (by omega)]
    exact ⟨fun h' => ⟨by omega, h'⟩, fun h' => h'.2⟩

/-- The bytes of IBUF from an offset on, read as a sequence, hold the attributes that `AttrsAt` describes, and only
those; their table entries are the ones it names (R125, R130). -/
theorem attrsAt_of_attrsIn {s : State} {b : Bytes} {base total : Nat} (hb : ∀ k, k < total → nth b k = ibuf s (base + k))
    (ht : total ≤ b.length) (hw : base + total < 65536) : ∀ {as : List Attr} {cur : Nat},
    AttrsIn b total cur as → AttrsAt s (base + cur) (base + total) (tableEntries (base + cur) as) := by
  intro as
  induction as with
  | nil => intro cur h; exact congrArg (base + ·) h
  | cons a as ih =>
    rintro cur ⟨ha, has⟩
    obtain ⟨hv, hl, h1, h2, -⟩ := attrDecode_valid ha
    simp only [slice_length] at hl
    have hn : ∀ k, k < 4 → nth (slice b cur total) k = ibuf s (base + cur + k) := by
      intro k hk; rw [nth_slice (by omega), hb _ (by omega), Nat.add_assoc]
    rw [hn 0 (by omega), hn 1 (by omega)] at h1
    rw [hn 2 (by omega), hn 3 (by omega)] at h2
    have hp : padded a.dlen.toNat = a.plen := by rw [hv.1, pad4_eq_padded]
    refine ⟨?_, ?_, ?_, ?_, ?_⟩
    · simp [h1, ibufBytes_two, beVal_two]
    · simp [h2, ibufBytes_two, beVal_two, Nat.add_assoc]
    · simp; omega
    · simp only [hp]; omega
    · have := ih has
      simp only [hp]
      rw [show base + (cur + 4 + a.plen) = base + cur + 4 + a.plen by omega] at this
      exact this

theorem attrsIn_of_attrsAt {s : State} {b : Bytes} {base total : Nat} (hb : ∀ k, k < total → nth b k = ibuf s (base + k))
    (ht : total ≤ b.length) : ∀ {es : List AtabEntry} {cur : Nat}, AttrsAt s (base + cur) (base + total) es →
    ∃ as, AttrsIn b total cur as ∧ tableEntries (base + cur) as = es := by
  intro es
  induction es with
  | nil =>
    intro cur h
    have : base + cur = base + total := h
    exact ⟨[], (by omega : cur = total), rfl⟩
  | cons e es ih =>
    rintro cur ⟨h1, h2, h3, h4, h5⟩
    have hn : ∀ k, k < 4 → nth (slice b cur total) k = ibuf s (base + cur + k) := by
      intro k hk; rw [nth_slice (by omega), hb _ (by omega), Nat.add_assoc]
    rw [ibufBytes_two, beVal_two] at h1 h2
    rw [Nat.add_assoc (base + cur) 2 1] at h2
    have h1 := BitVec.eq_of_toNat_eq h1
    have h2 := BitVec.eq_of_toNat_eq h2
    have hd : be16 (nth (slice b cur total) 2) (nth (slice b cur total) 3) = e.dlen := by
      rw [hn 2 (by omega), hn 3 (by omega), h2]
    have hd' := attrDecode_ok (b := slice b cur total) (by rw [hd, pad4_eq_padded, slice_length]; omega)
    rw [hd, pad4_eq_padded, hn 0 (by omega), hn 1 (by omega), Nat.add_zero, ← h1] at hd'
    rw [show base + cur + 4 + padded e.dlen.toNat = base + (cur + 4 + padded e.dlen.toNat) by omega] at h5
    obtain ⟨as, hin, hes⟩ := ih h5
    refine ⟨_ :: as, And.intro hd' hin, ?_⟩
    have hv : BitVec.ofNat 16 (base + cur + 4) = e.voff := by
      apply BitVec.eq_of_toNat_eq; rw [← h3]; simp
    rw [show base + (cur + 4 + padded e.dlen.toNat) = base + cur + 4 + padded e.dlen.toNat by omega] at hes
    simp only [tableEntries, hes, hv]

/-- The valid attributes of a decoded list take exactly the bytes up to `total`. -/
theorem attrsIn_valid {b : Bytes} {total : Nat} : ∀ {as : List Attr} {cur : Nat}, AttrsIn b total cur as →
    ∀ a ∈ as, attrValid a := by
  intro as
  induction as with
  | nil => intro _ _ a h; simp at h
  | cons x as ih =>
    rintro cur ⟨hx, has⟩ a h
    rcases List.mem_cons.1 h with rfl | h
    · exact (attrDecode_valid hx).1
    · exact ih has a h

@[simp] theorem tableEntries_length (as : List Attr) : ∀ off, (tableEntries off as).length = as.length := by
  induction as with
  | nil => intro; rfl
  | cons a as ih => intro off; simp [tableEntries, ih]

theorem tableOf_error {c : Config} {off : Nat} {as : List Attr} (h : c.atabEntries < as.length) :
    tableOf c off as = .error .capacityExceeded := by simp [tableOf, h]

theorem tableOf_ok {c : Config} {off : Nat} {as : List Attr} (h : as.length ≤ c.atabEntries) :
    tableOf c off as = .ok (tableEntries off as) := by simp [tableOf]; omega

theorem xmaAt_short {off : Nat} {s : State} (h : s.ilen.toNat < off + 8) : xmaAt off s = .error .shortBuffer := by
  simp [xmaAt, h]

theorem xmaAt_family {off : Nat} {s : State} (h : off + 8 ≤ s.ilen.toNat) (hf : ibuf s (off + 1) ≠ familyIPv4) :
    xmaAt off s = .error .unsupportedAddressFamily := by
  rw [xmaAt, if_neg (by omega), xmaDeserialize, if_neg (by simp [xmaValueBytes]), if_pos]
  rwa [nth_memRead s (by omega), Nat.add_assoc]

theorem xmaAt_ok {off : Nat} {s : State} (h : off + 8 ≤ s.ilen.toNat) (hf : ibuf s (off + 1) = familyIPv4) :
    xmaAt off s = .ok
      { family := familyIPv4
        addr := be32 (ibuf s (off + 4)) (ibuf s (off + 5)) (ibuf s (off + 6)) (ibuf s (off + 7)) ^^^ magicCookie
        port := be16 (ibuf s (off + 2)) (ibuf s (off + 3)) ^^^ magicHigh } := by
  have hn : ∀ k, k < 8 → nth (memRead s (ibufBase + off) 8) k = ibuf s (off + k) := by
    intro k hk; rw [nth_memRead s hk, Nat.add_assoc]; rfl
  rw [xmaAt, if_neg (by omega), xmaDeserialize, if_neg (by simp [xmaValueBytes]), if_neg (by rw [hn 1 (by omega)]; simp [hf])]
  simp [hn]

/-- Everything `findEntry` can answer: none when no valid entry has the type, else the one of lowest index (R177). -/
theorem findEntry_none {t : Half} {s : State} :
    findEntry t s = none ↔ ∀ i, i < s.acount.toNat → (atabAt s i).type ≠ t := by
  simp [findEntry, validEntries]

theorem findEntry_some {t : Half} {s : State} {i : Nat} (hi : i < s.acount.toNat) (ht : (atabAt s i).type = t)
    (hj : ∀ j, j < i → (atabAt s j).type ≠ t) : findEntry t s = some (atabAt s i) := by
  have : s.acount.toNat = i + (s.acount.toNat - i - 1 + 1) := by omega
  rw [findEntry, validEntries, this, List.range_add, List.range_succ_eq_map]
  simp only [List.map_append, List.map_map, List.map_cons, List.find?_append]
  rw [List.find?_eq_none.2]
  · simp [ht]
  · simpa using hj

end Sys2Proof.Machine
end

