-- ==== Sys2Proof/Laws/Invariant.lean ====
section
/-! SUPPORT. The canonical form of memory at reset, and that every named update of the state keeps the invariant. -/

namespace Sys2Proof.Machine

/-- The reset state's memory is in its canonical form. -/
theorem memWf_reset : memWf State.reset.mem := List.Pairwise.nil

/-- The invariant looks at these fields only. -/
theorem inv_same {s t : State} (h : s.Inv) (h1 : t.cfg = s.cfg) (h2 : t.mem = s.mem) (h3 : t.ilen = s.ilen) (h4 :
    t.olen = s.olen) (h5 : t.vlen = s.vlen) (h6 : t.acount = s.acount) (h7 : t.atab = s.atab) (h8 :
    t.status = s.status) : t.Inv := by
  obtain ⟨a1, a2, a3, a4, a5, a6, a7, a8, a9, a10⟩ := h
  constructor <;> simp only [h1, h2, h3, h4, h5, h6, h7, h8] <;> assumption

theorem inv_setHdrRegs {s : State} (h : s.Inv) (x) :
    (setHdrRegs x s).Inv := inv_same h rfl rfl rfl rfl rfl rfl rfl rfl

theorem inv_setAttrRegs {s : State} (h : s.Inv) (x y z) :
    (setAttrRegs x y z s).Inv := inv_same h rfl rfl rfl rfl rfl rfl rfl rfl

theorem inv_setXmaRegs {s : State} (h : s.Inv) (x) :
    (setXmaRegs x s).Inv := inv_same h rfl rfl rfl rfl rfl rfl rfl rfl

theorem inv_setAplen {s : State} (h : s.Inv) (x) : (setAplen x s).Inv := inv_same h rfl rfl rfl rfl rfl rfl rfl rfl

theorem inv_setHlen {s : State} (h : s.Inv) (x) : (setHlen x s).Inv := inv_same h rfl rfl rfl rfl rfl rfl rfl rfl

/-- OLEN keeps the invariant while it is at most the size of OBUF (R37). -/
theorem inv_setOlen {s : State} (h : s.Inv) {n : Half} (hn : n.toNat ≤ s.cfg.bufBytes) : (setOlen n s).Inv := by
  obtain ⟨a1, a2, a3, a4, a5, a6, a7, a8, a9, a10⟩ := h
  exact ⟨a1, a2, a3, a4, hn, a6, a7, a8, a9, a10⟩

/-- VLEN keeps the invariant while it is at most the size of VBUF (R36). -/
theorem inv_setVlen {s : State} (h : s.Inv) {n : Half} (hn : n.toNat ≤ s.cfg.vbufBytes) : (setVlen n s).Inv := by
  obtain ⟨a1, a2, a3, a4, a5, a6, a7, a8, a9, a10⟩ := h
  exact ⟨a1, a2, a3, a4, a5, hn, a7, a8, a9, a10⟩

/-- Writing mapped bytes keeps the invariant, and with it the canonical form of memory. -/
theorem inv_memWrite {s : State} {x : Nat} {bs : Bytes} (h : s.Inv) (hm : ∀ k, k < bs.length → mappedByte s.cfg
    (x + k) = true) : (memWrite x bs s).Inv := by
  obtain ⟨a1, a2, a3, a4, a5, a6, a7, a8, a9, a10⟩ := h
  refine ⟨a1, memWf_memPokes _ _ a2, ?_, a4, a5, a6, a7, a8, a9, a10⟩
  intro p hp
  rcases mem_memPokes _ hp with h | h
  · have := hm (p.1 - x) (by omega)
    rwa [show x + (p.1 - x) = p.1 by omega] at this
  · exact a3 p h

/-- Writing a table that fits, of entries that lie in IBUF, keeps the invariant. -/
theorem inv_setAtab {s : State} {es : List AtabEntry} (h : s.Inv) (h1 : es.length ≤ s.cfg.atabEntries) (h2 :
    ∀ e ∈ es, EntryInIbuf s.cfg e) : (setAtab es s).Inv := by
  obtain ⟨a1, a2, a3, a4, a5, a6, a7, a8, a9, a10⟩ := h
  have hl := a1
  refine ⟨a1, a2, a3, a4, a5, a6, ?_, ?_, ?_, a10⟩
  · simp [setAtab]; 
    exact Nat.le_trans (Nat.mod_le _ _) (Nat.le_add_right _ _)
  · simp [setAtab]; omega
  · intro e he
    simp only [setAtab, List.mem_append] at he
    rcases he with he | he
    · exact h2 e he
    · exact a9 e (List.mem_of_mem_drop he)

/-- `complete` with at most one flag keeps the invariant. -/
theorem inv_complete {s : State} (h : s.Inv) {f n c} (h1 : (f && n) = false) (h2 : (f && c) = false) (h3 :
    (n && c) = false) : (complete f n c s).Inv := by
  obtain ⟨a1, a2, a3, a4, a5, a6, a7, a8, a9, a10⟩ := h
  refine ⟨a1, a2, a3, a4, a5, a6, a7, a8, a9, ?_⟩
  refine ⟨by simp [statusComplete], by simp [statusComplete], ?_, ?_, ?_⟩ <;> simp [statusComplete] <;> simp_all

/-- `raise` keeps the invariant. -/
theorem inv_raise {s : State} (h : s.Inv) (e) : (raise e s).Inv := by
  obtain ⟨a1, a2, a3, a4, a5, a6, a7, a8, a9, a10⟩ := h
  refine ⟨a1, a2, a3, a4, a5, a6, a7, a8, a9, ?_⟩
  refine ⟨by cases e <;> simp [raise, statusRaised, ErrCode.code], by simp [statusRaised], ?_, ?_,
      ?_⟩ <;> simp [statusRaised]

/-- The entries of attributes that end within IBUF lie in IBUF. -/
theorem entries_of {s : State} {stop : Nat} (hstop : stop ≤ s.cfg.bufBytes) : ∀ {es off}, AttrsAt s off stop es →
    ∀ e ∈ es, EntryInIbuf s.cfg e := by
  intro es
  induction es with
  | nil => simp
  | cons x es ih =>
    intro off ⟨_, _, h3, h4, h5⟩ e he
    rcases List.mem_cons.1 he with rfl | he
    · rw [EntryInIbuf, pad4_eq_padded]; omega
    · exact ih h5 e he

end Sys2Proof.Machine
end

