-- ==== Sys2Proof/Laws/Outcome.lean ====
section
/-! SUPPORT. Which error each function of the codec can give, and the two ways a command can end, with STATUS. -/

namespace Sys2Proof.Machine

/-! ## The error of each function -/

theorem hdrDecode_error {b : Bytes} {e : ErrCode} (h : hdrDecode b = .error e) : e = .shortBuffer := by
  unfold hdrDecode at h; split at h <;> simp_all

theorem hdrCheck_error {c : Config} {x : Header} {e : ErrCode} (h : hdrCheck c x = .error e) :
    e = .invalidCookie := by
  unfold hdrCheck at h; split at h <;> simp_all

theorem hdrCheck_ok {c : Config} {x y : Header} (h : hdrCheck c x = .ok y) : y = x := by
  unfold hdrCheck at h; split at h <;> simp_all

theorem attrDecode_error {b : Bytes} {e : ErrCode} (h : attrDecode b = .error e) : e = .shortBuffer := by
  unfold attrDecode at h; split at h
  · simp_all
  · simp only at h; split at h <;> simp_all

theorem attrEncode_error {a : Attr} {e : ErrCode} (h : attrEncode a = .error e) : e = .lengthMismatch := by
  unfold attrEncode at h; split at h <;> simp_all

theorem sectionDecode_error {b : Bytes} {x : Header} {e : ErrCode} (h : sectionDecode b x = .error e) :
    e = .shortBuffer := by
  unfold sectionDecode at h; split at h
  · simp_all
  · exact attrDecodeAll_error h

theorem tableOf_only {c : Config} {off : Nat} {as : List Attr} {e : ErrCode} (h : tableOf c off as = .error e) :
    e = .capacityExceeded := by
  unfold tableOf at h; split at h <;> simp_all

theorem xmaSerialize_error {a : XorMappedAddr} {e : ErrCode} (h : xmaSerialize a = .error e) :
    e = .unsupportedAddressFamily := by
  unfold xmaSerialize at h; split at h <;> simp_all

theorem xmaAt_error {off : Nat} {s : State} {e : ErrCode} (h : xmaAt off s = .error e) :
    e = .shortBuffer ∨ e = .unsupportedAddressFamily := by
  unfold xmaAt xmaDeserialize at h
  repeat' split at h
  all_goals simp_all

/-! ## How a command ends -/

/-- The flags a command sets when it completes: at most one of FOUND, NA and COOKIE_OK, each from the commands that
R23 names. -/
def FlagsOf (i : Instr) (found na cookieOk : Bool) : Prop :=
  (found && na) = false ∧ (found && cookieOk) = false ∧ (na && cookieOk) = false ∧
    (found = true → (∃ k, i = .attrGet k) ∨ (∃ t, i = .findAttr t) ∨ i = .extractXma) ∧
    (na = true → i = .extractXma) ∧ (cookieOk = true → i = .hdrDecode ∨ i = .msgDecode)

/-- Everything a command can do to STATUS: it settles a staged state whose STATUS is that of `complete` with flags it
may set, or an error it may raise (R202 to R204). -/
theorem exec_outcome (i : Instr) (s : State) : ∃ r, exec i s = settle s r ∧
    (∀ t, r = .ok t → ∃ f n c, t.status = statusComplete f n c s.status ∧ FlagsOf i f n c) ∧
    ∀ e, r = .error e → mayRaise i e = true := by
  cases i <;>
    simp only [exec, execHdrDecode, execHdrEncode, execPadLen, execAttrDecode, execAttrEncode, execAttrDecodeAll,
      execAttrGet, execXmaSerialize, execXmaDeserialize, execMsgDecode, execMsgEncode, execFindAttr,
      execExtractXma] <;>
    refine ⟨_, rfl, fun t h => ?_, fun e h => ?_⟩ <;>
    (repeat' split at h) <;>
    first
      | (simp at h; done)
      | (injection h with h; subst h; exact ⟨_, _, _, rfl, by simp [FlagsOf]⟩)
      | (injection h with h; subst h; simp [mayRaise]; done)
      | (injection h with h; subst h; rename_i h
         first
          | (rw [hdrDecode_error h]; rfl)
          | (rw [hdrCheck_error h]; rfl)
          | (rw [attrDecode_error h]; rfl)
          | (rw [attrEncode_error h]; rfl)
          | (rw [attrDecodeAll_error h]; rfl)
          | (rw [sectionDecode_error h]; rfl)
          | (rw [tableOf_only h]; rfl)
          | (rw [xmaSerialize_error h]; rfl)
          | (rcases xmaAt_error h with rfl | rfl <;> rfl))

end Sys2Proof.Machine
end

