-- ==== Sys2Proof/Laws/Observe.lean ====
section
/-! SUPPORT. What the registers and buffers hold after the shared operations, in the terms the statements use. -/

namespace Sys2Proof.Machine

/-- The four cookie bytes of IBUF are MAGIC_COOKIE exactly when the field is (R103). -/
theorem cookie_iff (s : State) : ibufBytes s 4 4 = [0x21, 0x12, 0xA4, 0x42] ↔ be32 (ibuf s 4) (ibuf s 5)
    (ibuf s 6) (ibuf s 7) = magicCookie := by
  rw [ibufBytes_four]
  constructor
  · intro h; injection h with h1 h; injection h with h2 h; injection h with h3 h; injection h with h4 h
    rw [h1, h2, h3, h4]; rfl
  · intro h
    have := tobe32_be32 (ibuf s 4) (ibuf s 5) (ibuf s 6) (ibuf s 7)
    rw [h] at this
    exact this.symm

/-- The header that the first 20 bytes of IBUF write (R85). -/
def ibufHeader (s : State) : Header := ⟨be16 (ibuf s 0) (ibuf s 1), be16 (ibuf s 2) (ibuf s 3), be32 (ibuf s 4)
    (ibuf s 5) (ibuf s 6) (ibuf s 7), slice (received s) 8 20⟩

/-- With 20 received bytes `hdr_decode` gives that header (R101). -/
theorem hdr_received {s : State} (h : 20 ≤ s.ilen.toNat) : hdrDecode (received s) = .ok (ibufHeader s) := by
  rw [hdrDecode_ok (by simpa using h)]
  simp only [ibufHeader]
  rw [nth_received (by omega), nth_received (by omega), nth_received (by omega), nth_received (by omega),
      nth_received (by omega), nth_received (by omega), nth_received (by omega), nth_received (by omega)]

/-- The transaction ID words come from bytes 8 to 19 (R31). -/
theorem txid_received {s : State} (h : 20 ≤ s.ilen.toNat) (k : Nat) (hk : k < 3) : txidWord (slice
    (received s) 8 20) k = be32 (ibuf s (8 + 4*k)) (ibuf s (8 + 4*k+1)) (ibuf s (8 + 4*k+2)) (ibuf s
    (8 + 4*k+3)) := by
  simp only [txidWord]
  rw [nth_slice (by omega), nth_slice (by omega), nth_slice (by omega), nth_slice (by omega), nth_received
      (by omega), nth_received (by omega), nth_received (by omega), nth_received (by omega)]
  simp [Nat.add_assoc]

theorem cookieOk_iff (s : State) : cookieOk (ibufHeader s) = true ↔ ibufBytes s 4 4 = [0x21, 0x12, 0xA4, 0x42] := by
  rw [cookie_iff]; exact decide_eq_true_iff

/-- Registers that read as after `set_hdr_regs` of IBUF's header hold the bytes of IBUF. -/
theorem hdrRegs_from {s t : State} (h : 20 ≤ s.ilen.toNat) (ht : ∀ r ∈ headerRegs, regRead r t = regRead r
    (setHdrRegs (ibufHeader s) s)) : HeaderRegsFromIbuf s t := by
  unfold HeaderRegsFromIbuf regNat
  simp only [headerRegs, List.mem_cons, List.not_mem_nil, or_false, forall_eq_or_imp, forall_eq] at ht
  obtain ⟨h1, h2, h3, h4, h5, h6⟩ := ht
  rw [h1, h2, h3, h4, h5, h6]
  simp only [ibufBytes_two, ibufBytes_four, beVal_two, beVal_four, regRead, setHdrRegs_htype, setHdrRegs_hlen,
      setHdrRegs_hcookie, setHdrRegs_txid0, setHdrRegs_txid1, setHdrRegs_txid2, ibufHeader, txid_received h 0
      (by decide), txid_received h 1 (by decide), txid_received h 2 (by decide)]
  refine ⟨toNat_setWidth_32 _ (by decide), toNat_setWidth_32 _ (by decide), trivial, trivial, trivial, trivial⟩

/-- A STATUS that `complete` left, as the host reads it. -/
theorem cw_of {s t : State} {f n c : Bool} {w : Word} (h : t.status = statusComplete f n c s.status) (hw :
    flagBits f n c = w) : CompletedWith w s t := by
  subst hw
  simp only [CompletedWith, regRead, h, statusWord_complete]

/-- Bytes of OBUF inside a written range are a slice of what was written. -/
theorem obuf_memWrite_inside {s : State} {bs : Bytes} {x off n : Nat} (h1 : x ≤ 0x2000 + off) (h2 :
    0x2000 + off + n ≤ x + bs.length) :
   obufBytes (memWrite x bs s) off n = slice bs (0x2000 + off - x) (0x2000 + off - x + n) := by
  apply List.ext_getElem
  · simp [obufBytes]; omega
  · intro k hk hk'
    simp [obufBytes] at hk
    simp [obufBytes, byteAt_memWrite, slice, nth]
    rw [if_pos (by omega), List.getElem?_eq_getElem (by omega)]
    simp; congr 1; omega

theorem obufBytes_congr {s t : State} (hm : t.mem = s.mem) (he : t.epoch = s.epoch) {off n : Nat} :
    obufBytes t off n = obufBytes s off n := by
  simp only [obufBytes, byteAt_congr hm he]

/-- An OBUF that starts with `hdr_encode` of the header registers holds the header's fields (R102). -/
theorem hdrInObuf {s t : State} {len : Half} (ht : ∀ off n, obufBytes t off n = obufBytes (memWrite obufBase
    (hdrEncode { hdrRegs s with length := len }) s) off n) : HeaderInObuf len.toNat s t := by
  have hl : (hdrEncode { hdrRegs s with length := len }).length = 20 := rfl
  have hb : obufBase = 0x2000 := rfl
  unfold HeaderInObuf
  simp only [ht]
  rw [obuf_memWrite_inside (by rw [hb]) (by rw [hl, hb]; omega), obuf_memWrite_inside (by rw [hb]; omega)
      (by rw [hl, hb]; omega), obuf_memWrite_inside (by rw [hb]; omega) (by rw [hl, hb]; omega),
      obuf_memWrite_inside (by rw [hb]; omega) (by rw [hl, hb]; omega), obuf_memWrite_inside (by rw [hb]; omega)
      (by rw [hl, hb]; omega), obuf_memWrite_inside (by rw [hb]; omega) (by rw [hl, hb])]
  simp only [regNat_HTYPE, regNat_HCOOKIE, regNat_TXID0, regNat_TXID1, regNat_TXID2]
  exact ⟨beVal_tobe16 _, beVal_tobe16 _, beVal_tobe32 _, beVal_tobe32 _, beVal_tobe32 _, beVal_tobe32 _⟩

theorem attrDecodeAll_error_of {b : Bytes} {n : Nat} (h : ∀ as, attrDecodeAll b n ≠ .ok as) :
    attrDecodeAll b n = .error .shortBuffer := by
  cases hx : attrDecodeAll b n with
  | ok as => exact absurd hx (h as)
  | error e => rw [attrDecodeAll_error hx]

/-- A table that reads as after `setAtab es` is `es` followed by the entries before. -/
theorem tableIs_of {s t u : State} {es : List AtabEntry} (hlen : es.length < 65536) (h1 : ∀ i, atabAt t i = atabAt
    (setAtab es u) i) (h2 : ∀ i, atabAt u i = atabAt s i) (h3 : regRead .ACOUNT t = regRead .ACOUNT
    (setAtab es u)) : TableIs es s t := by
  refine ⟨?_, fun i h => ?_, fun i h => ?_⟩
  · unfold regNat; rw [h3]; show regNat .ACOUNT _ = _; simp; omega
  · rw [h1, atabAt_setAtab, dif_pos h]
  · rw [h1, atabAt_setAtab, dif_neg (by omega), h2]

/-- Each attribute takes at least 4 bytes (R86). -/
theorem attrsAt_length {s : State} {stop : Nat} : ∀ {es : List AtabEntry} {off : Nat},
    AttrsAt s off stop es → off + 4 * es.length ≤ stop := by
  intro es
  induction es with
  | nil => intro off h; exact (show off = stop from h).le
  | cons e es ih =>
    rintro off ⟨_, _, _, _, h⟩
    have := ih h
    simp; omega

/-- `loadEntry` leaves the entry in the attribute registers (R131). -/
theorem attrRegs_load {e : AtabEntry} {s : State} : AttrRegsHold e (loadEntry e s) := by
  simp [AttrRegsHold, loadEntry, aplenOf_toNat, pad4_eq_padded]

/-- Registers that read as after an XOR-Mapped-Address was deserialized hold the address of the 8 value bytes (R152). -/
theorem addrRegs_of {s t u : State} {off : Nat} (h : ∀ r ∈ addressRegs, regRead r t = regRead r (setXmaRegs
    ⟨familyIPv4, be32 (ibuf s (off + 4)) (ibuf s (off + 5)) (ibuf s (off + 6)) (ibuf s (off + 7)) ^^^ magicCookie,
    be16 (ibuf s (off + 2)) (ibuf s (off + 3)) ^^^ magicHigh⟩ u)) : AddressRegsFromIbuf off s t := by
  simp only [addressRegs, List.mem_cons, List.not_mem_nil, or_false, forall_eq_or_imp, forall_eq] at h
  obtain ⟨h1, h2, h3⟩ := h
  unfold AddressRegsFromIbuf regNat
  rw [h1, h2, h3, ibufBytes_two, ibufBytes_four, beVal_two, beVal_four]
  refine ⟨rfl, ?_, ?_⟩
  · show regNat .XPORT _ = _
    rw [regNat_XPORT, setXmaRegs_xport, BitVec.toNat_xor]; rfl
  · show regNat .XADDR _ = _
    rw [regNat_XADDR, setXmaRegs_xaddr, BitVec.toNat_xor]; rfl

/-- Two errors cannot be raised at once. -/
theorem raised_raise_eq {e e' : ErrCode} {s : State} (h : Raised e' s (raise e s)) : e' = e := by
  have := h.1
  simp only [regRead, raise_status, statusWord_raised] at this
  revert this; cases e <;> cases e' <;> decide

/-- A command that completed has raised nothing. -/
theorem completed_not_raised {s t : State} {f n c : Bool} (h : t.status = statusComplete f n c s.status) (e :
    ErrCode) : ¬ Raised e s t := by
  intro hr
  have := hr.1
  simp only [regRead, h] at this
  revert this
  simp only [statusComplete]
  cases e <;> cases f <;> cases n <;> cases c <;> cases s.status.sticky <;> decide

end Sys2Proof.Machine
end

