-- ==== Sys2Proof/Laws/PerInstr.lean ====
section
/-! SUPPORT. The family of per-command statements named in LAWS.json: the fields of each command's word. -/

namespace Sys2Proof.Laws.EncodeFields

/-- A command's word has the command's opcode in OPC, RSV = 0 and its immediate in IMM16 (R80 to R82), and the
assembler accepts the command's written form (R90). -/
def Statement (i : Instr) : Prop :=
  opcOf (encode i) = i.opc ∧ rsvOf (encode i) = 0 ∧ immOf (encode i) = i.imm ∧ i.WellFormed

theorem hdrDecode : Statement .hdrDecode := ⟨opcOf_encode _, rsvOf_encode _, immOf_encode _, rfl⟩

theorem hdrEncode : Statement .hdrEncode := ⟨opcOf_encode _, rsvOf_encode _, immOf_encode _, rfl⟩

theorem padLen (n : Half) : Statement (.padLen n) :=
  ⟨opcOf_encode _, rsvOf_encode _, immOf_encode _, if_pos (by have := n.isLt; omega)⟩

theorem attrDecode : Statement .attrDecode := ⟨opcOf_encode _, rsvOf_encode _, immOf_encode _, rfl⟩

theorem attrEncode : Statement .attrEncode := ⟨opcOf_encode _, rsvOf_encode _, immOf_encode _, rfl⟩

theorem attrDecodeAll : Statement .attrDecodeAll := ⟨opcOf_encode _, rsvOf_encode _, immOf_encode _, rfl⟩

theorem attrGet (i : Half) : Statement (.attrGet i) :=
  ⟨opcOf_encode _, rsvOf_encode _, immOf_encode _, if_pos (by have := i.isLt; omega)⟩

theorem xmaSerialize : Statement .xmaSerialize := ⟨opcOf_encode _, rsvOf_encode _, immOf_encode _, rfl⟩

theorem xmaDeserialize : Statement .xmaDeserialize := ⟨opcOf_encode _, rsvOf_encode _, immOf_encode _, rfl⟩

theorem msgDecode : Statement .msgDecode := ⟨opcOf_encode _, rsvOf_encode _, immOf_encode _, rfl⟩

theorem msgEncode : Statement .msgEncode := ⟨opcOf_encode _, rsvOf_encode _, immOf_encode _, rfl⟩

theorem findAttr (t : Half) : Statement (.findAttr t) :=
  ⟨opcOf_encode _, rsvOf_encode _, immOf_encode _, if_pos (by have := t.isLt; omega)⟩

theorem extractXma : Statement .extractXma := ⟨opcOf_encode _, rsvOf_encode _, immOf_encode _, rfl⟩

end Sys2Proof.Laws.EncodeFields
end

