-- ==== Sys2Proof/Laws/StepCases.lean ====
section
/-! SUPPORT. What a step that answers a next state has done, case by case. -/

namespace Sys2Proof.Machine

/-- What a step that answers a next state has done. -/
inductive StepCase (s t : State) : Prop where
  | idle (hb : s.bus = []) (ht : t = s)
  | pulse (rest : List Event) (hb : s.bus = .resetPulse :: rest) (ht : t = powerUp { s with bus := rest })
  | regRead (rest : List Event) (r : RegName) (hb : s.bus = .access (.read (s.cfg.hostBase + r.offset) 32) :: rest)
      (ht : t = { s with bus := rest, resp := .word (Sys2Proof.Machine.regRead r s) })
  | byteRead (rest : List Event) (a : Nat) (ha : mappedByte s.cfg a = true)
      (hb : s.bus = .access (.read (s.cfg.hostBase + a) 8) :: rest)
      (ht : t = { s with bus := rest, resp := .byte (byteAt s a) })
  | regWrite (rest : List Event) (r : RegName) (d : Nat) (hr : r ≠ .CMD)
      (hb : s.bus = .access (.write (s.cfg.hostBase + r.offset) 32 d) :: rest)
      (ht : t = { Sys2Proof.Machine.regWrite r (BitVec.ofNat 32 d) { s with bus := rest } with resp := .written })
  | byteWrite (rest : List Event) (a d : Nat) (ha : mappedByte s.cfg a = true)
      (hb : s.bus = .access (.write (s.cfg.hostBase + a) 8 d) :: rest)
      (ht : t = { memWrite a [BitVec.ofNat 8 d] { s with bus := rest } with resp := .written })
  | illegal (rest : List Event) (d : Nat) (x : DecodeReject) (hb : s.bus = cmdWrite s.cfg d :: rest)
      (hd : decode (BitVec.ofNat 32 d) = .error x)
      (ht : t = raise .illegalCommand { s with bus := rest, resp := .written, cmd := BitVec.ofNat 32 d })
  | command (rest : List Event) (d : Nat) (i : Instr) (hb : s.bus = cmdWrite s.cfg d :: rest)
      (hd : decode (BitVec.ofNat 32 d) = .ok i)
      (ht : exec i { s with bus := rest, resp := .written, cmd := BitVec.ofNat 32 d } = .next t)

/-- Everything a step can do when it answers a next state. -/
theorem step_cases {s t : State} (h : step s = .next t) : StepCase s t := by
  cases hb : s.bus with
  | nil => rw [step_nil hb] at h; injection h with h; exact .idle hb h.symm
  | cons e rest =>
    rw [step_cons hb] at h
    cases e with
    | resetPulse => injection h with h; exact .pulse rest hb h.symm
    | access acc =>
      simp only [performEvent, performAccess] at h
      split at h
      · simp at h
      · rename_i a ha
        simp only [blockAddr] at ha
        split at ha
        · rename_i hw
          injection ha with ha
          have hp : acc.place.1 = s.cfg.hostBase + a := by omega
          split at h
          · simp at h
          · rename_i l hl
            have hl' : locate s.cfg a acc.place.2 = some l := hl
            rcases locate_cases s.cfg a acc.place.2 with ⟨r, hwd, har, hr⟩ | ⟨hwd, hm, hr⟩ | ⟨_, _, hr⟩
            · rw [hr] at hl'; injection hl' with hl'; subst hl'
              cases acc with
              | read x w =>
                simp only [Access.place] at hp hwd
                subst hp hwd har
                simp only [hostRead] at h; injection h with h
                exact .regRead rest r hb h.symm
              | write x w d =>
                simp only [Access.place] at hp hwd
                subst hp hwd har
                by_cases hc : r = .CMD
                · subst hc
                  simp only [hostWrite, runCommand] at h
                  split at h
                  · rename_i i hd; exact .command rest d i hb hd h
                  · rename_i x hd; injection h with h; exact .illegal rest d x hb hd h.symm
                · simp only [hostWrite_reg hc] at h
                  injection h with h
                  exact .regWrite rest r d hc hb h.symm
            · rw [hr] at hl'; injection hl' with hl'; subst hl'
              cases acc with
              | read x w =>
                simp only [Access.place] at hp hwd
                subst hp hwd
                simp only [hostRead] at h; injection h with h
                exact .byteRead rest a hm hb h.symm
              | write x w d =>
                simp only [Access.place] at hp hwd
                subst hp hwd
                simp only [hostWrite] at h; injection h with h
                exact .byteWrite rest a d hm hb h.symm
            · rw [hr] at hl'; simp at hl'
        · simp at ha

end Sys2Proof.Machine
end

