-- ==== Sys2Proof/Tests/Slice0.lean ====
section
/-! SUPPORT. Named tests: decoding, well-formedness, one step per command on the spec's vectors, and witnesses of hypotheses. -/

namespace Sys2Proof.Tests

open Sys2Proof Sys2Proof.Machine

/-! ## Helpers: the byte sequences of 95_test_vectors.md and small states -/

/-- TX of 95_test_vectors.md. -/
def tx : Bytes := [0x01, 0x02, 0x03, 0x04, 0x05, 0x06, 0x07, 0x08, 0x09, 0x0A, 0x0B, 0x0C]
/-- REQ of 95_test_vectors.md. -/
def req : Bytes := [0x00, 0x01, 0x00, 0x00, 0x21, 0x12, 0xA4, 0x42] ++ tx
/-- The value bytes of 203.0.113.5:54321 (T1.6). -/
def xma : Bytes := [0x00, 0x01, 0xF5, 0x23, 0xEA, 0x12, 0xD5, 0x47]
/-- RESP of 95_test_vectors.md. -/
def resp : Bytes := [0x01, 0x01, 0x00, 0x0C, 0x21, 0x12, 0xA4, 0x42] ++ tx ++ [0x00, 0x20, 0x00, 0x08] ++ xma
/-- TWO of 95_test_vectors.md. -/
def two : Bytes := [0x00, 0x06, 0x00, 0x04, 0xAA, 0xBB, 0xCC, 0xDD] ++
  [0x80, 0x22, 0x00, 0x06, 0x11, 0x22, 0x33, 0x44, 0x55, 0x66, 0x00, 0x00]
/-- A header with a cookie that is wrong, and nothing after it (T2.2 f). -/
def badCookie : Bytes := [0x00, 0x01, 0x00, 0x00, 0x00, 0x00, 0x00, 0x00] ++ List.replicate 12 0

/-- The reset state with bytes received: in IBUF from offset 0 on, and counted in ILEN. -/
def got (bs : Bytes) : State := { memWrite 0x1000 bs State.reset with ilen := BitVec.ofNat 16 bs.length }
/-- The same with the cookie enforced. -/
def strict (bs : Bytes) : State := { got bs with cfg := { Config.default with enforceCookie := true } }
/-- The same with room for one table entry only. -/
def oneEntry (bs : Bytes) : State := { got bs with cfg := { Config.default with atabEntries := 1 } }
/-- The reset state with a table. -/
def tabled (es : List AtabEntry) (s : State) : State := { s with atab := es, acount := BitVec.ofNat 16 es.length }
/-- The table of T2.6 a. -/
def twoEntries : List AtabEntry := [⟨0x0006, 4, 4⟩, ⟨0x8022, 6, 12⟩]
/-- The state after T2.10 a, in what EXTRACT_XMA and FIND_ATTR read. -/
def decoded : State := { tabled [⟨0x0020, 8, 24⟩] (got resp) with htype := 0x0101 }
/-- The reset state with the header registers of T2.3 a. -/
def withHdr : State :=
  { State.reset with htype := 0x0001, hcookie := 0x2112A442
                     txid0 := 0x01020304, txid1 := 0x05060708, txid2 := 0x090A0B0C }
/-- The state of T2.5 a with OLEN given. -/
def staged (o : Half) : State :=
  { memWrite 0x3000 [0x11, 0x22, 0x33, 0x44, 0x55, 0x66, 0x00, 0x00] State.reset with
    atype := 0x8022, adlen := 6, vlen := 8, olen := o }

/-- The state after the very next step, which performs a write of a word to CMD. -/
def after (w : Nat) (s : State) : Option State :=
  match step (s.withFetchWord 32 w) with
  | .next t => some t
  | _ => none
/-- Registers after a command. -/
def regsAfter (w : Nat) (s : State) (rs : List RegName) : Option (List Nat) :=
  (after w s).map (fun t => rs.map (fun r => regNat r t))
/-- Bytes of memory after a command. -/
def bytesAfter (w : Nat) (s : State) (a n : Nat) : Option Bytes := (after w s).map (fun t => memRead t a n)
/-- A register and the answer after one access. -/
def access (acc : Access) (s : State) (r : RegName) : Option (Nat × Response) :=
  match step { s with bus := [.access acc] } with
  | .next t => some (regNat r t, t.resp)
  | _ => none

/-- The fault that one access from reset ends in. -/
def faultOf (acc : Access) : Option Fault :=
  match step { State.reset with bus := [.access acc] } with
  | .fault e => some e
  | _ => none

/-! ## Decoding: words written out from R80 (IMM16 31:16, RSV 15:8, OPC 7:0) and R82 -/

theorem test_decode_headerCodec :
    decode 0b0000000000000000_00000000_00000001#32 = .ok .hdrDecode ∧
    decode 0b0000000000000000_00000000_00000010#32 = .ok .hdrEncode := by decide
theorem test_decode_attributeCodec :
    decode 0b0000000000000110_00000000_00010000#32 = .ok (.padLen 6) ∧
    decode 0b0000000000000000_00000000_00010001#32 = .ok .attrDecode ∧
    decode 0b0000000000000000_00000000_00010010#32 = .ok .attrEncode ∧
    decode 0b0000000000000000_00000000_00010011#32 = .ok .attrDecodeAll ∧
    decode 0b0000000000000001_00000000_00010100#32 = .ok (.attrGet 1) := by decide
theorem test_decode_xorMappedAddress :
    decode 0b0000000000000000_00000000_00100000#32 = .ok .xmaSerialize ∧
    decode 0b0000000000000000_00000000_00100001#32 = .ok .xmaDeserialize := by decide
theorem test_decode_messageAssembly :
    decode 0b0000000000000000_00000000_00110000#32 = .ok .msgDecode ∧
    decode 0b0000000000000000_00000000_00110001#32 = .ok .msgEncode ∧
    decode 0b0000000000100000_00000000_00110010#32 = .ok (.findAttr 0x0020) ∧
    decode 0b0000000000000000_00000000_00110011#32 = .ok .extractXma := by decide
theorem test_encode_rows : encode (.padLen 6) = 0x00060010 ∧ encode (.findAttr 0x20) = 0x00200032 ∧
    encode .hdrDecode = 0x00000001 ∧ encode (.attrGet 0xFFFF) = 0xFFFF0014 := by decide
/-- The illegal words of T2.14. -/
theorem test_decode_illegal :
    [0x00000000, 0x00000003, 0x000000FF, 0x00000101, 0x00010001, 0x00050033, 0x00060110].map
      (fun w => regsAfter w State.reset [.STATUS, .CMD, .APLEN, .HTYPE]) =
    [0x00000000, 0x00000003, 0x000000FF, 0x00000101, 0x00010001, 0x00050033, 0x00060110].map
      (fun w => some [0x105, w, 0, 0]) := by decide
theorem test_decodeTableWord : decodeTableWord 32 0x00060010 = some (.padLen 6) ∧
    decodeTableWord 32 0x00000033 = some .extractXma ∧ decodeTableWord 32 0x00000101 = none := by decide
/-- A command runs as the first after reset. -/
theorem test_first_command : regsAfter 0x00000001 State.reset [.STATUS, .CMD] = some [0x101, 1] := by decide

/-! ## Well-formedness: an ill-formed term for each check -/

theorem test_asm_missing : AsmLine.problem ⟨.PAD_LEN, none⟩ = some .operandMissing := by decide
theorem test_asm_given : AsmLine.problem ⟨.HDR_DECODE, some 0⟩ = some .operandGiven := by decide
theorem test_asm_range : AsmLine.problem ⟨.ATTR_GET, some 0x10000⟩ = some .operandOutOfRange ∧
    AsmLine.problem ⟨.ATTR_GET, some 0xFFFF⟩ = none := by decide
/-- R90's examples. -/
theorem test_assemble : assemble ⟨.PAD_LEN, some 6⟩ = .ok 0x00060010 ∧
    assemble ⟨.FIND_ATTR, some 0x20⟩ = .ok 0x00200032 ∧ assemble ⟨.HDR_DECODE, none⟩ = .ok 0x00000001 ∧
    assemble ⟨.FIND_ATTR, none⟩ = .error .operandMissing := by decide
theorem test_header_invalid : ¬Header.Valid ⟨0, 0, 0, [0x01]⟩ := by decide
theorem test_attr_invalid : ¬attrValid ⟨0, 5, 5, [0, 0, 0, 0, 0]⟩ ∧ ¬attrValid ⟨0, 5, 8, [0, 0, 0, 0, 0]⟩ := by decide
theorem test_config_illegal : ¬Config.Legal { Config.default with bufBytes := 19 } ∧
    ¬Config.Legal { Config.default with atabEntries := 0 } ∧ Config.default.Legal := by decide

/-! ## One step per command (T2) -/

/-- T2.1, n = 6 and n = 65535. -/
theorem test_padLen : regsAfter 0x00060010 State.reset [.APLEN, .STATUS] = some [8, 0] ∧
    regsAfter 0xFFFF0010 State.reset [.APLEN, .STATUS] = some [65536, 0] := by decide
/-- T2.2 c. -/
theorem test_hdrDecode : regsAfter 0x00000001 (got req) [.HTYPE, .HLEN, .HCOOKIE, .TXID0, .TXID1, .TXID2, .STATUS] =
    some [0x0001, 0, 0x2112A442, 0x01020304, 0x05060708, 0x090A0B0C, 0x40] := by decide
/-- T2.2 f, g and h. -/
theorem test_hdrDecode_cookie : regsAfter 0x00000001 (got badCookie) [.HTYPE, .HCOOKIE, .STATUS] = some [1, 0, 0] ∧
    regsAfter 0x00000001 (strict badCookie) [.HTYPE, .STATUS] = some [0, 0x102] ∧
    regsAfter 0x00000001 (strict (badCookie.take 10)) [.STATUS] = some [0x101] := by decide
/-- T2.3 b. -/
theorem test_hdrEncode : bytesAfter 0x00000002
    { State.reset with htype := 0x0111, hlen := 4, hcookie := 0xDEADBEEF
                       txid0 := 0xFFFFFFFF, txid1 := 0xFFFFFFFF, txid2 := 0xFFFFFFFF } 0x2000 20 =
    some ([0x01, 0x11, 0x00, 0x04, 0xDE, 0xAD, 0xBE, 0xEF] ++ List.replicate 12 0xFF) := by decide
/-- T2.3 a. -/
theorem test_hdrEncode_request : bytesAfter 0x00000002 withHdr 0x2000 20 = some req ∧
    regsAfter 0x00000002 withHdr [.OLEN, .STATUS] = some [20, 0] := by decide
/-- T2.4 e and i. -/
theorem test_attrDecode : regsAfter 0x00000011
      (got [0x00, 0x01, 0x00, 0x05, 0xAA, 0xBB, 0xCC, 0xDD, 0xEE, 0x11, 0x22, 0x33])
      [.ATYPE, .ADLEN, .APLEN, .AVOFF, .STATUS] = some [0x0001, 5, 8, 4, 0] ∧
    regsAfter 0x00000011 { got two with aoff := 8 } [.ATYPE, .ADLEN, .APLEN, .AVOFF, .AOFF] =
      some [0x8022, 6, 8, 12, 8] := by decide
/-- T2.4 d and f. -/
theorem test_attrDecode_short : regsAfter 0x00000011
      (got [0x00, 0x01, 0x00, 0x05, 0xAA, 0xBB, 0xCC, 0xDD, 0xEE]) [.ATYPE, .STATUS] = some [0, 0x101] ∧
    regsAfter 0x00000011 { got two with aoff := 21 } [.STATUS] = some [0x101] := by decide
/-- T2.5 a, with OLEN = 20 as in T2.11 c. -/
theorem test_attrEncode : bytesAfter 0x00000012 (staged 20) 0x2014 12 =
      some [0x80, 0x22, 0x00, 0x06, 0x11, 0x22, 0x33, 0x44, 0x55, 0x66, 0x00, 0x00] ∧
    regsAfter 0x00000012 (staged 20) [.OLEN, .APLEN, .STATUS] = some [32, 8, 0] := by decide
/-- T2.5 b, e and g: with 12 bytes to append, 2037 is one too far. -/
theorem test_attrEncode_errors :
    regsAfter 0x00000012 { staged 0 with vlen := 6 } [.OLEN, .APLEN, .STATUS] = some [0, 0, 0x106] ∧
    regsAfter 0x00000012 (staged 2037) [.OLEN, .STATUS] = some [2037, 0x107] ∧
    regsAfter 0x00000012 { staged 2047 with vlen := 3 } [.STATUS] = some [0x106] := by decide
/-- T2.6 a. -/
theorem test_attrDecodeAll : regsAfter 0x00000013 { got two with totlen := 20 } [.ACOUNT, .STATUS] = some [2, 0] ∧
    (after 0x00000013 { got two with totlen := 20 }).map validEntries = some twoEntries := by decide
/-- T2.6 c, e, f and j. -/
theorem test_attrDecodeAll_errors :
    regsAfter 0x00000013 { got [0x00, 0x01, 0x00, 0x00, 0xFF, 0xFF] with totlen := 6 } [.STATUS] = some [0x101] ∧
    regsAfter 0x00000013 { got (two.take 16) with totlen := 20 } [.STATUS] = some [0x101] ∧
    regsAfter 0x00000013 { oneEntry two with totlen := 20 } [.ACOUNT, .STATUS] = some [0, 0x107] ∧
    regsAfter 0x00000013 { got two with totlen := 10 } [.STATUS] = some [0x101] := by decide
/-- T2.7 b. -/
theorem test_attrGet : regsAfter 0x00010014 (tabled twoEntries State.reset) [.ATYPE, .ADLEN, .APLEN, .AVOFF, .STATUS] =
    some [0x8022, 6, 8, 12, 0x10] := by decide
/-- T2.7 c and e. -/
theorem test_attrGet_none : regsAfter 0x00020014 (tabled twoEntries State.reset) [.ATYPE, .STATUS] = some [0, 0x103] ∧
    regsAfter 0xFFFF0014 (tabled twoEntries State.reset) [.STATUS] = some [0x103] := by decide
/-- T2.8, first row. -/
theorem test_xmaSerialize :
    bytesAfter 0x00000020 { State.reset with xfam := 1, xaddr := 0xCB007105, xport := 0xD431 } 0x3000 8 = some xma ∧
    regsAfter 0x00000020 { State.reset with xfam := 1, xaddr := 0xCB007105, xport := 0xD431 } [.VLEN, .STATUS] =
      some [8, 0] := by decide
theorem test_xmaSerialize_family : regsAfter 0x00000020 { State.reset with xfam := 2 } [.VLEN, .STATUS] =
    some [0, 0x104] := by decide
/-- T2.9 c. -/
theorem test_xmaDeserialize : regsAfter 0x00000021 (got [0xFF, 0x01, 0xF5, 0x23, 0xEA, 0x12, 0xD5, 0x47])
    [.XFAM, .XADDR, .XPORT, .STATUS] = some [1, 0xCB007105, 0xD431, 0] := by decide
/-- T2.9 d, e and f. -/
theorem test_xmaDeserialize_errors :
    regsAfter 0x00000021 (got [0x00, 0x02, 0xF5, 0x23, 0xEA, 0x12, 0xD5, 0x47]) [.XFAM, .STATUS] = some [0, 0x104] ∧
    regsAfter 0x00000021 { got ([0, 0, 0, 0] ++ xma) with avoff := 5 } [.STATUS] = some [0x101] ∧
    regsAfter 0x00000021 (got [0x00, 0x02, 0xF5, 0x23, 0xEA, 0x12, 0xD5]) [.STATUS] = some [0x101] := by decide
/-- T2.10 a. -/
theorem test_msgDecode : regsAfter 0x00000030 (got resp) [.HTYPE, .HLEN, .HCOOKIE, .TXID2, .ACOUNT, .STATUS] =
      some [0x0101, 12, 0x2112A442, 0x090A0B0C, 1, 0x40] ∧
    (after 0x00000030 (got resp)).map validEntries = some [⟨0x0020, 8, 24⟩] := by decide
/-- T2.10 c, e and g. -/
theorem test_msgDecode_errors : regsAfter 0x00000030 (got (resp.take 28)) [.HTYPE, .STATUS] = some [0, 0x101] ∧
    regsAfter 0x00000030 (got ([0x00, 0x01, 0x00, 0x06, 0x21, 0x12, 0xA4, 0x42] ++ tx ++
      [0x12, 0x34, 0x00, 0x02, 0xAA, 0xBB, 0x00, 0x00])) [.STATUS] = some [0x101] ∧
    regsAfter 0x00000030 (oneEntry ([0x00, 0x01, 0x00, 0x14, 0x21, 0x12, 0xA4, 0x42] ++ tx ++ two))
      [.HTYPE, .STATUS] = some [0, 0x107] := by decide
/-- T2.11 d. -/
theorem test_msgEncode : regsAfter 0x00000031 { withHdr with olen := 23 } [.HLEN, .OLEN, .STATUS] = some [3, 23, 0] ∧
    bytesAfter 0x00000031 { withHdr with olen := 23 } 0x2000 8 =
      some [0x00, 0x01, 0x00, 0x03, 0x21, 0x12, 0xA4, 0x42] := by decide
/-- T2.11 b. -/
theorem test_msgEncode_short : regsAfter 0x00000031 { State.reset with hlen := 7 } [.HLEN, .STATUS] = some [7, 0x106] := by
  decide
/-- T2.12 a, and c with the duplicates of T2.6 h. -/
theorem test_findAttr : regsAfter 0x00200032 decoded [.ATYPE, .ADLEN, .APLEN, .AVOFF, .STATUS] =
      some [0x0020, 8, 8, 24, 0x10] ∧
    regsAfter 0x00200032 (tabled [⟨0x0020, 0, 4⟩, ⟨0x0020, 0, 8⟩] State.reset) [.AVOFF] = some [4] := by decide
/-- T2.12 b. -/
theorem test_findAttr_none : regsAfter 0x00010032 decoded [.AVOFF, .STATUS] = some [0, 0x103] := by decide
/-- T2.13 a and h. -/
theorem test_extractXma : regsAfter 0x00000033 decoded [.XFAM, .XADDR, .XPORT, .STATUS] =
      some [1, 0xCB007105, 0xD431, 0x10] ∧
    regsAfter 0x00000033 (memWrite 0x101A [0x00, 0x00] decoded) [.XPORT] = some [0x2112] := by decide
/-- T2.13 d, f, g and i. -/
theorem test_extractXma_others :
    regsAfter 0x00000033 { State.reset with htype := 0x0101 } [.STATUS] = some [0x103] ∧
    regsAfter 0x00000033 (memWrite 0x1019 [0x02] decoded) [.XFAM, .STATUS] = some [0, 0x104] ∧
    regsAfter 0x00000033 { decoded with ilen := 28 } [.STATUS] = some [0x101] ∧
    regsAfter 0x00000033 { decoded with htype := 0x0001 } [.XADDR, .STATUS] = some [0, 0x20] := by decide

/-! ## Host accesses (T2.15) -/

theorem test_busErrors :
    [Access.read 0x054 32, .read 0x004 8, .write 0x006 32 0, .read 0x1000 32, .read 0x1800 8].map faultOf =
    [Access.read 0x054 32, .read 0x004 8, .write 0x006 32 0, .read 0x1000 32, .read 0x1800 8].map
      (fun a => some (.busError a)) := by decide
theorem test_outsideWindow : faultOf (.read 0x10000 32) = some (.outsideWindow (.read 0x10000 32)) := by decide
theorem test_registerWrites : access (.write 0x014 32 7) State.reset .ACOUNT = some (0, .written) ∧
    access (.write 0x008 32 5000) State.reset .ILEN = some (2048, .written) ∧
    access (.write 0x018 32 0x12345) State.reset .HTYPE = some (0x2345, .written) := by decide
theorem test_statusWrites :
    access (.write 0x004 32 0x1FF) { State.reset with status := statusRaised .shortBuffer } .STATUS =
      some (0x001, .written) ∧
    access (.write 0x004 32 0x0FF) { State.reset with status := statusRaised .shortBuffer } .STATUS =
      some (0x101, .written) := by decide
theorem test_reads : access (.read 0x000 32) { State.reset with cmd := 0xFF } .CMD = some (0xFF, .word 0xFF) ∧
    access (.read 0x1004 8) (got req) .ILEN = some (20, .byte 0x21) := by decide
theorem test_byteWrite : (match step { State.reset with bus := [.access (.write 0x2003 8 0x1AB)] } with
    | .next t => memPeek t.mem 0x2003
    | _ => none) = some 0xAB := by decide
theorem test_reset : (match step { decoded with bus := [.resetPulse] } with
    | .next t => some (t.mem, t.atab, t.epoch, regNat .HTYPE t, regNat .STATUS t)
    | _ => none) = some ([], [], 1, 0, 0) := by decide

/-! ## Witnesses: for each statement with hypotheses, a state and operands that meet all of them -/

/-- `StepRunsDecodedCommand`. -/
theorem test_witness_stepRuns : ({ State.reset with bus := [cmdWrite Config.default 0x00060010] } : State).bus =
      cmdWrite State.reset.cfg 0x00060010 :: [] ∧ decode (BitVec.ofNat 32 0x00060010) = .ok (.padLen 6) ∧
    (Instr.padLen 0xFFFF).WellFormed ∧ Instr.extractXma.WellFormed := by decide
/-- `EncodeOfDecode` and, on the row side, `OpcodeMapSelectsCommand`: the largest immediate. -/
theorem test_witness_decode : decode 0xFFFF0014 = .ok (.attrGet 0xFFFF) ∧
    (0xFFFF0014#32 &&& 0x0000FFFF#32 = 0x00000014#32) ∧ (0xFFFF0014#32).extractLsb' 16 16 = 0xFFFF#16 := by decide
theorem test_witness_opcodeRow : ∃ row ∈ opcodeRows, 0x00000033#32 &&& row.mask = row.pattern ∧
    Instr.extractXma = row.instr ((0x00000033#32).extractLsb' 16 16) :=
  ⟨⟨0xFFFFFFFF, 0x00000033, fun _ => .extractXma⟩, by simp [opcodeRows], by decide, rfl⟩
/-- `IllegalWordRaisesIllegalCommand`: an opcode next to one that is used, RSV and IMM16 one above what is legal. -/
theorem test_witness_illegal : ¬MatchesSomeRow (BitVec.ofNat 32 0x00000034) ∧
    ¬MatchesSomeRow (BitVec.ofNat 32 0x00000101) ∧ ¬MatchesSomeRow (BitVec.ofNat 32 0x00010001) := by
  refine ⟨?_, ?_, ?_⟩ <;> simp [MatchesSomeRow, opcodeRows]
theorem test_witness_illegal_bus : ({ State.reset with bus := [cmdWrite Config.default 0x101] } : State).bus =
    cmdWrite State.reset.cfg 0x101 :: [] := by decide
/-- `AssemblerAcceptsWrittenCommands`, each clause; 0x10000 is the first operand out of range. -/
theorem test_witness_assembler : Instr.asmLine (.padLen 0xFFFF) = ⟨.PAD_LEN, some 0xFFFF⟩ ∧
    Mnemonic.takesOperand .ATTR_GET = true ∧ 0xFFFF < 0x10000 ∧ Mnemonic.takesOperand .HDR_DECODE = false := by decide
/-- `ResetPulseResets`, `IdleBlockHoldsState`. -/
theorem test_witness_reset : ({ decoded with bus := [.resetPulse] } : State).bus = .resetPulse :: [] ∧
    decoded.bus = [] := by decide
/-- `HostReadsHaveNoSideEffect` and `BufferAccessesReadAndStoreOneByte`: the first and the last byte of each buffer. -/
theorem test_witness_bytes : State.reset.cfg.Legal ∧ 0 < Buf.IBUF.size State.reset.cfg ∧
    2047 < Buf.OBUF.size State.reset.cfg ∧ 2047 < Buf.VBUF.size State.reset.cfg ∧
    ({ State.reset with bus := [.access (.read 0x37FF 8)] } : State).bus =
      .access (.read (State.reset.cfg.hostBase + Buf.VBUF.base + 2047) 8) :: [] ∧
    ({ State.reset with bus := [.access (.write 0x1000 8 0xFF)] } : State).bus =
      .access (.write (State.reset.cfg.hostBase + Buf.IBUF.base + 0) 8 0xFF) :: [] ∧
    ({ State.reset with bus := [.access (.read 0x050 32)] } : State).bus =
      .access (.read (State.reset.cfg.hostBase + RegName.XPORT.offset) 32) :: [] := by decide
/-- `HostRegisterWrites`: a register of each rule. -/
theorem test_witness_registerWrites : ∀ r ∈ [RegName.CMD, .STATUS, .ACOUNT, .ILEN, .XPORT],
    ({ State.reset with bus := [.access (.write r.offset 32 1)] } : State).bus =
      .access (.write (State.reset.cfg.hostBase + r.offset) 32 1) :: [] := by decide
theorem test_witness_registerWrites_cmd : decode (BitVec.ofNat 32 1) = .ok .hdrDecode ∧
    (BitVec.ofNat 32 0x100).getLsbD 8 = true ∧ (BitVec.ofNat 32 0xFF).getLsbD 8 = false := by decide
/-- `RefusedAccessesAreBusErrors`: the last register and the first address after it, the last byte of a buffer and the
first after it, and the host addresses around the block's window. -/
theorem test_witness_refused : Access.place (.read 0x050 32) = (State.reset.cfg.hostBase + 0x050, 32) ∧
    Access.place (.read 0x054 32) = (State.reset.cfg.hostBase + 0x054, 32) ∧
    Access.place (.write 0x17FF 8 0) = (State.reset.cfg.hostBase + 0x17FF, 8) ∧
    Access.place (.write 0x1800 8 0) = (State.reset.cfg.hostBase + 0x1800, 8) ∧
    State.reset.cfg.hostBase + 0x10000 ≤ (Access.place (.read 0x10000 8)).1 ∧
    (Access.place (.read 0x0FFF 8)).1 < ({ Config.default with hostBase := 0x1000 } : Config).hostBase := by decide
theorem test_witness_refused_answers : faultOf (.read 0x050 32) = none ∧
    faultOf (.read 0x054 32) = some (.busError (.read 0x054 32)) ∧ faultOf (.write 0x17FF 8 0) = none ∧
    faultOf (.write 0x1800 8 0) = some (.busError (.write 0x1800 8 0)) := by decide

/-- `HdrDecodeMeaning`: 19 bytes; 20 bytes with a wrong cookie, enforced and not; 20 bytes with the right one. -/
theorem test_witness_hdrDecode : regNat .ILEN (got (req.take 19)) = 19 ∧
    (20 ≤ regNat .ILEN (strict badCookie) ∧ (strict badCookie).cfg.enforceCookie = true ∧
      ibufBytes (strict badCookie) 4 4 ≠ [0x21, 0x12, 0xA4, 0x42]) ∧
    (20 ≤ regNat .ILEN (got badCookie) ∧ (got badCookie).cfg.enforceCookie = false) ∧
    (20 ≤ regNat .ILEN (strict req) ∧ (strict req).cfg.enforceCookie = true ∧
      ibufBytes (strict req) 4 4 = [0x21, 0x12, 0xA4, 0x42]) := by decide
/-- `PadLenMeaning`, `AttrGetMeaning`, `FindAttrMeaning`: their words at the ends of the immediate's range. -/
theorem test_witness_immediates : (0xFFFF0010#32).extractLsb' 16 16 = 0xFFFF#16 ∧
    0xFFFF0010#32 &&& 0x0000FFFF#32 = 0x00000010#32 ∧ (0x00000014#32).extractLsb' 16 16 = 0#16 ∧
    0x00000014#32 &&& 0x0000FFFF#32 = 0x00000014#32 ∧ (0x00200032#32).extractLsb' 16 16 = 0x20#16 ∧
    0x00200032#32 &&& 0x0000FFFF#32 = 0x00000032#32 := by decide
/-- `AttrDecodeMeaning`: 3 bytes left; the value one byte short; exactly enough; the window past ILEN. -/
theorem test_witness_attrDecode : regNat .ILEN { got two with aoff := 17 } < 17 + 4 ∧
    (let s := got (two.take 7); beVal (ibufBytes s 2 2) = 4 ∧ regNat .ILEN s < 0 + 4 + padded 4) ∧
    (let s := got (two.take 8); beVal (ibufBytes s 2 2) = 4 ∧ 0 + 4 + padded 4 ≤ regNat .ILEN s) ∧
    regNat .ILEN { got two with aoff := 0xFFFF } < 0xFFFF + 4 := by decide
/-- `AttrEncodeMeaning`: VLEN wrong; OLEN one too far; OLEN at the last place that fits. -/
theorem test_witness_attrEncode : (staged 0).cfg.Legal ∧
    regNat .VLEN { staged 0 with vlen := 6 } ≠ padded (regNat .ADLEN { staged 0 with vlen := 6 }) ∧
    (regNat .VLEN (staged 2037) = padded (regNat .ADLEN (staged 2037)) ∧
      (staged 2037).cfg.bufBytes < regNat .OLEN (staged 2037) + (4 + padded (regNat .ADLEN (staged 2037)))) ∧
    (regNat .VLEN (staged 2036) = padded (regNat .ADLEN (staged 2036)) ∧
      regNat .OLEN (staged 2036) + (4 + padded (regNat .ADLEN (staged 2036))) ≤ (staged 2036).cfg.bufBytes) := by decide

/-- No list of attributes lies in a section that `attr_decode_all` refuses. -/
theorem no_attrsAt {s : State} {b : Bytes} {off total : Nat} {e : ErrCode}
    (hb : ∀ k, k < total → nth b k = ibuf s (off + k)) (ht : total ≤ b.length) (h : attrDecodeAll b total = .error e) :
    ∀ es, ¬AttrsAt s off (off + total) es := by
  intro es hes
  obtain ⟨as, has, _⟩ := attrsIn_of_attrsAt (cur := 0) hb ht hes
  rw [attrDecodeAll_ok.2 ⟨ht, has⟩] at h
  cases h

/-- `AttrDecodeAllMeaning`: two attributes in 20 bytes, at the last place they fit. -/
theorem test_witness_attrDecodeAll_at : AttrsAt (got two) 0 (0 + 20) twoEntries := by
  refine ⟨?_, ?_, ?_, ?_, ?_, ?_, ?_, ?_, ?_⟩ <;> first | decide | rfl
theorem test_witness_attrDecodeAll : (let s := { got two with totlen := 20 }; regNat .TOTLEN s ≤ regNat .ILEN s - 0) ∧
    twoEntries.length ≤ { Config.default with atabEntries := 2 }.atabEntries ∧
    (oneEntry two).cfg.atabEntries < twoEntries.length ∧
    ¬(let s := { got two with totlen := 21 }; regNat .TOTLEN s ≤ regNat .ILEN s - 0) ∧
    (let s := got []; regNat .TOTLEN s ≤ regNat .ILEN s - regNat .AOFF s) := by decide
theorem test_witness_attrDecodeAll_empty : AttrsAt (got []) 0 (0 + 0) [] := rfl
/-- A section length that is no multiple of 4: no list of attributes fills it (T2.6 j). -/
theorem test_witness_attrDecodeAll_none : ∀ es, ¬AttrsAt (got two) 0 (0 + 10) es :=
  no_attrsAt (b := two) (by decide) (by decide) (e := .shortBuffer) (by decide)
/-- `AttrGetMeaning`: the last valid index and the first that is not. -/
theorem test_witness_attrGet : (1#16).toNat < regNat .ACOUNT (tabled twoEntries State.reset) ∧
    regNat .ACOUNT (tabled twoEntries State.reset) ≤ (2#16).toNat ∧ regNat .ACOUNT State.reset ≤ (0#16).toNat := by decide
/-- `XmaSerializeMeaning`. -/
theorem test_witness_xmaSerialize : regRead .XFAM { State.reset with xfam := 1 } = 1#32 ∧
    regRead .XFAM State.reset ≠ 1#32 ∧ regRead .XFAM { State.reset with xfam := 2 } ≠ 1#32 := by decide
/-- `XmaDeserializeMeaning`: 7 bytes; 8 bytes of another family; 8 bytes of IPv4. -/
theorem test_witness_xmaDeserialize : regNat .ILEN (got (xma.take 7)) < 0 + 8 ∧
    (0 + 8 ≤ regNat .ILEN (got (0x00 :: 0x02 :: xma.drop 2)) ∧ ibuf (got (0x00 :: 0x02 :: xma.drop 2)) (0 + 1) ≠ 0x01) ∧
    (0 + 8 ≤ regNat .ILEN (got xma) ∧ ibuf (got xma) (0 + 1) = 0x01) := by decide
/-- `MsgDecodeMeaning`: 19 bytes; a wrong cookie enforced; a section one byte short; RESP whole, and with room for one. -/
theorem test_witness_msgDecode : regNat .ILEN (got (resp.take 19)) < 20 ∧
    (20 ≤ regNat .ILEN (strict badCookie) ∧ ibufBytes (strict badCookie) 4 4 ≠ [0x21, 0x12, 0xA4, 0x42]) ∧
    (let s := got (resp.take 31); regNat .ILEN s < 20 + beVal (ibufBytes s 2 2)) ∧
    (let s := strict resp; 20 + beVal (ibufBytes s 2 2) ≤ regNat .ILEN s ∧
      ibufBytes s 4 4 = [0x21, 0x12, 0xA4, 0x42]) ∧ 1 ≤ (oneEntry resp).cfg.atabEntries := by decide
theorem test_witness_msgDecode_at : AttrsAt (strict resp) 20 (20 + 12) [⟨0x0020, 8, 24⟩] := by
  refine ⟨?_, ?_, ?_, ?_, ?_⟩ <;> first | decide | rfl
/-- T2.10 e: the section length cuts the attribute. -/
theorem test_witness_msgDecode_none : ∀ es, ¬AttrsAt (got ([0x00, 0x01, 0x00, 0x06, 0x21, 0x12, 0xA4, 0x42] ++ tx ++
    [0x12, 0x34, 0x00, 0x02, 0xAA, 0xBB, 0x00, 0x00])) 20 (20 + 6) es :=
  no_attrsAt (b := [0x12, 0x34, 0x00, 0x02, 0xAA, 0xBB, 0x00, 0x00]) (by decide) (by decide) (e := .shortBuffer)
    (by decide)
/-- The same message with its two attributes and room for one (T2.10 g). -/
theorem test_witness_msgDecode_capacity :
    AttrsAt (oneEntry ([0x00, 0x01, 0x00, 0x14, 0x21, 0x12, 0xA4, 0x42] ++ tx ++ two)) 20 (20 + 20)
      [⟨0x0006, 4, 24⟩, ⟨0x8022, 6, 32⟩] ∧ (oneEntry two).cfg.atabEntries < 2 := by
  refine ⟨⟨?_, ?_, ?_, ?_, ?_, ?_, ?_, ?_, ?_⟩, ?_⟩ <;> first | decide | rfl
/-- `MsgEncodeMeaning`: OLEN 19 and 20, and an attribute encoded behind the header. -/
theorem test_witness_msgEncode : regNat .OLEN { withHdr with olen := 19 } < 20 ∧
    20 ≤ regNat .OLEN { withHdr with olen := 20 } ∧ attrsEncode [] = .ok [] ∧
    (let s := memWrite 0x2014 ([0x00, 0x20, 0x00, 0x08] ++ xma) { withHdr with olen := 32 }
     attrsEncode [⟨0x0020, 8, 8, xma⟩] = .ok ([0x00, 0x20, 0x00, 0x08] ++ xma) ∧ regNat .OLEN s = 20 + 12 ∧
      obufBytes s 20 12 = [0x00, 0x20, 0x00, 0x08] ++ xma) := by decide
/-- `FindAttrMeaning`: the type at index 1 and not before; and a type that is not there. -/
theorem test_witness_findAttr : (let s := tabled twoEntries State.reset
    1 < regNat .ACOUNT s ∧ (atabAt s 1).type = 0x8022 ∧ (∀ j, j < 1 → (atabAt s j).type ≠ 0x8022) ∧
      ∀ i, i < regNat .ACOUNT s → (atabAt s i).type ≠ 0x0020) := by decide
/-- `ExtractXmaMeaning`: each clause, the lengths at their boundaries. -/
theorem test_witness_extractXma : regRead .HTYPE State.reset ≠ 0x0101#32 ∧
    (let s := { State.reset with htype := 0x0101 }; regRead .HTYPE s = 0x0101#32 ∧
      ∀ i, i < regNat .ACOUNT s → (atabAt s i).type ≠ 0x0020) ∧
    (let s := tabled [⟨0x0020, 7, 24⟩] decoded; (atabAt s 0).type = 0x0020 ∧ (atabAt s 0).dlen.toNat < 8) ∧
    (let s := { decoded with ilen := 31 }; (atabAt s 0).type = 0x0020 ∧ 8 ≤ (atabAt s 0).dlen.toNat ∧
      regNat .ILEN s < (atabAt s 0).voff.toNat + 8) ∧
    (let s := memWrite 0x1019 [0x02] decoded; 24 + 8 ≤ regNat .ILEN s ∧ ibuf s (24 + 1) ≠ 0x01) ∧
    (regRead .HTYPE decoded = 0x0101#32 ∧ 0 < regNat .ACOUNT decoded ∧ (atabAt decoded 0).voff.toNat = 24 ∧
      24 + 8 ≤ regNat .ILEN decoded ∧ ibuf decoded (24 + 1) = 0x01) := by decide

/-- `HeaderRoundTrips`: a header, a prefix of exactly 20 bytes, and one of 19. -/
theorem test_witness_header : Header.Valid ⟨0x0111, 4, 0xDEADBEEF, tx⟩ ∧ 20 ≤ req.length ∧ (req.take 19).length < 20 := by
  decide
/-- `AttributeRoundTrips`: attributes of lengths 4 and 6, and a buffer one byte short. -/
theorem test_witness_attribute : attrValid ⟨0x0006, 4, 4, [0xAA, 0xBB, 0xCC, 0xDD]⟩ ∧
    attrValid ⟨0x8022, 6, 8, [0x11, 0x22, 0x33, 0x44, 0x55, 0x66, 0x00, 0x00]⟩ ∧ 4 ≤ (two.take 7).length ∧
    (two.take 7).length < 4 + padded (beVal (slice (two.take 7) 2 4)) := by decide
/-- T1.4: the two attributes of TWO. -/
theorem test_decodeAll_two : attrDecodeAll two 20 = .ok [⟨0x0006, 4, 4, [0xAA, 0xBB, 0xCC, 0xDD]⟩,
    ⟨0x8022, 6, 8, [0x11, 0x22, 0x33, 0x44, 0x55, 0x66, 0x00, 0x00]⟩] := by decide
/-- `MessageDecodesFromItsEncoding`. -/
theorem test_witness_message : (let m : Message := ⟨⟨0x0101, 0, 0x2112A442, tx⟩, [⟨0x0020, 8, 8, xma⟩]⟩
    m.header.Valid ∧ (∀ a ∈ m.attrs, attrValid a) ∧ (m.attrs.map (fun a => 4 + a.plen)).sum ≤ 0xFFFF) := by decide
/-- `MsgDecodeComputesPureDecode` and `ExtractAfterDecodeComputesPureExtract`: a message, with the cookie enforced, and
with room for exactly its attributes. -/
theorem test_witness_pureDecode : (let s := { strict resp with cfg := (oneEntry resp).cfg }
    ibufBytes s 4 4 = [0x21, 0x12, 0xA4, 0x42] ∧
      msgDecode (received s) = .ok ⟨⟨0x0101, 12, 0x2112A442, tx⟩, [⟨0x0020, 8, 8, xma⟩]⟩ ∧
      [Attr.mk 0x0020 8 8 xma].length ≤ s.cfg.atabEntries) ∧
    msgDecode (received (got (resp.take 31))) = .error .shortBuffer := by decide
/-- `EncodeCommandsBuildTheMessage`: HDR_ENCODE, then ATTR_ENCODE of the staged attribute of T2.5 a. -/
theorem test_witness_encoded : ∃ s : State, s.cfg.Legal ∧ EncodedSinceHeader s
    [⟨0x8022, 6, 8, [0x11, 0x22, 0x33, 0x44, 0x55, 0x66, 0x00, 0x00]⟩] := by
  obtain ⟨t, h⟩ : ∃ t, exec .hdrEncode (staged 0) = .next t := ⟨_, rfl⟩
  have ht : t = complete false false false (setOlen 20 (memWrite obufBase (hdrEncode (hdrRegs (staged 0))) (staged 0))) := by
    injection h with h; exact h.symm
  have ha : stagedAttr t = ⟨0x8022, 6, 8, [0x11, 0x22, 0x33, 0x44, 0x55, 0x66, 0x00, 0x00]⟩ := by subst ht; decide
  obtain ⟨u, hu, he, hc⟩ : ∃ u, exec .attrEncode t = .next u ∧ u.status.err = 0 ∧ u.cfg.Legal := by
    subst ht; exact ⟨_, rfl, rfl, by decide⟩
  exact ⟨u, hc, ha ▸ EncodedSinceHeader.append (.header h) hu he⟩
/-- The three outcomes of `extract_mapped_address`. -/
theorem test_witness_pureExtract :
    extractMappedAddress ⟨⟨0x0101, 12, 0x2112A442, tx⟩, [⟨0x0020, 8, 8, xma⟩]⟩ =
      .ok (.mapped ⟨1, 0xCB007105, 0xD431⟩) ∧
    extractMappedAddress ⟨⟨0x0111, 0, 0x2112A442, tx⟩, []⟩ = .ok .notApplicable ∧
    extractMappedAddress ⟨⟨0x0101, 0, 0x2112A442, tx⟩, []⟩ = .error .attributeNotFound := by decide

/-- `CommandsRaiseExactlyTheirCodes`. -/
theorem test_witness_raises : ∃ t, exec .msgEncode State.reset = .next t ∧ Raised .lengthMismatch State.reset t ∧
    mayRaise .msgEncode .lengthMismatch = true := ⟨_, rfl, raised_raise _ _, rfl⟩
/-- `CommandsLeaveHostOperandsAlone`: legal parameters, a byte of each buffer, a command outside each list. -/
theorem test_witness_operands : State.reset.cfg.Legal ∧ inBuf State.reset.cfg .IBUF 0x17FF = true ∧
    inBuf State.reset.cfg .OBUF 0x2000 = true ∧ inBuf State.reset.cfg .VBUF 0x37FF = true ∧
    Instr.padLen 0 ∉ [Instr.hdrEncode, .attrEncode, .msgEncode] ∧ Instr.msgEncode ≠ .xmaSerialize ∧
    Instr.findAttr 0 ∉ [Instr.attrDecodeAll, .msgDecode] := by decide
/-- `StickyIsLostOnlyByHostOrReset`: STICKY set, and a write of STATUS without bit 8 on the bus. -/
theorem test_witness_sticky : (let s : State := { State.reset with
      bus := [.access (.write 0x004 32 0xFF)], status := statusRaised .shortBuffer }
    s.status.sticky = true ∧ s.bus = Event.access (.write 0x004 32 0xFF) :: [] ∧
      Event.access (.write 0x004 32 0xFF) ≠ .resetPulse) := by decide
theorem test_witness_sticky_event : ∀ d, (BitVec.ofNat 32 d).getLsbD 8 = true →
    Event.access (.write 0x004 32 0xFF) ≠ .access (.write (State.reset.cfg.hostBase + RegName.STATUS.offset) 32 d) := by
  intro d h he
  injection he with he
  injection he with _ _ he
  subst he
  simp at h
/-- `StepKeepsInvariant`: a state that meets the invariant and has a table, and a step that decodes a message. -/
theorem test_witness_inv : ({ decoded with bus := [cmdWrite Config.default 0x33] } : State).Inv where
  legal    := by decide
  memWf    := by decide
  mapped   := by decide
  ilen     := by decide
  olen     := by decide
  vlen     := by decide
  acount   := by decide
  atabSize := by decide
  entries  := by decide
  status   := by decide
theorem test_witness_inv_step : (match step { decoded with bus := [cmdWrite Config.default 0x33] } with
    | .next t => some (t.status.found, t.bus)
    | _ => none) = some (true, []) := by decide
/-- `StepKeepsStatusDescribingCmd`: a state after an error, and a step from it. -/
theorem test_witness_describes : StatusDescribesCmd { State.reset with cmd := 0x31, status := statusRaised .lengthMismatch } :=
  ⟨fun h => absurd h (by decide), fun h => absurd h (by decide), fun h => absurd h (by decide),
    fun _ => .inr ⟨.msgEncode, .lengthMismatch, by decide, rfl, rfl⟩⟩
/-- `StepKeepsParametersAndOrder`. -/
theorem test_witness_step : step State.reset = .next State.reset := rfl
/-- `CommandsDoNotDependOnStatus`: a command that raises an error. -/
theorem test_witness_error : ((after 0x31 State.reset).map (fun t => t.status.err)) = some 6 := by decide
/-- `CommandsReadOnlyTheirOperands`: two memories that differ in a byte of OBUF, and in a byte of IBUF from ILEN on. -/
theorem test_witness_readOnly : (let s := got req
    let m := memPoke (memPoke s.mem 0x2000 0xFF) 0x1014 0xFF
    (∀ a, a < 20 → byteAt { s with mem := m } (0x1000 + a) = byteAt s (0x1000 + a)) ∧ s.vlen.toNat = 0 ∧
      s.ilen.toNat = 20 ∧ m ≠ s.mem) := by decide

end Sys2Proof.Tests
end

section
/-! PROOFS. The opcode map of R82 as mask and match, against the decoder. -/

namespace Sys2Proof.Machine

/-- Decoding inverts encoding; with `decode_ok`, a word and its command determine each other (R82). -/
@[simp] theorem decode_encode (i : Instr) : decode (encode i) = .ok i := by
  rw [decode, rsvOf_encode, opcOf_encode, immOf_encode, if_pos rfl]
  cases i <;> rfl

theorem decode_eq_ok_iff {w : Word} {i : Instr} : decode w = .ok i ↔ w = encode i := by
  constructor
  · intro h
    obtain ⟨hopc, hrsv, himm⟩ := decode_ok h
    exact word_eq_of_fields (by simp [hopc]) (by simp [hrsv]) (by simp [himm])
  · rintro rfl
    exact decode_encode i

/-- The mask of a command without operand keeps the whole word, which then has IMM16 = 0 (R82). -/
theorem and_fullMask_eq_opc_iff {w : Word} {i : Instr} (h : i.imm = 0) :
    w &&& 0xFFFFFFFF#32 = i.opc.setWidth 32 ↔ w = encode i := by
  have hfull : w &&& 0xFFFFFFFF#32 = w := BitVec.and_allOnes
  have hword : encode i = i.opc.setWidth 32 := by
    have := i.opc.isLt
    apply BitVec.eq_of_toNat_eq
    rw [encode_toNat, h, BitVec.toNat_setWidth]
    simp
    omega
  rw [hfull, hword]

theorem toNat_and_lowMask (w : Word) : (w &&& 0x0000FFFF#32).toNat = w.toNat % 65536 :=
  Nat.and_two_pow_sub_one_eq_mod w.toNat 16

/-- The mask of a command with an operand keeps OPC and RSV, so IMM16 is free (R81, R82). -/
theorem and_lowMask_eq_opc_iff {w : Word} {i : Instr} (h : i.imm = immOf w) :
    w &&& 0x0000FFFF#32 = i.opc.setWidth 32 ↔ w = encode i := by
  have := i.opc.isLt
  have := w.isLt
  rw [← BitVec.toNat_inj, ← BitVec.toNat_inj, toNat_and_lowMask, BitVec.toNat_setWidth, encode_toNat, h, immOf_toNat]
  omega

/-- The two kinds of rows of the opcode map (R82): a full mask for a command that takes no operand, the low half for one
that does; the match is the opcode in either. -/
theorem opcodeRow_kinds {row : OpcodeRow} (hrow : row ∈ opcodeRows) (n : Half) :
    row.pattern = (row.instr n).opc.setWidth 32 ∧
      (row.mask = 0xFFFFFFFF#32 ∧ (row.instr n).imm = 0 ∨ row.mask = 0x0000FFFF#32 ∧ (row.instr n).imm = n) := by
  revert row
  simp [opcodeRows, Instr.opc, Instr.imm]

theorem exists_opcodeRow (i : Instr) : ∃ row ∈ opcodeRows, i = row.instr i.imm := by
  cases i <;> simp [opcodeRows, Instr.imm]

theorem opcodeRow_matches_iff {row : OpcodeRow} (hrow : row ∈ opcodeRows) (w : Word) :
    w &&& row.mask = row.pattern ↔ w = encode (row.instr (immOf w)) := by
  obtain ⟨hpat, ⟨hmask, himm⟩ | ⟨hmask, himm⟩⟩ := opcodeRow_kinds hrow (immOf w)
  · rw [hpat, hmask, and_fullMask_eq_opc_iff himm]
  · rw [hpat, hmask, and_lowMask_eq_opc_iff himm]

/-- Settles O5: a row matches a word exactly when the word is the encoding of the row's command, and every command has a
row. -/
theorem opcodeMapSelectsCommand : Obligations.OpcodeMapSelectsCommand := by
  intro w i
  rw [decode_eq_ok_iff]
  constructor
  · rintro rfl
    obtain ⟨row, hrow, hi⟩ := exists_opcodeRow i
    have hinstr : i = row.instr (immOf (encode i)) := by rwa [immOf_encode]
    exact ⟨row, hrow, (opcodeRow_matches_iff hrow _).mpr (congrArg encode hinstr), hinstr⟩
  · rintro ⟨row, hrow, hmatch, rfl⟩
    exact (opcodeRow_matches_iff hrow w).mp hmatch

end Sys2Proof.Machine
end

section
/-! PROOFS. The Header Codec (R100 to R106): the round trips of its pure functions, HDR_DECODE and HDR_ENCODE. -/

namespace Sys2Proof.Machine

/-! ## Slices and big-endian fields -/

theorem slice_append_slice (b : Bytes) {i j k : Nat} (hij : i ≤ j) (hjk : j ≤ k) :
    slice b i j ++ slice b j k = slice b i k := by
  have hskip : (b.take k).drop j = ((b.take k).drop i).drop (j - i) := by rw [List.drop_drop, Nat.add_sub_cancel' hij]
  have hcut : (b.take j).drop i = ((b.take k).drop i).take (j - i) := by
    rw [List.take_drop, Nat.add_sub_cancel' hij, List.take_take, Nat.min_eq_left hjk]
  rw [slice, slice, slice, hskip, hcut, List.take_append_drop]

theorem slice_two {b : Bytes} {i : Nat} (h : i + 2 ≤ b.length) : slice b i (i + 2) = [nth b i, nth b (i + 1)] := by
  have hnth : ∀ {j}, (hj : j < b.length) → nth b j = b[j] := fun hj => by simp [nth, hj]
  rw [slice, List.drop_take, Nat.add_sub_cancel_left, List.drop_eq_getElem_cons (by omega),
    List.drop_eq_getElem_cons (by omega), hnth, hnth]
  rfl

/-- A 16-bit field read from a sequence is written back as the bytes it came from (R8). -/
theorem tobe16_be16_nth {b : Bytes} {i : Nat} (h : i + 2 ≤ b.length) :
    tobe16 (be16 (nth b i) (nth b (i + 1))) = slice b i (i + 2) := by
  rw [tobe16_be16, slice_two h]

theorem tobe32_be32_nth {b : Bytes} {i : Nat} (h : i + 4 ≤ b.length) :
    tobe32 (be32 (nth b i) (nth b (i + 1)) (nth b (i + 2)) (nth b (i + 3))) = slice b i (i + 4) := by
  rw [tobe32_be32, ← slice_append_slice b (Nat.le_add_right i 2) (Nat.le_add_right (i + 2) 2),
    slice_two (by omega), slice_two (by omega)]
  rfl

/-! ## `hdr_decode` and `hdr_encode` (R106) -/

theorem hdrDecode_hdrEncode {h : Header} (hv : h.Valid) : hdrDecode (hdrEncode h) = .ok h := by
  have hlen := hdrEncode_length hv
  have hall : (hdrEncode h).take 20 = hdrEncode h := List.take_of_length_le hlen.le
  rw [hdrDecode_ok hlen.ge, slice, hall]
  obtain ⟨type, length, cookie, txid⟩ := h
  congr
  · exact be16_tobe16 type
  · exact be16_tobe16 length
  · exact be32_tobe32 cookie

/-- The four fields are the consecutive slices of the first 20 bytes (R85). -/
theorem hdrEncode_of_hdrDecode {b : Bytes} {h : Header} (hb : 20 ≤ b.length) (hd : hdrDecode b = .ok h) :
    hdrEncode h = slice b 0 20 := by
  rw [hdrDecode_ok hb] at hd
  injection hd with hd
  subst hd
  calc
    _ = slice b 0 2 ++ slice b 2 4 ++ slice b 4 8 ++ slice b 8 20 := by
      rw [hdrEncode, tobe16_be16_nth (i := 0) (by omega), tobe16_be16_nth (i := 2) (by omega),
        tobe32_be32_nth (i := 4) (by omega)]
    _ = slice b 0 20 := by simp [slice_append_slice]

/-- Settles O29: the fields are the consecutive slices of 20 bytes, each read back as it was written. -/
theorem headerRoundTrips : Obligations.HeaderRoundTrips :=
  ⟨fun _ => hdrDecode_hdrEncode, fun _ hb => ⟨_, hdrDecode_ok hb, hdrEncode_of_hdrDecode hb (hdrDecode_ok hb)⟩,
    fun _ => hdrDecode_short⟩

/-! ## HDR_DECODE (R104) -/

theorem hdrCheck_wrongCookie {c : Config} {h : Header} (he : c.enforceCookie = true) (hc : cookieOk h = false) :
    hdrCheck c h = .error .invalidCookie := if_pos ⟨he, hc⟩

theorem hdrCheck_accepts {c : Config} {h : Header} (hc : c.enforceCookie = true → cookieOk h = true) :
    hdrCheck c h = .ok h := if_neg fun ⟨he, hf⟩ => by simp [hc he] at hf

theorem exec_hdrDecode_shortBuffer {s : State} (h : s.ilen.toNat < 20) :
    exec .hdrDecode s = .next (raise .shortBuffer s) := by
  have hb : (received s).length < 20 := by simpa using h
  simp only [exec, execHdrDecode, hdrDecode_short hb, settle_error]

theorem exec_hdrDecode_invalidCookie {s : State} (h : 20 ≤ s.ilen.toNat) (he : s.cfg.enforceCookie = true)
    (hc : cookieOk (ibufHeader s) = false) : exec .hdrDecode s = .next (raise .invalidCookie s) := by
  simp only [exec, execHdrDecode, hdr_received h, hdrCheck_wrongCookie he hc, settle_error]

theorem exec_hdrDecode_completes {s : State} (h : 20 ≤ s.ilen.toNat)
    (hc : s.cfg.enforceCookie = true → cookieOk (ibufHeader s) = true) :
    exec .hdrDecode s = .next (complete false false (cookieOk (ibufHeader s)) (setHdrRegs (ibufHeader s) s)) := by
  simp only [exec, execHdrDecode, hdr_received h, hdrCheck_accepts hc, settle_ok]

theorem flagBits_cookieOk (c : Bool) : flagBits false false c = if c then flagCookieOk else 0#32 := by
  cases c <;> rfl

/-- Settles O15: the three outcomes of HDR_DECODE, by the number of received bytes and the cookie. -/
theorem hdrDecodeMeaning : Obligations.HdrDecodeMeaning := by
  refine ⟨decode_encode .hdrDecode, fun s => ⟨fun hlen => ?short, fun hlen he hc => ?wrong, fun hlen hc => ?done⟩⟩
  all_goals rw [regNat_ILEN] at hlen
  case short => exact ⟨_, exec_hdrDecode_shortBuffer hlen, raised_raise _ s⟩
  case wrong =>
    rw [ne_eq, ← cookieOk_iff, Bool.not_eq_true] at hc
    exact ⟨_, exec_hdrDecode_invalidCookie hlen he hc, raised_raise _ s⟩
  case done =>
    simp only [← cookieOk_iff, ← flagBits_cookieOk] at hc ⊢
    refine ⟨_, exec_hdrDecode_completes hlen hc, hdrRegs_from hlen fun r hr => ?_, completedWith_complete rfl _ _ _,
      fun r hr => ?_, fun _ => rfl, fun _ => rfl, rfl, rfl, rfl, rfl⟩
    · exact regRead_complete (by rintro rfl; simp [headerRegs] at hr) _ _ _ _
    · obtain ⟨hstatus, hhdr⟩ := List.ne_and_not_mem_of_not_mem_cons hr
      rw [regRead_complete hstatus, regRead_setHdrRegs hhdr]

/-! ## HDR_ENCODE (R105) -/

/-- Everything HDR_ENCODE does: it has no error (R105). -/
theorem exec_hdrEncode (s : State) : exec .hdrEncode s =
    .next (complete false false false (setOlen 20 (memWrite obufBase (hdrEncode (hdrRegs s)) s))) := rfl

/-- Settles O16: OBUF holds the encoding of the header registers, and the other writes are OLEN and STATUS. -/
theorem hdrEncodeMeaning : Obligations.HdrEncodeMeaning := by
  refine ⟨decode_encode .hdrEncode, fun s => ⟨_, exec_hdrEncode s, ?inObuf, ?olen, completedWith_complete ?status _ _ _,
    fun r hr => ?regs, fun a ha => ?bytes, fun i => ?table, ?model⟩⟩
  case inObuf =>
    rw [regNat_HLEN]
    have hlen : { hdrRegs s with length := s.hlen } = hdrRegs s := rfl
    exact hdrInObuf fun _ _ => by rw [hlen]; exact obufBytes_congr (by simp) (by simp)
  case olen => simp
  case status => simp
  case regs =>
    simp only [List.mem_cons, List.not_mem_nil, or_false, not_or] at hr
    obtain ⟨hstatus, holen⟩ := hr
    rw [regRead_complete hstatus, regRead_setOlen holen, regRead_memWrite]
  case bytes =>
    rw [byteAt_complete, byteAt_setOlen, byteAt_memWrite, hdrEncode_length (hdrRegs_valid s)]
    exact if_neg ha
  case table => simp
  case model => simp [SameModelFields]

end Sys2Proof.Machine
end

section
/-! PROOFS. The Attribute Codec (R120 to R131): padding, the round trips of its pure functions, and its five commands. -/

namespace Sys2Proof.Machine

/-! ## Padding (R120, R121) -/

/-- Settles O28: `pad4` is `4 * ceil(n / 4)`, from which each bound follows. -/
theorem paddingLaw : Obligations.PaddingLaw := by
  refine ⟨fun n => ?_, by decide, by decide, by decide⟩
  have hceil : pad4 n = 4 * ((n + 3) / 4) := pad4_eq_padded n
  refine ⟨by omega, by omega, by omega, by omega, hceil, rfl, by omega⟩

theorem regNat_APLEN_of_aplenOf {t : State} {n : Half} (h : t.aplen = aplenOf n) : regNat .APLEN t = padded n.toNat := by
  rw [regNat_APLEN, h, aplenOf_toNat, pad4_eq_padded]

/-! ## `attr_encode` and `attr_decode` (R123, R124, R126) -/

/-- The encoding of an attribute that is valid (R86). -/
def attrBytes (a : Attr) : Bytes := tobe16 a.type ++ tobe16 a.dlen ++ a.value

theorem attrEncode_valid {a : Attr} (h : attrValid a) : attrEncode a = .ok (attrBytes a) :=
  attrEncode_ok (h.2.trans h.1)

theorem attrBytes_length {a : Attr} (h : attrValid a) : (attrBytes a).length = 4 + a.plen := by
  simp [attrBytes, h.2]
  omega

theorem slice_attrBytes_type (a : Attr) : slice (attrBytes a) 0 2 = tobe16 a.type := rfl

theorem slice_attrBytes_dlen (a : Attr) : slice (attrBytes a) 2 4 = tobe16 a.dlen := rfl

theorem slice_attrBytes_append_value {a : Attr} (h : attrValid a) (rest : Bytes) :
    slice (attrBytes a ++ rest) 4 (4 + a.plen) = a.value := by
  rw [slice, List.take_left' (attrBytes_length h)]
  rfl

theorem slice_attrBytes_value {a : Attr} (h : attrValid a) : slice (attrBytes a) 4 (4 + a.plen) = a.value := by
  simpa using slice_attrBytes_append_value h []

/-- An attribute decodes from its encoding, whatever follows it: the decoder stops after the padding (R123). -/
theorem attrDecode_attrBytes_append {a : Attr} (h : attrValid a) (rest : Bytes) :
    attrDecode (attrBytes a ++ rest) = .ok a := by
  have htype : be16 (nth (attrBytes a ++ rest) 0) (nth (attrBytes a ++ rest) 1) = a.type := be16_tobe16 a.type
  have hdlen : be16 (nth (attrBytes a ++ rest) 2) (nth (attrBytes a ++ rest) 3) = a.dlen := be16_tobe16 a.dlen
  have hplen : pad4 a.dlen.toNat = a.plen := h.1.symm
  rw [attrDecode_ok (by simp [hdlen, hplen, attrBytes_length h]), htype, hdlen, hplen, slice_attrBytes_append_value h]

theorem attrDecode_overrun {b : Bytes} (h4 : 4 ≤ b.length) (h : b.length < 4 + padded (beVal (slice b 2 4))) :
    attrDecode b = .error .shortBuffer := by
  rw [slice_two h4, beVal_two, ← pad4_eq_padded] at h
  exact attrDecode_short (.inr h)

/-! ## Lists of attributes (R125, R126) -/

theorem attrsEncode_valid {as : List Attr} (h : ∀ a ∈ as, attrValid a) :
    attrsEncode as = .ok (as.flatMap attrBytes) := by
  induction as with
  | nil => rfl
  | cons a as ih =>
    obtain ⟨ha, has⟩ := List.forall_mem_cons.1 h
    simp [attrsEncode, attrEncode_valid ha, ih has]

/-- The encodings of valid attributes, one after the other, are that list of attributes at the end of any sequence. -/
theorem attrsIn_flatMap_attrBytes (before : Bytes) {as : List Attr} (h : ∀ a ∈ as, attrValid a) :
    AttrsIn (before ++ as.flatMap attrBytes) (before ++ as.flatMap attrBytes).length before.length as := by
  induction as generalizing before with
  | nil => simp [AttrsIn]
  | cons a as ih =>
    obtain ⟨ha, has⟩ := List.forall_mem_cons.1 h
    have hrest := ih (before ++ attrBytes a) has
    rw [List.length_append (bs := attrBytes a), attrBytes_length ha, List.append_assoc, ← Nat.add_assoc] at hrest
    refine ⟨?_, hrest⟩
    rw [slice, List.take_length, List.drop_left, List.flatMap_cons]
    exact attrDecode_attrBytes_append ha _

theorem attrDecodeAll_flatMap_attrBytes {as : List Attr} (h : ∀ a ∈ as, attrValid a) :
    attrDecodeAll (as.flatMap attrBytes) (as.flatMap attrBytes).length = .ok as :=
  attrDecodeAll_ok.2 ⟨le_rfl, attrsIn_flatMap_attrBytes [] h⟩

/-- Settles O30: a valid attribute is read back from its bytes whatever follows them, and so is each attribute of a
list in turn. -/
theorem attributeRoundTrips : Obligations.AttributeRoundTrips := by
  refine ⟨fun a ha => ⟨_, attrEncode_valid ha, ?one⟩,
    fun as has => ⟨_, attrsEncode_valid has, attrDecodeAll_flatMap_attrBytes has⟩,
    fun _ => attrDecode_overrun, fun a a' ha ha' h4 h6 => ?two⟩
  case one => simpa using attrDecode_attrBytes_append ha []
  case two =>
    have hvalid : ∀ x ∈ [a, a'], attrValid x := List.forall_mem_cons.2 ⟨ha, List.forall_mem_singleton.2 ha'⟩
    have hlen : ([a, a'].flatMap attrBytes).length = 20 := by
      simp [attrBytes_length ha, attrBytes_length ha', ha.1, ha'.1, h4, h6, pad4]
    exact ⟨_, attrsEncode_valid hvalid, hlen, hlen ▸ attrDecodeAll_flatMap_attrBytes hvalid⟩

/-! ## Command words with an operand, and frames of a command that completes -/

/-- A word is its command's when its low half is the opcode and its high half the operand (R81, R82). -/
theorem decode_of_halves {w : Word} {i : Instr} (himm : w.extractLsb' 16 16 = i.imm)
    (hlow : w &&& 0x0000FFFF#32 = i.opc.setWidth 32) : decode w = .ok i :=
  decode_eq_ok_iff.2 ((and_lowMask_eq_opc_iff himm.symm).1 hlow)

/-- `complete` adds STATUS to the registers that a command's own writes may change (R204). -/
theorem sameRegsExcept_complete {rs : List RegName} {s t : State} (h : SameRegsExcept rs s t) (f n c : Bool) :
    SameRegsExcept (.STATUS :: rs) s (complete f n c t) := by
  intro r hr
  obtain ⟨hstatus, hrest⟩ := List.ne_and_not_mem_of_not_mem_cons hr
  rw [regRead_complete hstatus, h r hrest]

theorem sameRegsExcept_setAttrRegs (type dlen voff : Half) (s : State) :
    SameRegsExcept attrRegs s (setAttrRegs type dlen voff s) := fun _ hr => regRead_setAttrRegs hr _ _ _ _

/-! ## PAD_LEN (R127) -/

/-- Everything PAD_LEN does: it has no error (R127). -/
theorem exec_padLen (n : Half) (s : State) :
    exec (.padLen n) s = .next (complete false false false (setAplen (aplenOf n) s)) := rfl

/-- Settles O17: PAD_LEN writes APLEN and completes. -/
theorem padLenMeaning : Obligations.PadLenMeaning := by
  intro n w himm hlow
  refine ⟨decode_of_halves himm hlow, fun s => ⟨_, exec_padLen n s, regNat_APLEN_of_aplenOf rfl,
    completedWith_complete rfl _ _ _, sameRegsExcept_complete (fun r hr => ?_) _ _ _, fun _ => rfl, fun _ => rfl,
    rfl, rfl, rfl, rfl⟩⟩
  exact regRead_setAplen (List.ne_of_not_mem_cons hr) _ s

/-! ## ATTR_DECODE (R128) -/

/-- The 16-bit field at an IBUF offset (R8). -/
def ibufHalf (s : State) (off : Nat) : Half := be16 (ibuf s off) (ibuf s (off + 1))

theorem beVal_ibufBytes_two (s : State) (off : Nat) : beVal (ibufBytes s off 2) = (ibufHalf s off).toNat := by
  rw [ibufBytes_two, beVal_two, ibufHalf]

theorem attrWindow_half {s : State} {k : Nat} (h : s.aoff.toNat + k + 1 < s.ilen.toNat) :
    be16 (nth (attrWindow s) k) (nth (attrWindow s) (k + 1)) = ibufHalf s (s.aoff.toNat + k) := by
  rw [nth_attrWindow (by omega), nth_attrWindow (by omega), ibufHalf, Nat.add_assoc]

theorem exec_attrDecode_shortBuffer {s : State} (h : s.ilen.toNat < s.aoff.toNat + 4 ∨
    s.ilen.toNat < s.aoff.toNat + 4 + padded (ibufHalf s (s.aoff.toNat + 2)).toNat) :
    exec .attrDecode s = .next (raise .shortBuffer s) := by
  have hshort : attrDecode (attrWindow s) = .error .shortBuffer := by
    apply attrDecode_short
    rw [attrWindow_length]
    by_cases h4 : s.ilen.toNat < s.aoff.toNat + 4
    · left; omega
    · right
      rw [attrWindow_half (k := 2) (by omega), pad4_eq_padded]
      omega
  simp only [exec, execAttrDecode, hshort, settle_error]

theorem exec_attrDecode_completes {s : State}
    (h : s.aoff.toNat + 4 + padded (ibufHalf s (s.aoff.toNat + 2)).toNat ≤ s.ilen.toNat) :
    exec .attrDecode s = .next (complete false false false (setAttrRegs (ibufHalf s s.aoff.toNat)
      (ibufHalf s (s.aoff.toNat + 2)) (BitVec.ofNat 16 (s.aoff.toNat + 4)) s)) := by
  have htype := attrWindow_half (s := s) (k := 0) (by omega)
  have hdlen := attrWindow_half (s := s) (k := 2) (by omega)
  have hok := attrDecode_ok (b := attrWindow s) (by rw [hdlen, pad4_eq_padded, attrWindow_length]; omega)
  simp only [exec, execAttrDecode, hok, settle_ok, htype, hdlen, Nat.add_zero]

/-- Settles O18: the two outcomes of ATTR_DECODE, by the declared length that IBUF holds at AOFF + 2. -/
theorem attrDecodeMeaning : Obligations.AttrDecodeMeaning := by
  refine ⟨decode_encode .attrDecode, fun s => ?_⟩
  simp only [regNat_AOFF, regNat_ILEN, beVal_ibufBytes_two]
  refine ⟨fun hshort => ⟨_, exec_attrDecode_shortBuffer hshort, raised_raise _ s⟩,
    fun hfits => ⟨_, exec_attrDecode_completes hfits, ?type, ?dlen, regNat_APLEN_of_aplenOf rfl, ?voff,
      completedWith_complete rfl _ _ _, sameRegsExcept_complete (sameRegsExcept_setAttrRegs _ _ _ s) _ _ _,
      fun _ => rfl, fun _ => rfl, rfl, rfl, rfl, rfl⟩⟩
  case type => simp
  case dlen => simp
  case voff =>
    have := s.ilen.isLt
    simp
    omega

/-! ## ATTR_ENCODE (R129) -/

@[simp] theorem stagedAttr_type (s : State) : (stagedAttr s).type = s.atype := rfl
@[simp] theorem stagedAttr_dlen (s : State) : (stagedAttr s).dlen = s.adlen := rfl
@[simp] theorem stagedAttr_plen (s : State) : (stagedAttr s).plen = padded s.adlen.toNat := pad4_eq_padded _
@[simp] theorem stagedAttr_value (s : State) : (stagedAttr s).value = vbufBytes s 0 s.vlen.toNat := rfl

theorem stagedAttr_valid {s : State} (h : s.vlen.toNat = padded s.adlen.toNat) : attrValid (stagedAttr s) :=
  ⟨rfl, by rw [stagedAttr, stagedValue_length, h, pad4_eq_padded]⟩

theorem stagedAttr_bytes_length {s : State} (h : s.vlen.toNat = padded s.adlen.toNat) :
    (attrBytes (stagedAttr s)).length = 4 + padded s.adlen.toNat := by
  rw [attrBytes_length (stagedAttr_valid h), stagedAttr_plen]

theorem exec_attrEncode_lengthMismatch {s : State} (h : s.vlen.toNat ≠ padded s.adlen.toNat) :
    exec .attrEncode s = .next (raise .lengthMismatch s) := by
  have hlen : (stagedAttr s).value.length ≠ pad4 (stagedAttr s).dlen.toNat := by
    simpa [stagedAttr, pad4_eq_padded] using h
  simp only [exec, execAttrEncode, attrEncode_mismatch hlen, settle_error]

theorem exec_attrEncode_capacityExceeded {s : State} (h : s.vlen.toNat = padded s.adlen.toNat)
    (hcap : s.cfg.bufBytes < s.olen.toNat + (4 + padded s.adlen.toNat)) :
    exec .attrEncode s = .next (raise .capacityExceeded s) := by
  rw [← stagedAttr_bytes_length h] at hcap
  simp only [exec, execAttrEncode, attrEncode_valid (stagedAttr_valid h), if_pos hcap, settle_error]

theorem exec_attrEncode_completes {s : State} (h : s.vlen.toNat = padded s.adlen.toNat)
    (hcap : s.olen.toNat + (4 + padded s.adlen.toNat) ≤ s.cfg.bufBytes) :
    exec .attrEncode s = .next (complete false false false (setAplen (aplenOf s.adlen)
      (setOlen (BitVec.ofNat 16 (s.olen.toNat + (4 + padded s.adlen.toNat)))
        (memWrite (obufBase + s.olen.toNat) (attrBytes (stagedAttr s)) s)))) := by
  simp only [exec, execAttrEncode, attrEncode_valid (stagedAttr_valid h), stagedAttr_bytes_length h,
    if_neg (Nat.not_lt.2 hcap), settle_ok]

@[simp] theorem obufBytes_complete (f n c : Bool) (s : State) (off len : Nat) :
    obufBytes (complete f n c s) off len = obufBytes s off len := rfl
@[simp] theorem obufBytes_setAplen (p : BitVec 17) (s : State) (off len : Nat) :
    obufBytes (setAplen p s) off len = obufBytes s off len := rfl
@[simp] theorem obufBytes_setOlen (p : Half) (s : State) (off len : Nat) :
    obufBytes (setOlen p s) off len = obufBytes s off len := rfl

/-- OBUF after a byte sequence was written from offset `o` on. -/
theorem obufBytes_memWrite (s : State) (o : Nat) {bs : Bytes} {i n : Nat} (h : i + n ≤ bs.length) :
    obufBytes (memWrite (obufBase + o) bs s) (o + i) n = slice bs i (i + n) := by
  have hi : 0x2000 + (o + i) - (obufBase + o) = i := by simp only [obufBase]; omega
  rw [obuf_memWrite_inside (by simp only [obufBase]; omega) (by simp only [obufBase]; omega), hi]

section
variable {a : Attr} (ha : attrValid a) (s : State) (o : Nat)
include ha

theorem obufBytes_memWrite_attr_type :
    obufBytes (memWrite (obufBase + o) (attrBytes a) s) o 2 = tobe16 a.type :=
  (obufBytes_memWrite s o (i := 0) (by rw [attrBytes_length ha]; omega)).trans (slice_attrBytes_type a)

theorem obufBytes_memWrite_attr_dlen :
    obufBytes (memWrite (obufBase + o) (attrBytes a) s) (o + 2) 2 = tobe16 a.dlen :=
  (obufBytes_memWrite s o (by rw [attrBytes_length ha]; omega)).trans (slice_attrBytes_dlen a)

theorem obufBytes_memWrite_attr_value :
    obufBytes (memWrite (obufBase + o) (attrBytes a) s) (o + 4) a.plen = a.value := by
  rw [obufBytes_memWrite s o (attrBytes_length ha).ge, slice_attrBytes_value ha]

end

/-- Settles O19: the three outcomes of ATTR_ENCODE; the bytes appended are the encoding of the staged attribute. -/
theorem attrEncodeMeaning : Obligations.AttrEncodeMeaning := by
  refine ⟨decode_encode .attrEncode, fun s hlegal => ?_⟩
  simp only [regNat_ADLEN, regNat_OLEN, regNat_VLEN, regNat_ATYPE]
  refine ⟨fun hlen => ⟨_, exec_attrEncode_lengthMismatch hlen, raised_raise _ s⟩,
    fun hlen hcap => ⟨_, exec_attrEncode_capacityExceeded hlen hcap, raised_raise _ s⟩, fun hlen hcap => ?_⟩
  have hvalid := stagedAttr_valid hlen
  have hbytes := stagedAttr_bytes_length hlen
  refine ⟨_, exec_attrEncode_completes hlen hcap, ?type, ?dlen, ?value, fun a ha => ?bytes, ?olen,
    regNat_APLEN_of_aplenOf rfl, completedWith_complete (by simp) _ _ _,
    sameRegsExcept_complete (fun r hr => ?regs) _ _ _, fun _ => by simp, by simp [SameModelFields]⟩
  case type => simp [obufBytes_memWrite_attr_type hvalid, beVal_tobe16]
  case dlen => simp [obufBytes_memWrite_attr_dlen hvalid, beVal_tobe16]
  case value =>
    have hvalue := obufBytes_memWrite_attr_value hvalid s s.olen.toNat
    simpa [hlen] using hvalue
  case bytes =>
    simp only [byteAt_complete, byteAt_setAplen, byteAt_setOlen, byteAt_memWrite, hbytes]
    exact if_neg ha
  case olen =>
    obtain ⟨⟨-, hbuf⟩, -⟩ := hlegal
    simp
    omega
  case regs =>
    simp only [List.mem_cons, List.not_mem_nil, or_false, not_or] at hr
    obtain ⟨holen, haplen⟩ := hr
    rw [regRead_setAplen haplen, regRead_setOlen holen, regRead_memWrite]

/-! ## ATTR_DECODE_ALL (R130) -/

/-- What `attr_decode_all` of the window answers is the list that lies in IBUF (R130, R132). -/
theorem attrsAt_of_attrDecodeAll_window {s : State} {as : List Attr}
    (h : attrDecodeAll (attrWindow s) s.totlen.toNat = .ok as) :
    s.totlen.toNat ≤ s.ilen.toNat - s.aoff.toNat ∧
      AttrsAt s s.aoff.toNat (s.aoff.toNat + s.totlen.toNat) (tableEntries s.aoff.toNat as) := by
  obtain ⟨hlen, hin⟩ := attrDecodeAll_ok.1 h
  have hfits := hlen
  rw [attrWindow_length] at hfits
  have hend : s.aoff.toNat + s.totlen.toNat < 65536 := by
    have := s.ilen.isLt
    have := s.aoff.isLt
    omega
  exact ⟨hfits, attrsAt_of_attrsIn (fun k hk => nth_attrWindow (by omega)) hlen hend hin⟩

/-- A list that lies in IBUF is what `attr_decode_all` of the window answers (R130, R132). -/
theorem attrDecodeAll_window_of_attrsAt {s : State} {es : List AtabEntry}
    (hfits : s.totlen.toNat ≤ s.ilen.toNat - s.aoff.toNat)
    (h : AttrsAt s s.aoff.toNat (s.aoff.toNat + s.totlen.toNat) es) :
    ∃ as, attrDecodeAll (attrWindow s) s.totlen.toNat = .ok as ∧ tableEntries s.aoff.toNat as = es := by
  have hlen : s.totlen.toNat ≤ (attrWindow s).length := by rwa [attrWindow_length]
  obtain ⟨as, hin, hes⟩ := attrsIn_of_attrsAt (cur := 0) (fun k hk => nth_attrWindow (by omega)) hlen h
  exact ⟨as, attrDecodeAll_ok.2 ⟨hlen, hin⟩, hes⟩

theorem exec_attrDecodeAll_shortBuffer {s : State}
    (h : ¬s.totlen.toNat ≤ s.ilen.toNat - s.aoff.toNat ∨
      ∀ es, ¬AttrsAt s s.aoff.toNat (s.aoff.toNat + s.totlen.toNat) es) :
    exec .attrDecodeAll s = .next (raise .shortBuffer s) := by
  have hnone : ∀ as, attrDecodeAll (attrWindow s) s.totlen.toNat ≠ .ok as := by
    intro as has
    obtain ⟨hfits, hat⟩ := attrsAt_of_attrDecodeAll_window has
    exact h.elim (fun hn => hn hfits) (fun hn => hn _ hat)
  simp only [exec, execAttrDecodeAll, attrDecodeAll_error_of hnone, settle_error]

section
variable {s : State} {es : List AtabEntry}

theorem exec_attrDecodeAll_capacityExceeded (hfits : s.totlen.toNat ≤ s.ilen.toNat - s.aoff.toNat)
    (h : AttrsAt s s.aoff.toNat (s.aoff.toNat + s.totlen.toNat) es) (hcap : s.cfg.atabEntries < es.length) :
    exec .attrDecodeAll s = .next (raise .capacityExceeded s) := by
  obtain ⟨as, has, rfl⟩ := attrDecodeAll_window_of_attrsAt hfits h
  rw [tableEntries_length] at hcap
  simp only [exec, execAttrDecodeAll, has, tableOf_error hcap, settle_error]

theorem exec_attrDecodeAll_completes (hfits : s.totlen.toNat ≤ s.ilen.toNat - s.aoff.toNat)
    (h : AttrsAt s s.aoff.toNat (s.aoff.toNat + s.totlen.toNat) es) (hcap : es.length ≤ s.cfg.atabEntries) :
    exec .attrDecodeAll s = .next (complete false false false (setAtab es s)) := by
  obtain ⟨as, has, rfl⟩ := attrDecodeAll_window_of_attrsAt hfits h
  rw [tableEntries_length] at hcap
  simp only [exec, execAttrDecodeAll, has, tableOf_ok hcap, settle_ok]

end

/-- Settles O20: the three outcomes of ATTR_DECODE_ALL, by the list that lies in IBUF and its length. -/
theorem attrDecodeAllMeaning : Obligations.AttrDecodeAllMeaning := by
  refine ⟨decode_encode .attrDecodeAll, fun s => ?_⟩
  simp only [regNat_AOFF, regNat_TOTLEN, regNat_ILEN]
  refine ⟨fun hshort => ⟨_, exec_attrDecodeAll_shortBuffer hshort, raised_raise _ s⟩,
    fun es hfits hat => ⟨fun hcap => ⟨_, exec_attrDecodeAll_capacityExceeded hfits hat hcap, raised_raise _ s⟩,
      fun hcap => ⟨_, exec_attrDecodeAll_completes hfits hat hcap,
        tableIs_of (u := s) ?count ?entries (fun _ => rfl) ?acount, completedWith_complete rfl _ _ _,
        sameRegsExcept_complete (fun r hr => ?regs) _ _ _, fun _ => rfl, rfl, rfl, rfl, rfl⟩⟩⟩
  case count =>
    have := attrsAt_length hat
    have := s.totlen.isLt
    omega
  case entries => exact fun i => atabAt_complete _ _ _ _ i
  case acount => exact regRead_complete (by decide) _ _ _ _
  case regs => exact regRead_setAtab (List.ne_of_not_mem_cons hr) es s

/-! ## ATTR_GET (R131) -/

theorem exec_attrGet_attributeNotFound {s : State} {i : Half} (h : s.acount.toNat ≤ i.toNat) :
    exec (.attrGet i) s = .next (raise .attributeNotFound s) := by
  simp only [exec, execAttrGet, if_pos h, settle_error]

theorem exec_attrGet_completes {s : State} {i : Half} (h : i.toNat < s.acount.toNat) :
    exec (.attrGet i) s = .next (loadEntry (atabAt s i.toNat) s) := by
  simp only [exec, execAttrGet, if_neg (Nat.not_le.2 h), settle_ok]

/-- Settles O21: the two outcomes of ATTR_GET, by the index against ACOUNT. -/
theorem attrGetMeaning : Obligations.AttrGetMeaning := by
  intro i w himm hlow
  refine ⟨decode_of_halves himm hlow, fun s => ?_⟩
  rw [regNat_ACOUNT]
  exact ⟨fun hi => ⟨_, exec_attrGet_attributeNotFound hi, raised_raise _ s⟩,
    fun hi => ⟨_, exec_attrGet_completes hi, attrRegs_load, completedWith_complete rfl _ _ _,
      sameRegsExcept_complete (sameRegsExcept_setAttrRegs _ _ _ s) _ _ _, fun _ => rfl, fun _ => rfl,
      rfl, rfl, rfl, rfl⟩⟩

end Sys2Proof.Machine
end

section
/-! PROOFS. The XOR-Mapped-Address Transform (R150 to R155): its round trip, XMA_SERIALIZE and XMA_DESERIALIZE. -/

namespace Sys2Proof.Machine

/-! ## The XOR on big-endian fields (R153) -/

theorem tobe16_xor (a b : Half) : tobe16 (a ^^^ b) = List.zipWith (· ^^^ ·) (tobe16 a) (tobe16 b) := by
  simp [tobe16, BitVec.extractLsb'_xor]

theorem tobe32_xor (a b : Word) : tobe32 (a ^^^ b) = List.zipWith (· ^^^ ·) (tobe32 a) (tobe32 b) := by
  simp [tobe32, BitVec.extractLsb'_xor]

theorem tobe16_magicHigh : tobe16 magicHigh = [0x21, 0x12] := by decide

theorem tobe32_magicCookie : tobe32 magicCookie = [0x21, 0x12, 0xA4, 0x42] := by decide

/-! ## `xma_serialize` and `xma_deserialize` (R151 to R153) -/

/-- The 8 value bytes of an IPv4 address and port (R87, R151). -/
def xmaBytes (addr : Word) (port : Half) : Bytes :=
  [0x00, 0x01] ++ tobe16 (port ^^^ magicHigh) ++ tobe32 (addr ^^^ magicCookie)

@[simp] theorem xmaBytes_length (addr : Word) (port : Half) : (xmaBytes addr port).length = 8 := rfl

theorem xmaSerialize_ipv4 {a : XorMappedAddr} (h : a.family = familyIPv4) :
    xmaSerialize a = .ok (xmaBytes a.addr a.port) := if_neg (not_not_intro h)

theorem xmaSerialize_otherFamily {a : XorMappedAddr} (h : a.family ≠ familyIPv4) :
    xmaSerialize a = .error .unsupportedAddressFamily := if_pos h

/-- Each field is read back as it was written, and the second XOR undoes the first (R152, R153). -/
theorem xmaDeserialize_xmaBytes (addr : Word) (port : Half) :
    xmaDeserialize (xmaBytes addr port) = .ok ⟨familyIPv4, addr, port⟩ := by
  have hport : be16 (nth (xmaBytes addr port) 2) (nth (xmaBytes addr port) 3) = port ^^^ magicHigh :=
    be16_tobe16 (port ^^^ magicHigh)
  have haddr : be32 (nth (xmaBytes addr port) 4) (nth (xmaBytes addr port) 5) (nth (xmaBytes addr port) 6)
      (nth (xmaBytes addr port) 7) = addr ^^^ magicCookie := be32_tobe32 (addr ^^^ magicCookie)
  have hlen : ¬(xmaBytes addr port).length < xmaValueBytes := Nat.lt_irrefl 8
  have hfamily : ¬nth (xmaBytes addr port) 1 ≠ familyIPv4 := not_not_intro rfl
  rw [xmaDeserialize, if_neg hlen, if_neg hfamily, hport, haddr, xor_cancel_right, xor_cancel_right]

/-- Settles O31: the XOR acts on each octet, and applied twice it gives back the address and the port. -/
theorem addressRoundTrips : Obligations.AddressRoundTrips :=
  ⟨fun addr port => ⟨_, xmaSerialize_ipv4 rfl, xmaBytes_length addr port, xmaDeserialize_xmaBytes addr port⟩,
    fun addr => tobe32_magicCookie ▸ tobe32_xor addr magicCookie,
    fun port => tobe16_magicHigh ▸ tobe16_xor port magicHigh, xor_cancel_right, xor_cancel_right⟩

/-! ## XMA_SERIALIZE (R154) -/

theorem exec_xmaSerialize_unsupportedAddressFamily {s : State} (h : s.xfam ≠ familyIPv4) :
    exec .xmaSerialize s = .next (raise .unsupportedAddressFamily s) := by
  have herror : xmaSerialize (xmaRegs s) = .error .unsupportedAddressFamily := xmaSerialize_otherFamily h
  simp only [exec, execXmaSerialize, herror, settle_error]

theorem exec_xmaSerialize_completes {s : State} (h : s.xfam = familyIPv4) :
    exec .xmaSerialize s =
      .next (complete false false false (setVlen 8 (memWrite vbufBase (xmaBytes s.xaddr s.xport) s))) := by
  have hvalue : xmaSerialize (xmaRegs s) = .ok (xmaBytes s.xaddr s.xport) := xmaSerialize_ipv4 h
  simp only [exec, execXmaSerialize, hvalue, settle_ok]

theorem regRead_XFAM_eq_one_iff {s : State} : regRead .XFAM s = 1#32 ↔ s.xfam = familyIPv4 := by
  have hxfam : (regRead .XFAM s).toNat = s.xfam.toNat := regNat_XFAM s
  rw [← BitVec.toNat_inj, ← BitVec.toNat_inj, hxfam]
  rfl

/-- Part of what was written is read back. -/
theorem memRead_memWrite_slice (s : State) (x : Nat) {bs : Bytes} {i n : Nat} (h : i + n ≤ bs.length) :
    memRead (memWrite x bs s) (x + i) n = slice bs i (i + n) := by
  have hslice := slice_memRead (memWrite x bs s) (a := x) (i := i) h
  rw [memRead_memWrite, Nat.add_sub_cancel_left] at hslice
  exact hslice.symm

@[simp] theorem vbufBytes_complete (f n c : Bool) (s : State) (off len : Nat) :
    vbufBytes (complete f n c s) off len = vbufBytes s off len := rfl
@[simp] theorem vbufBytes_setVlen (p : Half) (s : State) (off len : Nat) :
    vbufBytes (setVlen p s) off len = vbufBytes s off len := rfl

/-- VBUF after a byte sequence was written from its start. -/
theorem vbufBytes_memWrite (s : State) {bs : Bytes} {i n : Nat} (h : i + n ≤ bs.length) :
    vbufBytes (memWrite vbufBase bs s) i n = slice bs i (i + n) := memRead_memWrite_slice s vbufBase h

theorem slice_xmaBytes_family (addr : Word) (port : Half) : slice (xmaBytes addr port) 0 2 = [0x00, 0x01] := rfl

theorem slice_xmaBytes_port (addr : Word) (port : Half) :
    slice (xmaBytes addr port) 2 4 = tobe16 (port ^^^ magicHigh) := rfl

theorem slice_xmaBytes_addr (addr : Word) (port : Half) :
    slice (xmaBytes addr port) 4 8 = tobe32 (addr ^^^ magicCookie) := rfl

/-- Settles O22: the two outcomes of XMA_SERIALIZE, by the family; the bytes staged are the value of the address
registers. -/
theorem xmaSerializeMeaning : Obligations.XmaSerializeMeaning := by
  refine ⟨decode_encode .xmaSerialize, fun s => ?_⟩
  rw [ne_eq, regRead_XFAM_eq_one_iff]
  refine ⟨fun hfam => ⟨_, exec_xmaSerialize_unsupportedAddressFamily hfam, raised_raise _ s⟩,
    fun hfam => ⟨_, exec_xmaSerialize_completes hfam, ?family, ?port, ?addr, fun a ha => ?bytes, ?vlen,
      completedWith_complete (by simp) _ _ _, sameRegsExcept_complete (fun r hr => ?regs) _ _ _, fun _ => by simp,
      by simp [SameModelFields]⟩⟩
  case family =>
    rw [vbufBytes_complete, vbufBytes_setVlen, vbufBytes_memWrite s (by simp), slice_xmaBytes_family]
  case port =>
    rw [vbufBytes_complete, vbufBytes_setVlen, vbufBytes_memWrite s (by simp), slice_xmaBytes_port, beVal_tobe16,
      BitVec.toNat_xor, regNat_XPORT]
    rfl
  case addr =>
    rw [vbufBytes_complete, vbufBytes_setVlen, vbufBytes_memWrite s (by simp), slice_xmaBytes_addr, beVal_tobe32,
      BitVec.toNat_xor, regNat_XADDR]
    rfl
  case bytes =>
    rw [byteAt_complete, byteAt_setVlen, byteAt_memWrite, xmaBytes_length]
    exact if_neg ha
  case vlen => simp
  case regs => rw [regRead_setVlen (List.ne_of_not_mem_cons hr), regRead_memWrite]

/-! ## XMA_DESERIALIZE (R155) -/

/-- The address that the 8 value bytes at an IBUF offset encode, of family IPv4 (R152). -/
def ibufAddress (s : State) (off : Nat) : XorMappedAddr :=
  { family := familyIPv4
    addr := be32 (ibuf s (off + 4)) (ibuf s (off + 5)) (ibuf s (off + 6)) (ibuf s (off + 7)) ^^^ magicCookie
    port := be16 (ibuf s (off + 2)) (ibuf s (off + 3)) ^^^ magicHigh }

theorem exec_xmaDeserialize_shortBuffer {s : State} (h : s.ilen.toNat < s.avoff.toNat + 8) :
    exec .xmaDeserialize s = .next (raise .shortBuffer s) := by
  simp only [exec, execXmaDeserialize, xmaAt_short h, settle_error]

section
variable {s : State} (hlen : s.avoff.toNat + 8 ≤ s.ilen.toNat)
include hlen

theorem exec_xmaDeserialize_unsupportedAddressFamily (hfam : ibuf s (s.avoff.toNat + 1) ≠ familyIPv4) :
    exec .xmaDeserialize s = .next (raise .unsupportedAddressFamily s) := by
  simp only [exec, execXmaDeserialize, xmaAt_family hlen hfam, settle_error]

theorem exec_xmaDeserialize_completes (hfam : ibuf s (s.avoff.toNat + 1) = familyIPv4) :
    exec .xmaDeserialize s =
      .next (complete false false false (setXmaRegs (ibufAddress s s.avoff.toNat) s)) := by
  simp only [exec, execXmaDeserialize, xmaAt_ok hlen hfam, settle_ok, ibufAddress]

end

theorem sameRegsExcept_setXmaRegs (a : XorMappedAddr) (s : State) : SameRegsExcept addressRegs s (setXmaRegs a s) :=
  fun _ hr => regRead_setXmaRegs hr _ _

/-- Settles O23: the three outcomes of XMA_DESERIALIZE, by the number of received bytes and the family byte. -/
theorem xmaDeserializeMeaning : Obligations.XmaDeserializeMeaning := by
  refine ⟨decode_encode .xmaDeserialize, fun s => ?_⟩
  simp only [regNat_AVOFF, regNat_ILEN]
  refine ⟨fun hshort => ⟨_, exec_xmaDeserialize_shortBuffer hshort, raised_raise _ s⟩,
    fun hlen hfam => ⟨_, exec_xmaDeserialize_unsupportedAddressFamily hlen hfam, raised_raise _ s⟩,
    fun hlen hfam => ⟨_, exec_xmaDeserialize_completes hlen hfam, addrRegs_of (u := s) fun r hr => ?address,
      completedWith_complete rfl _ _ _, sameRegsExcept_complete (sameRegsExcept_setXmaRegs _ s) _ _ _, fun _ => rfl,
      fun _ => rfl, rfl, rfl, rfl, rfl⟩⟩
  case address => exact regRead_complete (by rintro rfl; simp [addressRegs] at hr) _ _ _ _

end Sys2Proof.Machine
end

section
/-! PROOFS. Message Assembly (R170 to R178): what MSG_DECODE, FIND_ATTR and EXTRACT_XMA do. -/

namespace Sys2Proof.Machine

/-! ## The attributes section of the received message (R171) -/

theorem sectionDecode_ok {b : Bytes} {h : Header} {as : List Attr} :
    sectionDecode b h = .ok as ↔ 20 + h.length.toNat ≤ b.length ∧
      AttrsIn (slice b 20 b.length) h.length.toNat 0 as := by
  rw [sectionDecode]
  by_cases hlen : b.length < 20 + h.length.toNat
  · simp [hlen]
  · rw [if_neg hlen, attrDecodeAll_ok, slice_length]
    exact and_congr_left fun _ => by omega

theorem sectionDecode_error_of {b : Bytes} {h : Header} (hnone : ∀ as, sectionDecode b h ≠ .ok as) :
    sectionDecode b h = .error .shortBuffer := by
  cases hx : sectionDecode b h with
  | ok as => exact absurd hx (hnone as)
  | error e => rw [sectionDecode_error hx]

theorem ibufHeader_length (s : State) : (ibufHeader s).length = ibufHalf s 2 := rfl

theorem nth_receivedSection {s : State} {k : Nat} (h : 20 + k < s.ilen.toNat) :
    nth (slice (received s) 20 s.ilen.toNat) k = ibuf s (20 + k) := by
  rw [nth_slice h, nth_received h]

/-- What decoding the section answers is the list that lies in IBUF from byte 20 on (R171, R175). -/
theorem attrsAt_of_sectionDecode {s : State} {as : List Attr}
    (h : sectionDecode (received s) (ibufHeader s) = .ok as) :
    20 + (ibufHalf s 2).toNat ≤ s.ilen.toNat ∧
      AttrsAt s 20 (20 + (ibufHalf s 2).toNat) (tableEntries 20 as) := by
  rw [sectionDecode_ok, ibufHeader_length, received_length] at h
  obtain ⟨hfits, hin⟩ := h
  have hilen := s.ilen.isLt
  exact ⟨hfits, attrsAt_of_attrsIn (fun k hk => nth_receivedSection (by omega)) (by simp; omega) (by omega) hin⟩

/-- A list that lies in IBUF from byte 20 on is what decoding the section answers (R171, R175). -/
theorem sectionDecode_of_attrsAt {s : State} {es : List AtabEntry} (hfits : 20 + (ibufHalf s 2).toNat ≤ s.ilen.toNat)
    (h : AttrsAt s 20 (20 + (ibufHalf s 2).toNat) es) :
    ∃ as, sectionDecode (received s) (ibufHeader s) = .ok as ∧ tableEntries 20 as = es := by
  obtain ⟨as, hin, hes⟩ :=
    attrsIn_of_attrsAt (cur := 0) (fun k hk => nth_receivedSection (by omega)) (by simp; omega) h
  refine ⟨as, ?_, hes⟩
  rw [sectionDecode_ok, ibufHeader_length, received_length]
  exact ⟨hfits, hin⟩

/-! ## MSG_DECODE (R175) -/

theorem exec_msgDecode_headerShort {s : State} (h : s.ilen.toNat < 20) :
    exec .msgDecode s = .next (raise .shortBuffer s) := by
  have hb : (received s).length < 20 := by simpa using h
  simp only [exec, execMsgDecode, hdrDecode_short hb, settle_error]

theorem exec_msgDecode_invalidCookie {s : State} (h : 20 ≤ s.ilen.toNat) (he : s.cfg.enforceCookie = true)
    (hc : cookieOk (ibufHeader s) = false) : exec .msgDecode s = .next (raise .invalidCookie s) := by
  simp only [exec, execMsgDecode, hdr_received h, hdrCheck_wrongCookie he hc, settle_error]

section
variable {s : State} (hlen : 20 ≤ s.ilen.toNat) (hc : s.cfg.enforceCookie = true → cookieOk (ibufHeader s) = true)
include hlen hc

theorem exec_msgDecode_sectionShort (h : s.ilen.toNat < 20 + (ibufHalf s 2).toNat ∨
    ∀ es, ¬AttrsAt s 20 (20 + (ibufHalf s 2).toNat) es) :
    exec .msgDecode s = .next (raise .shortBuffer s) := by
  have hnone : ∀ as, sectionDecode (received s) (ibufHeader s) ≠ .ok as := by
    intro as has
    obtain ⟨hfits, hat⟩ := attrsAt_of_sectionDecode has
    exact h.elim hfits.not_gt (fun hn => hn _ hat)
  simp only [exec, execMsgDecode, hdr_received hlen, hdrCheck_accepts hc, sectionDecode_error_of hnone, settle_error]

variable {es : List AtabEntry} (hfits : 20 + (ibufHalf s 2).toNat ≤ s.ilen.toNat)
  (hat : AttrsAt s 20 (20 + (ibufHalf s 2).toNat) es)
include hfits hat

theorem exec_msgDecode_capacityExceeded (hcap : s.cfg.atabEntries < es.length) :
    exec .msgDecode s = .next (raise .capacityExceeded s) := by
  obtain ⟨as, has, rfl⟩ := sectionDecode_of_attrsAt hfits hat
  rw [tableEntries_length] at hcap
  simp only [exec, execMsgDecode, hdr_received hlen, hdrCheck_accepts hc, has, tableOf_error hcap, settle_error]

theorem exec_msgDecode_completes (hcap : es.length ≤ s.cfg.atabEntries) :
    exec .msgDecode s = .next (complete false false (cookieOk (ibufHeader s))
      (setAtab es (setHdrRegs (ibufHeader s) s))) := by
  obtain ⟨as, has, rfl⟩ := sectionDecode_of_attrsAt hfits hat
  rw [tableEntries_length] at hcap
  simp only [exec, execMsgDecode, hdr_received hlen, hdrCheck_accepts hc, has, tableOf_ok hcap, settle_ok]

end

/-- Settles O24: the outcomes of MSG_DECODE, by the number of received bytes, the cookie, the list that lies in IBUF
from byte 20 on and its length. -/
theorem msgDecodeMeaning : Obligations.MsgDecodeMeaning := by
  refine ⟨decode_encode .msgDecode, fun s => ?_⟩
  simp only [regNat_ILEN, beVal_ibufBytes_two, ← cookieOk_iff, ← flagBits_cookieOk, Bool.not_eq_true]
  refine ⟨fun hlen => ⟨_, exec_msgDecode_headerShort hlen, raised_raise _ s⟩,
    fun hlen he hc => ⟨_, exec_msgDecode_invalidCookie hlen he hc, raised_raise _ s⟩,
    fun hlen hc => ⟨fun hshort => ⟨_, exec_msgDecode_sectionShort hlen hc hshort, raised_raise _ s⟩,
      fun es hfits hat => ⟨
        fun hcap => ⟨_, exec_msgDecode_capacityExceeded hlen hc hfits hat hcap, raised_raise _ s⟩,
        fun hcap => ⟨_, exec_msgDecode_completes hlen hc hfits hat hcap, hdrRegs_from hlen fun r hr => ?header,
          tableIs_of (u := setHdrRegs (ibufHeader s) s) ?count (fun _ => rfl) (fun _ => rfl) ?acount,
          completedWith_complete rfl _ _ _, sameRegsExcept_complete (fun r hr => ?regs) _ _ _, fun _ => rfl,
          rfl, rfl, rfl, rfl⟩⟩⟩⟩
  case header =>
    rw [regRead_complete (by rintro rfl; simp [headerRegs] at hr),
      regRead_setAtab (by rintro rfl; simp [headerRegs] at hr)]
  case count =>
    have := attrsAt_length hat
    have := s.ilen.isLt
    omega
  case acount => exact regRead_complete (by decide) _ _ _ _
  case regs =>
    obtain ⟨hacount, hheader⟩ := List.ne_and_not_mem_of_not_mem_cons hr
    rw [regRead_setAtab hacount, regRead_setHdrRegs hheader]

/-! ## FIND_ATTR (R177) -/

theorem exec_findAttr_attributeNotFound {t : Half} {s : State} (h : findEntry t s = none) :
    exec (.findAttr t) s = .next (raise .attributeNotFound s) := by
  simp only [exec, execFindAttr, h, settle_error]

theorem exec_findAttr_completes {t : Half} {s : State} {e : AtabEntry} (h : findEntry t s = some e) :
    exec (.findAttr t) s = .next (loadEntry e s) := by
  simp only [exec, execFindAttr, h, settle_ok]

/-- Settles O26: the two outcomes of FIND_ATTR, by the first valid entry of the type. -/
theorem findAttrMeaning : Obligations.FindAttrMeaning := by
  intro ty w himm hlow
  refine ⟨decode_of_halves himm hlow, fun s => ?_⟩
  rw [regNat_ACOUNT]
  exact ⟨fun hnone => ⟨_, exec_findAttr_attributeNotFound (findEntry_none.2 hnone), raised_raise _ s⟩,
    fun i hi htype hfirst => ⟨_, exec_findAttr_completes (findEntry_some hi htype hfirst), attrRegs_load,
      completedWith_complete rfl _ _ _, sameRegsExcept_complete (sameRegsExcept_setAttrRegs _ _ _ s) _ _ _,
      fun _ => rfl, fun _ => rfl, rfl, rfl, rfl, rfl⟩⟩

/-! ## EXTRACT_XMA (R178) -/

theorem regRead_HTYPE_eq_bindingResponse_iff {s : State} :
    regRead .HTYPE s = 0x0101#32 ↔ s.htype = typeBindingResponse := by
  have hhtype : (regRead .HTYPE s).toNat = s.htype.toNat := regNat_HTYPE s
  rw [← BitVec.toNat_inj, ← BitVec.toNat_inj, hhtype]
  rfl

theorem exec_extractXma_notApplicable {s : State} (h : s.htype ≠ typeBindingResponse) :
    exec .extractXma s = .next (complete false true false s) := by
  simp only [exec, execExtractXma, if_pos h, settle_ok]

section
variable {s : State} (htype : s.htype = typeBindingResponse)
include htype

theorem exec_extractXma_attributeNotFound (h : findEntry attrXorMappedAddress s = none) :
    exec .extractXma s = .next (raise .attributeNotFound s) := by
  simp only [exec, execExtractXma, if_neg (not_not_intro htype), h, settle_error]

variable {e : AtabEntry} (hfind : findEntry attrXorMappedAddress s = some e)
include hfind

theorem exec_extractXma_shortBuffer (h : e.dlen.toNat < 8 ∨ s.ilen.toNat < e.voff.toNat + 8) :
    exec .extractXma s = .next (raise .shortBuffer s) := by
  by_cases hdlen : e.dlen.toNat < 8
  · simp only [exec, execExtractXma, if_neg (not_not_intro htype), hfind, if_pos hdlen, settle_error]
  · simp only [exec, execExtractXma, if_neg (not_not_intro htype), hfind, if_neg hdlen,
      xmaAt_short (h.resolve_left hdlen), settle_error]

variable (hdlen : 8 ≤ e.dlen.toNat) (hfits : e.voff.toNat + 8 ≤ s.ilen.toNat)
include hdlen hfits

theorem exec_extractXma_unsupportedAddressFamily (hfam : ibuf s (e.voff.toNat + 1) ≠ familyIPv4) :
    exec .extractXma s = .next (raise .unsupportedAddressFamily s) := by
  simp only [exec, execExtractXma, if_neg (not_not_intro htype), hfind, if_neg hdlen.not_gt,
    xmaAt_family hfits hfam, settle_error]

theorem exec_extractXma_completes (hfam : ibuf s (e.voff.toNat + 1) = familyIPv4) :
    exec .extractXma s = .next (complete true false false (setXmaRegs (ibufAddress s e.voff.toNat) s)) := by
  simp only [exec, execExtractXma, if_neg (not_not_intro htype), hfind, if_neg hdlen.not_gt,
    xmaAt_ok hfits hfam, settle_ok, ibufAddress]

end

/-- Settles O27: the outcomes of EXTRACT_XMA, by HTYPE, the first valid entry of type 0x0020, its declared length, the
number of received bytes and the family byte. -/
theorem extractXmaMeaning : Obligations.ExtractXmaMeaning := by
  refine ⟨decode_encode .extractXma, fun s => ?_⟩
  simp only [ne_eq, regRead_HTYPE_eq_bindingResponse_iff, regNat_ACOUNT, regNat_ILEN]
  refine ⟨fun hother => ⟨_, exec_extractXma_notApplicable hother, completedWith_complete rfl _ _ _,
      sameRegsExcept_complete (fun _ _ => rfl) _ _ _, fun _ => rfl, fun _ => rfl, rfl, rfl, rfl, rfl⟩,
    fun htype => ⟨fun hnone => ⟨_, exec_extractXma_attributeNotFound htype (findEntry_none.2 hnone), raised_raise _ s⟩,
      fun i hi hxma hfirst => ?_⟩⟩
  have hfind : findEntry attrXorMappedAddress s = some (atabAt s i) := findEntry_some hi hxma hfirst
  refine ⟨fun hshort => ⟨_, exec_extractXma_shortBuffer htype hfind hshort, raised_raise _ s⟩,
    fun hdlen hfits hfam =>
      ⟨_, exec_extractXma_unsupportedAddressFamily htype hfind hdlen hfits hfam, raised_raise _ s⟩,
    fun hdlen hfits hfam => ⟨_, exec_extractXma_completes htype hfind hdlen hfits hfam,
      addrRegs_of (u := s) fun r hr => ?address, completedWith_complete rfl _ _ _,
      sameRegsExcept_complete (sameRegsExcept_setXmaRegs _ s) _ _ _, fun _ => rfl, fun _ => rfl, rfl, rfl, rfl, rfl⟩⟩
  case address => exact regRead_complete (by rintro rfl; simp [addressRegs] at hr) _ _ _ _

end Sys2Proof.Machine
end

section
/-! PROOFS. The table of errors (R202): no command raises a code outside its row, and each code of a row is raised in a
state that meets the invariant. -/

namespace Sys2Proof.Machine

/-! ## No other code -/

/-- A command that raised an error did so by answering the `raise` of a code of its row (R202, R203). -/
theorem mayRaise_of_raised {i : Instr} {e : ErrCode} {s t : State} (hexec : exec i s = .next t)
    (hraised : Raised e s t) : mayRaise i e = true := by
  obtain ⟨r, hr, hok, herror⟩ := exec_outcome i s
  obtain ⟨u, hu, hend⟩ := settle_next s r
  rw [hr, hu] at hexec
  cases hexec
  obtain hdone | ⟨e', hfailed, rfl⟩ := hend
  · obtain ⟨f, n, c, hstatus, -⟩ := hok _ hdone
    exact absurd hraised (completed_not_raised hstatus e)
  · rw [raised_raise_eq hraised]
    exact herror e' hfailed

/-- R202: "Code 5 is raised by no command". -/
theorem mayRaise_illegalCommand (i : Instr) : mayRaise i .illegalCommand = false := by cases i <;> rfl

/-! ## States of the invariant in which the errors occur -/

/-- The reset state with parameters given, after the host wrote `bs` to IBUF and their number to ILEN. -/
def receiving (c : Config) (bs : Bytes) : State :=
  memWrite ibufBase bs { State.reset with cfg := c, ilen := BitVec.ofNat 16 bs.length }

theorem statusCoherent_reset : StatusCoherent State.reset.status := by decide

theorem inv_receiving {c : Config} {bs : Bytes} (hc : c.Legal) (hlen : bs.length ≤ c.bufBytes) :
    (receiving c bs).Inv := by
  refine inv_memWrite ?empty fun k hk => mappedByte_buf (b := .IBUF) (hk.trans_le hlen)
  case empty =>
    exact {
      legal := hc
      memWf := memWf_reset
      mapped := by simp [State.reset]
      ilen := (Nat.mod_le _ _).trans hlen
      olen := Nat.zero_le _
      vlen := Nat.zero_le _
      acount := Nat.zero_le _
      atabSize := Nat.zero_le _
      entries := by simp [State.reset]
      status := statusCoherent_reset }

theorem configDefault_legal : Config.default.Legal := by decide

theorem inv_reset : State.reset.Inv := inv_receiving (bs := []) configDefault_legal (Nat.zero_le _)

/-- A host write to STATUS clears nothing but STICKY, of which the invariant says nothing (R23). -/
theorem statusCoherent_statusWritten {st : Status} (h : StatusCoherent st) (w : Word) :
    StatusCoherent (statusWritten w st) := by
  unfold statusWritten
  split <;> exact h

/-- What a host write stores in a register keeps the invariant: the three counts are clamped (R24, R36, R37, R64). -/
theorem inv_regWrite {s : State} (h : s.Inv) (r : RegName) (w : Word) : (regWrite r w s).Inv := by
  have hclamp (cap : Nat) : (clampTo cap w).toNat ≤ cap := by rw [clampTo_toNat]; exact Nat.min_le_right _ _
  cases r with
  | STATUS => exact { h with status := statusCoherent_statusWritten h.status w }
  | ILEN => exact { h with ilen := hclamp _ }
  | OLEN => exact { h with olen := hclamp _ }
  | VLEN => exact { h with vlen := hclamp _ }
  | CMD | AOFF | TOTLEN | ACOUNT | HTYPE | HLEN | HCOOKIE | TXID0 | TXID1 | TXID2 | ATYPE | ADLEN | APLEN | AVOFF
  | XFAM | XADDR | XPORT => exact inv_same h rfl rfl rfl rfl rfl rfl rfl rfl

/-! ## Each code of each row -/

/-- A command that answers the raise of a code in a state of the invariant reaches a "yes" of R202. -/
theorem exists_raised_of_exec {i : Instr} {e : ErrCode} {s : State} (hinv : s.Inv)
    (hexec : exec i s = .next (raise e s)) : ∃ s t : State, s.Inv ∧ exec i s = .next t ∧ Raised e s t :=
  ⟨s, _, hinv, hexec, raised_raise e s⟩

theorem exec_msgEncode_lengthMismatch {s : State} (h : s.olen.toNat < 20) :
    exec .msgEncode s = .next (raise .lengthMismatch s) := by
  simp only [exec, execMsgEncode, if_pos h, settle_error]

/-- A received header with the wrong cookie, which the block enforces. -/
def wrongCookieState : State := receiving { Config.default with enforceCookie := true } (List.replicate 20 0)

theorem inv_wrongCookieState : wrongCookieState.Inv := inv_receiving (by decide) (by decide)

/-- The parameters of a block with one table entry. -/
def oneEntryConfig : Config := { Config.default with atabEntries := 1 }

/-- Two received attributes without a value, TOTLEN counting their 8 bytes, and room for one entry. -/
def twoAttrsState : State := regWrite .TOTLEN 8 (receiving oneEntryConfig (List.replicate 8 0))

theorem inv_twoAttrsState : twoAttrsState.Inv := inv_regWrite (inv_receiving (by decide) (by decide)) _ _

theorem twoAttrsState_attrsAt : AttrsAt twoAttrsState 0 8 [⟨0, 0, 4⟩, ⟨0, 0, 8⟩] := by
  refine ⟨?_, ?_, ?_, ?_, ?_, ?_, ?_, ?_, rfl⟩ <;> decide

/-- A received message of a header that declares 8 bytes and two attributes without a value, and room for one entry. -/
def twoAttrsMessageState : State := receiving oneEntryConfig ([0, 0, 0, 8] ++ List.replicate 24 0)

theorem inv_twoAttrsMessageState : twoAttrsMessageState.Inv := inv_receiving (by decide) (by decide)

theorem twoAttrsMessageState_attrsAt : AttrsAt twoAttrsMessageState 20 28 [⟨0, 0, 24⟩, ⟨0, 0, 28⟩] := by
  refine ⟨?_, ?_, ?_, ?_, ?_, ?_, ?_, ?_, rfl⟩ <;> decide

/-- HTYPE of a binding response, the valid table entries `es`, and 12 received zero bytes. -/
def responseState (es : List AtabEntry) : State :=
  regWrite .HTYPE 0x0101 (setAtab es (receiving Config.default (List.replicate 12 0)))

/-- The entry of an XOR-MAPPED-ADDRESS at the start of IBUF, of declared length `dlen`. -/
def xmaEntry (dlen : Half) : AtabEntry := ⟨attrXorMappedAddress, dlen, 4⟩

theorem inv_responseState {es : List AtabEntry} (hlen : es.length ≤ 32)
    (hes : ∀ e ∈ es, EntryInIbuf Config.default e) : (responseState es).Inv :=
  inv_regWrite (inv_setAtab (inv_receiving configDefault_legal (by decide)) hlen hes) _ _

/-- Every "yes" of R202's table is reached: one state of the invariant for each code of each row. -/
theorem exists_raised_of_mayRaise {i : Instr} {e : ErrCode} (h : mayRaise i e = true) :
    ∃ s t : State, s.Inv ∧ exec i s = .next t ∧ Raised e s t := by
  cases i with
  | hdrEncode | padLen => simp [mayRaise] at h
  | hdrDecode =>
    obtain rfl | rfl : e = .shortBuffer ∨ e = .invalidCookie := by simpa [mayRaise] using h
    · exact exists_raised_of_exec inv_reset (exec_hdrDecode_shortBuffer (by decide))
    · exact exists_raised_of_exec inv_wrongCookieState (exec_hdrDecode_invalidCookie (by decide) rfl (by decide))
  | attrDecode =>
    obtain rfl : e = .shortBuffer := by simpa [mayRaise] using h
    exact exists_raised_of_exec inv_reset (exec_attrDecode_shortBuffer (.inl (by decide)))
  | attrEncode =>
    obtain rfl | rfl : e = .lengthMismatch ∨ e = .capacityExceeded := by simpa [mayRaise] using h
    · exact exists_raised_of_exec (inv_regWrite inv_reset .ADLEN 1) (exec_attrEncode_lengthMismatch (by decide))
    · exact exists_raised_of_exec (inv_regWrite inv_reset .OLEN 2048)
        (exec_attrEncode_capacityExceeded (by decide) (by decide))
  | attrDecodeAll =>
    obtain rfl | rfl : e = .shortBuffer ∨ e = .capacityExceeded := by simpa [mayRaise] using h
    · exact exists_raised_of_exec (inv_regWrite inv_reset .TOTLEN 1)
        (exec_attrDecodeAll_shortBuffer (.inl (by decide)))
    · exact exists_raised_of_exec inv_twoAttrsState
        (exec_attrDecodeAll_capacityExceeded (by decide) twoAttrsState_attrsAt (by decide))
  | attrGet i =>
    obtain rfl : e = .attributeNotFound := by simpa [mayRaise] using h
    exact exists_raised_of_exec inv_reset (exec_attrGet_attributeNotFound (Nat.zero_le _))
  | xmaSerialize =>
    obtain rfl : e = .unsupportedAddressFamily := by simpa [mayRaise] using h
    exact exists_raised_of_exec inv_reset (exec_xmaSerialize_unsupportedAddressFamily (by decide))
  | xmaDeserialize =>
    obtain rfl | rfl : e = .shortBuffer ∨ e = .unsupportedAddressFamily := by simpa [mayRaise] using h
    · exact exists_raised_of_exec inv_reset (exec_xmaDeserialize_shortBuffer (by decide))
    · exact exists_raised_of_exec (inv_receiving (bs := List.replicate 8 0) configDefault_legal (by decide))
        (exec_xmaDeserialize_unsupportedAddressFamily (by decide) (by decide))
  | msgDecode =>
    obtain (rfl | rfl) | rfl : (e = .shortBuffer ∨ e = .invalidCookie) ∨ e = .capacityExceeded := by
      simpa [mayRaise] using h
    · exact exists_raised_of_exec inv_reset (exec_msgDecode_headerShort (by decide))
    · exact exists_raised_of_exec inv_wrongCookieState (exec_msgDecode_invalidCookie (by decide) rfl (by decide))
    · exact exists_raised_of_exec inv_twoAttrsMessageState
        (exec_msgDecode_capacityExceeded (by decide) (by decide) (by decide) twoAttrsMessageState_attrsAt (by decide))
  | msgEncode =>
    obtain rfl : e = .lengthMismatch := by simpa [mayRaise] using h
    exact exists_raised_of_exec inv_reset (exec_msgEncode_lengthMismatch (by decide))
  | findAttr ty =>
    obtain rfl : e = .attributeNotFound := by simpa [mayRaise] using h
    exact exists_raised_of_exec inv_reset (exec_findAttr_attributeNotFound rfl)
  | extractXma =>
    obtain (rfl | rfl) | rfl : (e = .shortBuffer ∨ e = .attributeNotFound) ∨ e = .unsupportedAddressFamily := by
      simpa [mayRaise] using h
    · exact exists_raised_of_exec (inv_responseState (es := [xmaEntry 0]) (by decide) (by decide))
        (exec_extractXma_shortBuffer rfl rfl (.inl (by decide)))
    · exact exists_raised_of_exec (inv_responseState (es := []) (by decide) (by decide))
        (exec_extractXma_attributeNotFound rfl rfl)
    · exact exists_raised_of_exec (inv_responseState (es := [xmaEntry 8]) (by decide) (by decide))
        (exec_extractXma_unsupportedAddressFamily rfl rfl (by decide) (by decide) (by decide))

/-- Settles O37: a command that completes has raised nothing, a settled error is one of its row, and each code of a row
is raised in a small state that meets the invariant. -/
theorem commandsRaiseExactlyTheirCodes : Obligations.CommandsRaiseExactlyTheirCodes :=
  ⟨fun _ _ _ _ => mayRaise_of_raised, fun _ _ => exists_raised_of_mayRaise, mayRaise_illegalCommand⟩

end Sys2Proof.Machine
end

section
/-! PROOFS. The registers as the host reads them in the reset state (R231). -/

namespace Sys2Proof.Machine

/-- The fields of STATUS are clear and its reserved bits read 0 (R23): ERR is not the 5 that running CMD = 0 would
leave there. -/
@[simp] theorem statusWord_reset : statusWord State.reset.status = 0#32 := by decide

/-- Settles O8: STATUS reads its clear fields, a register of the full width reads the zero it holds, and a narrower
register reads its zero extended. -/
theorem resetRegistersReadZero : Obligations.ResetRegistersReadZero := by
  intro r
  cases r
  case STATUS => exact statusWord_reset
  case CMD | HCOOKIE | TXID0 | TXID1 | TXID2 | XADDR => rfl
  case ILEN | AOFF | TOTLEN | ACOUNT | HTYPE | HLEN | ATYPE | ADLEN | APLEN | AVOFF | VLEN | OLEN | XFAM | XPORT =>
    exact BitVec.setWidth_zero _ _

end Sys2Proof.Machine
end

section
/-! PROOFS. The command word and its written form (R80 to R84, R90, R91), and what a write to CMD runs (R22, R83). -/

namespace Sys2Proof.Machine

/-! ## Words and commands -/

/-- Settles O3: the three fields of the encoded word are the command's opcode, RSV = 0 and its immediate. -/
theorem decodeOfEncode : Obligations.DecodeOfEncode := decode_encode

/-- Settles O4: the three fields that decoding reads determine the word. -/
theorem encodeOfDecode : Obligations.EncodeOfDecode := fun _ _ h => (decode_eq_ok_iff.1 h).symm

/-- Settles O2: each legal word is the encoding of its command, and each illegal one has a wrong field. -/
theorem commandWordsDecode : Obligations.CommandWordsDecode :=
  ⟨decode_encode .hdrDecode, decode_encode .hdrEncode, decode_encode (.padLen 6), decode_encode .attrDecode,
    decode_encode (.attrGet 1), decode_encode .xmaSerialize, decode_encode .xmaDeserialize, decode_encode .msgDecode,
    decode_encode (.findAttr 0x20), decode_encode .extractXma, rfl, rfl, rfl⟩

/-! ## The assembler (R90) -/

theorem instr_wellFormed (i : Instr) : i.WellFormed := by
  have himm (n : Half) : n.toNat ≤ 0xFFFF := Nat.le_of_lt_succ n.isLt
  cases i with
  | padLen n | attrGet n | findAttr n => exact if_pos (himm n)
  | hdrDecode | hdrEncode | attrDecode | attrEncode | attrDecodeAll | xmaSerialize | xmaDeserialize | msgDecode
  | msgEncode | extractXma => rfl

/-- The command that a written line names, its operand put in IMM16. -/
def lineInstr (l : AsmLine) : Instr := l.mnemonic.instr (BitVec.ofNat 16 (l.operand.getD 0))

@[simp] theorem lineInstr_asmLine (i : Instr) : lineInstr i.asmLine = i := by
  cases i with
  | padLen n | attrGet n | findAttr n => simp [lineInstr, Instr.asmLine, Mnemonic.instr]
  | hdrDecode | hdrEncode | attrDecode | attrEncode | attrDecodeAll | xmaSerialize | xmaDeserialize | msgDecode
  | msgEncode | extractXma => rfl

/-- A line the assembler accepts has an operand exactly where its mnemonic takes one, and the operand fits. -/
theorem wellFormed_operand {l : AsmLine} (h : l.WellFormed) :
    l.mnemonic.takesOperand = false ∧ l.operand = none ∨
      l.mnemonic.takesOperand = true ∧ ∃ n, n ≤ 0xFFFF ∧ l.operand = some n := by
  simp only [AsmLine.WellFormed, AsmLine.problem] at h
  split at h
  · simp at h
  · next n htakes hop =>
    split at h
    · next hn => exact .inr ⟨htakes, n, hn, hop⟩
    · simp at h
  · next htakes hop => exact .inl ⟨htakes, hop⟩
  · simp at h

/-- A line the assembler accepts is the written form of the command it names. -/
theorem asmLine_lineInstr {l : AsmLine} (h : l.WellFormed) : (lineInstr l).asmLine = l := by
  have hl := wellFormed_operand h
  obtain ⟨m, op⟩ := l
  obtain ⟨htakes, rfl⟩ | ⟨htakes, n, hn, rfl⟩ := hl
  · cases m with
    | PAD_LEN | ATTR_GET | FIND_ATTR => simp [Mnemonic.takesOperand] at htakes
    | _ => rfl
  · have himm : (BitVec.ofNat 16 n).toNat = n := Nat.mod_eq_of_lt (Nat.lt_succ_of_le hn)
    cases m with
    | PAD_LEN | ATTR_GET | FIND_ATTR => simp only [lineInstr, Mnemonic.instr, Instr.asmLine, Option.getD_some, himm]
    | _ => simp [Mnemonic.takesOperand] at htakes

theorem assemble_asmLine (i : Instr) : assemble i.asmLine = .ok (encode i) := by
  have hword := congrArg encode (lineInstr_asmLine i)
  rw [assemble, instr_wellFormed i, ← hword]
  rfl

theorem assemble_problem {l : AsmLine} {p : AsmProblem} (h : l.problem = some p) : assemble l = .error p := by
  rw [assemble, h]

/-- Settles O7: the accepted lines are the written forms of commands, and each other line has one of three faults. -/
theorem assemblerAcceptsWrittenCommands : Obligations.AssemblerAcceptsWrittenCommands := by
  refine ⟨fun l w => ⟨fun h => ?accepted, ?written⟩, fun l htakes hop => assemble_problem ?missing,
    fun l n htakes hop hn => assemble_problem ?range, fun l n htakes hop => assemble_problem ?given⟩
  case accepted =>
    cases hp : l.problem with
    | some p => simp [assemble_problem hp] at h
    | none =>
      have hline := asmLine_lineInstr hp
      rw [← hline, assemble_asmLine] at h
      exact ⟨lineInstr l, hline, Except.ok.inj h⟩
  case written =>
    rintro ⟨i, rfl, rfl⟩
    exact assemble_asmLine i
  case missing => simp [AsmLine.problem, htakes, hop]
  case range => simp [AsmLine.problem, htakes, hop, Nat.not_le.2 hn]
  case given => simp [AsmLine.problem, htakes, hop]

/-- Settles O47: the assembler gives a command's written form its word. -/
theorem commandLineIsOneCmdWrite : Obligations.CommandLineIsOneCmdWrite := fun c i => by
  simp only [HostLine.events, assemble_asmLine]

/-! ## A write to CMD -/

theorem runCommand_ok {w : Word} {i : Instr} (h : decode w = .ok i) (s : State) :
    runCommand w s = exec i { s with cmd := w } := by
  simp only [runCommand, h]

theorem runCommand_error {w : Word} {x : DecodeReject} (h : decode w = .error x) (s : State) :
    runCommand w s = .next (raise .illegalCommand { s with cmd := w }) := by
  simp only [runCommand, h]

/-- Settles O1: the write is accepted at CMD's offset, and the word it stores decodes to the command. -/
theorem stepRunsDecodedCommand : Obligations.StepRunsDecodedCommand := by
  refine ⟨fun s rest d i hbus hdec => ?_, fun s i _ => ?_⟩
  · rw [step_cmdWrite hbus, runCommand_ok hdec]
  · have hword : BitVec.ofNat 32 ((encode i).toNat % 2 ^ 32) = encode i := by
      rw [Nat.mod_eq_of_lt (encode i).isLt, BitVec.ofNat_toNat, BitVec.setWidth_eq]
    have hbus : (s.withFetchWord 32 (encode i).toNat).bus =
      cmdWrite (s.withFetchWord 32 (encode i).toNat).cfg ((encode i).toNat % 2 ^ 32) :: s.bus := rfl
    rw [step_cmdWrite hbus, hword, runCommand_ok (decode_encode i)]
    rfl

theorem decode_error_of_unmatched {w : Word} (h : ¬MatchesSomeRow w) : ∃ x, decode w = .error x := by
  cases hd : decode w with
  | error x => exact ⟨x, rfl⟩
  | ok i =>
    obtain ⟨row, hrow, hmatch, -⟩ := (opcodeMapSelectsCommand w i).1 hd
    exact absurd ⟨row, hrow, hmatch⟩ h

/-- Settles O6: a word that no row matches does not decode, and the write raises IllegalCommand on the state that holds
the word. -/
theorem illegalWordRaisesIllegalCommand : Obligations.IllegalWordRaisesIllegalCommand := by
  intro s rest d hbus hrow
  obtain ⟨x, hx⟩ := decode_error_of_unmatched hrow
  refine ⟨_, (step_cmdWrite hbus).trans (runCommand_error hx _), rfl, statusWord_raised .illegalCommand,
    fun r hr => ?regs, fun _ => rfl, fun _ => rfl, rfl, rfl, rfl, rfl⟩
  cases r with
  | CMD | STATUS => simp at hr
  | _ => rfl

end Sys2Proof.Machine
end

section
/-! PROOFS. The host's accesses and the reset pulse (R60 to R64, R70, R216, R230 to R232). -/

namespace Sys2Proof.Machine

/-! ## Reset and the idle block -/

theorem regRead_powerUp (r : RegName) (s : State) :
    regRead r (powerUp s) = regRead r State.reset := by cases r <;> rfl

/-- Settles O9: after the pulse nothing has been written, so every byte and entry reads its new free value. -/
theorem resetPulseResets : Obligations.ResetPulseResets := fun _ _ hbus =>
  ⟨_, step_cons hbus, fun r => (regRead_powerUp r _).trans (resetRegistersReadZero r), fun _ => rfl, fun _ => rfl,
    rfl, rfl, rfl⟩

/-- Settles O10: with no event a step performs nothing. -/
theorem idleBlockHoldsState : Obligations.IdleBlockHoldsState := fun _ => step_nil

/-! ## Reads -/

/-- Settles O11: `hostRead` answers the register or the byte and changes the answer alone. -/
theorem hostReadsHaveNoSideEffect : Obligations.HostReadsHaveNoSideEffect := by
  refine ⟨fun s rest r hbus => ?register, fun s rest b k hlegal hk hbus => ?byte⟩
  case register =>
    rw [step_read hbus rfl (offset_lt r) (locate_reg _ r)]
    cases r <;> rfl
  case byte =>
    exact step_read hbus (Nat.add_assoc _ _ _) (base_add_lt hlegal hk) (locate_byte (mappedByte_buf hk))

/-! ## Register writes (R64) -/

theorem sameModelFields_regWrite (r : RegName) (w : Word) (s : State) : SameModelFields s (regWrite r w s) := by
  cases r <;> exact ⟨rfl, rfl, rfl, rfl⟩

theorem and_definedBits_of_width {r : RegName} {n : Nat} (h : definedBits r = BitVec.ofNat 32 (2 ^ n - 1)) (hn : n < 32)
    (w : Word) : (w &&& definedBits r).toNat = w.toNat % 2 ^ n := by
  have hmask : 2 ^ n - 1 < 2 ^ 32 := by
    have := Nat.pow_lt_pow_right (show 1 < 2 by decide) hn
    omega
  rw [h, BitVec.toNat_and, BitVec.toNat_ofNat, Nat.mod_eq_of_lt hmask, Nat.and_two_pow_sub_one_eq_mod]

/-- What an RW register reads after a host write: its defined bits of the word, or the clamped count (R21, R64). -/
theorem regNat_regWrite {r : RegName} (h : r ∉ [.CMD, .STATUS, .ACOUNT, .APLEN]) (w : Word) (s : State) :
    regNat r (regWrite r w s) = storedValue s.cfg r w := by
  cases r with
  | CMD | STATUS | ACOUNT | APLEN => simp at h
  | ILEN => exact (regNat_ILEN _).trans (clampTo_toNat _ w)
  | OLEN => exact (regNat_OLEN _).trans (clampTo_toNat _ w)
  | VLEN => exact (regNat_VLEN _).trans (clampTo_toNat _ w)
  | HCOOKIE | TXID0 | TXID1 | TXID2 | XADDR => exact congrArg BitVec.toNat (BitVec.and_allOnes (x := w)).symm
  | XFAM =>
    rw [regNat_XFAM, storedValue, and_definedBits_of_width (n := 8) rfl (by decide)]
    exact BitVec.toNat_setWidth ..
  | AOFF | TOTLEN | HTYPE | HLEN | ATYPE | ADLEN | AVOFF | XPORT =>
    rw [storedValue, and_definedBits_of_width (n := 16) rfl (by decide)]
    simp [regWrite]

/-- What a write of a word to a register other than CMD leaves, the answer given (R64). -/
theorem step_regWrite {s : State} {rest : List Event} {r : RegName} {d : Nat} (hr : r ≠ .CMD)
    (hbus : s.bus = .access (.write (s.cfg.hostBase + r.offset) 32 d) :: rest) :
    step s = .next { regWrite r (BitVec.ofNat 32 d) { s with bus := rest } with resp := .written } := by
  rw [step_write hbus rfl (offset_lt r) (locate_reg _ r), hostWrite_reg hr]

theorem runCommand_next (w : Word) (s : State) :
    ∃ t, runCommand w s = .next t ∧ t.cmd = w ∧ SameModelFields s t := by
  cases hdec : decode w with
  | error x => exact ⟨_, runCommand_error hdec s, rfl, rfl, rfl, rfl, rfl⟩
  | ok i =>
    obtain ⟨t, ht, hcmd, hmodel⟩ := exec_next i { s with cmd := w }
    exact ⟨t, (runCommand_ok hdec s).trans ht, hcmd, hmodel⟩

theorem regRead_withBus (r : RegName) (b : List Event) (s : State) :
    regRead r { s with bus := b } = regRead r s := by cases r <;> rfl

theorem regRead_withResp (r : RegName) (a : Response) (s : State) :
    regRead r { s with resp := a } = regRead r s := by cases r <;> rfl

/-- Settles O12: a write to CMD runs `runCommand`, a write to another register stores what `regWrite` says. -/
theorem hostRegisterWrites : Obligations.HostRegisterWrites := by
  intro s rest r d hbus
  by_cases hr : r = .CMD
  · subst hr
    obtain ⟨t, ht, hcmd, hcfg, hbus', hresp, hepoch⟩ :=
      runCommand_next (BitVec.ofNat 32 d) { s with bus := rest, resp := .written }
    refine ⟨t, (step_cmdWrite hbus).trans ht, hcfg, hbus', hresp, hepoch, fun _ => ⟨hcmd, fun i hi => ?_⟩, by simp,
      by simp, by simp, by simp⟩
    rw [← ht, runCommand_ok hi]
  · obtain ⟨hcfg, hbus', -, hepoch⟩ := sameModelFields_regWrite r (BitVec.ofNat 32 d) { s with bus := rest }
    refine ⟨_, step_regWrite hr hbus, hcfg, hbus', rfl, hepoch, fun h => absurd h hr,
      fun _ => ⟨byteAt_regWrite r _ _, atabAt_regWrite r _ _, fun p hp => ?other⟩, ?status, ?readOnly, fun h => ?stored⟩
    case other =>
      rw [regRead_withResp, regRead_regWrite_other (List.ne_of_not_mem_cons hp), regRead_withBus]
    case status =>
      rintro rfl
      exact statusWord_written _ _
    case readOnly => rintro (rfl | rfl) <;> rfl
    case stored => exact (congrArg BitVec.toNat (regRead_withResp r _ _)).trans (regNat_regWrite h _ _)

/-! ## Buffer bytes (R62) -/

/-- Settles O13: the byte is at its buffer's base plus the offset, and memory holds it after the write. -/
theorem bufferAccessesReadAndStoreOneByte : Obligations.BufferAccessesReadAndStoreOneByte := by
  intro s rest b k hlegal hk
  have hlocate := locate_byte (mappedByte_buf hk)
  refine ⟨fun d hbus => ⟨_, step_write hbus (Nat.add_assoc _ _ _) (base_add_lt hlegal hk) hlocate, ?stored,
      fun a ha => ?outside, fun r _ => ?regsW, fun _ => rfl, rfl, rfl⟩,
    fun hbus => ⟨_, step_read hbus (Nat.add_assoc _ _ _) (base_add_lt hlegal hk) hlocate, rfl, fun _ => rfl,
      fun r _ => ?regsR, fun _ => rfl, rfl⟩⟩
  case stored => exact (byteAt_memWrite _ _ _ _).trans (by simp [nth])
  case outside => exact (byteAt_memWrite _ _ _ _).trans (if_neg ha)
  case regsW => rw [regRead_withResp, regRead_memWrite, regRead_withBus]
  case regsR => rw [regRead_withResp, regRead_withBus]

/-! ## Refused accesses (R63) -/

/-- The offsets of the register window (R61). -/
theorem exists_offset_iff (a : Nat) : (∃ r : RegName, a = r.offset) ↔ a % 4 = 0 ∧ a ≤ 0x050 := by
  have hall : ∀ k < 21, ∃ r ∈ allRegs, 4 * k = r.offset := by decide
  constructor
  · rintro ⟨r, rfl⟩
    cases r <;> decide
  · rintro ⟨hmod, hle⟩
    obtain ⟨r, -, hr⟩ := hall (a / 4) (by omega)
    exact ⟨r, by omega⟩

theorem locate_eq_none_iff (c : Config) (a width : Nat) : locate c a width = none ↔
    ¬((width = 32 ∧ a % 4 = 0 ∧ a ≤ 0x050) ∨
      (width = 8 ∧ ((0x1000 ≤ a ∧ a < 0x1000 + c.bufBytes) ∨ (0x2000 ≤ a ∧ a < 0x2000 + c.bufBytes) ∨
        (0x3000 ≤ a ∧ a < 0x3000 + c.vbufBytes)))) := by
  rw [← exists_offset_iff, ← mappedByte_iff, not_or]
  obtain ⟨r, hwidth, ha, hloc⟩ | ⟨hwidth, hmapped, hloc⟩ | ⟨hreg, hbyte, hloc⟩ := locate_cases c a width
  · simp only [hloc, reduceCtorEq, false_iff]
    exact fun h => h.1 ⟨hwidth, r, ha⟩
  · simp only [hloc, reduceCtorEq, false_iff]
    exact fun h => h.2 ⟨hwidth, hmapped⟩
  · exact ⟨fun _ => ⟨hreg, hbyte⟩, fun _ => hloc⟩

theorem hostWrite_next (l : Loc) (d : Nat) (s : State) : ∃ t, hostWrite l d s = .next t := by
  cases l with
  | byte a => exact ⟨_, rfl⟩
  | reg r =>
    by_cases hr : r = .CMD
    · subst hr
      obtain ⟨t, ht, -⟩ := runCommand_next (BitVec.ofNat 32 d) { s with resp := .written }
      exact ⟨t, ht⟩
    · exact ⟨_, hostWrite_reg hr d s⟩

/-- An access that names a register or a buffer byte answers a next state. -/
theorem step_accepted {s : State} {rest : List Event} {acc : Access} {a width : Nat} {l : Loc}
    (hbus : s.bus = .access acc :: rest) (hplace : acc.place = (s.cfg.hostBase + a, width)) (ha : a < 0x10000)
    (hloc : locate s.cfg a width = some l) : ∃ t, step s = .next t := by
  cases acc with
  | read h w =>
    obtain ⟨rfl, rfl⟩ := Prod.mk.inj hplace
    cases l <;> exact ⟨_, step_read hbus rfl ha hloc⟩
  | write h w d =>
    obtain ⟨rfl, rfl⟩ := Prod.mk.inj hplace
    obtain ⟨t, ht⟩ := hostWrite_next l d { s with bus := rest }
    exact ⟨t, (step_write hbus rfl ha hloc).trans ht⟩

/-- Settles O14: an access is refused exactly when `locate` names nothing, and answers a next state otherwise. -/
theorem refusedAccessesAreBusErrors : Obligations.RefusedAccessesAreBusErrors := by
  refine ⟨fun s rest acc a width hbus hplace ha => ?window, fun s rest acc hbus hout => ?outside⟩
  case window =>
    rw [← locate_eq_none_iff]
    cases hloc : locate s.cfg a width with
    | none =>
      have hfault := step_refused hbus hplace ha hloc
      exact ⟨.inr hfault, fun _ => rfl, fun _ => hfault⟩
    | some l =>
      obtain ⟨t, ht⟩ := step_accepted hbus hplace ha hloc
      exact ⟨.inl ⟨t, ht⟩, by simp [ht], by simp⟩
  case outside =>
    rw [step_cons hbus]
    exact performAccess_outside (s := { s with bus := rest }) hout

end Sys2Proof.Machine
end

section
/-! PROOFS. How commands end (R200 to R204), and what that and the host's writes do to STATUS and to the parameters. -/

namespace Sys2Proof.Machine

/-! ## The two ends of a command -/

/-- Everything a command does to STATUS and CMD: it completes with flags it may set, or answers the raise of an error it
may raise (R202 to R204). -/
theorem exec_ends (i : Instr) (s : State) : ∃ t, exec i s = .next t ∧ t.cmd = s.cmd ∧ SameModelFields s t ∧
    ((∃ f n c, t.status = statusComplete f n c s.status ∧ FlagsOf i f n c) ∨
      ∃ e, t = raise e s ∧ mayRaise i e = true) := by
  obtain ⟨t, ht, hcmd, hmodel⟩ := exec_next i s
  refine ⟨t, ht, hcmd, hmodel, ?_⟩
  obtain ⟨r, hr, hok, herror⟩ := exec_outcome i s
  obtain ⟨u, hu, hend⟩ := settle_next s r
  rw [hr, hu] at ht
  cases ht
  exact hend.imp (fun h => hok _ h) fun ⟨e, he, hraise⟩ => ⟨e, hraise, herror e he⟩

theorem flagBits_mem {i : Instr} {f n c : Bool} (h : FlagsOf i f n c) :
    flagBits f n c ∈ [0#32, flagFound, flagNa, flagCookieOk] := by
  obtain ⟨hfn, hfc, hnc, -⟩ := h
  revert f n c
  decide

/-- Settles O36: the two ends exclude each other, and STATUS shows which error was raised. -/
theorem everyCommandCompletesOrRaises : Obligations.EveryCommandCompletesOrRaises := by
  intro i s
  obtain ⟨t, ht, -, -, ⟨f, n, c, hstatus, hflags⟩ | ⟨e, rfl, -⟩⟩ := exec_ends i s
  · exact ⟨t, ht, .inl ⟨_, cw_of hstatus rfl, flagBits_mem hflags, completed_not_raised hstatus⟩⟩
  · exact ⟨_, ht, .inr ⟨e, raised_raise e s, fun _ => raised_raise_eq⟩⟩

/-! ## STICKY (R23, R209) -/

theorem sticky_exec {i : Instr} {s t : State} (h : exec i s = .next t) :
    t.status.sticky = s.status.sticky ∧ t.status.err = 0 ∨ t.status.sticky = true := by
  obtain ⟨u, hu, -, -, ⟨f, n, c, hstatus, -⟩ | ⟨e, rfl, -⟩⟩ := exec_ends i s
  · rw [h] at hu
    cases hu
    exact .inl (by simp [hstatus, statusComplete])
  · rw [h] at hu
    cases hu
    exact .inr rfl

theorem statusWritten_of_bit_clear {w : Word} (h : w.getLsbD 8 = false) (st : Status) : statusWritten w st = st :=
  if_neg (Bool.eq_false_iff.1 h)

/-- A host write of a register takes STICKY away only from STATUS, by bit 8 of the word (R64). -/
theorem sticky_regWrite {r : RegName} {w : Word} {s : State} (h : r = .STATUS → w.getLsbD 8 = false) :
    (regWrite r w s).status.sticky = s.status.sticky := by
  cases r with
  | STATUS => exact congrArg Status.sticky (statusWritten_of_bit_clear (h rfl) s.status)
  | _ => rfl

/-- Settles O39: no command and no other access clears STICKY, and an error sets it. -/
theorem stickyIsLostOnlyByHostOrReset : Obligations.StickyIsLostOnlyByHostOrReset := by
  refine ⟨fun s e rest hbus hpulse hclear hsticky t hstep => ?step, fun i s => ?command⟩
  case step =>
    cases step_cases hstep with
    | idle hb ht => rwa [ht]
    | pulse rest' hb ht =>
      rw [hbus] at hb
      exact absurd (List.cons.inj hb).1 hpulse
    | regRead rest' r hb ht => rwa [ht]
    | byteRead rest' a ha hb ht => rwa [ht]
    | byteWrite rest' a d ha hb ht => rwa [ht]
    | illegal rest' d x hb hd ht => rw [ht]; rfl
    | regWrite rest' r d hr hb ht =>
      rw [hbus] at hb
      have hbit : r = .STATUS → (BitVec.ofNat 32 d).getLsbD 8 = false := by
        rintro rfl
        exact Bool.eq_false_iff.2 fun hset => hclear d hset (List.cons.inj hb).1
      rw [ht]
      exact (sticky_regWrite hbit).trans hsticky
    | command rest' d i hb hd ht => exact (sticky_exec ht).elim (fun h => h.1.trans hsticky) id
  case command =>
    obtain ⟨t, ht, -⟩ := exec_next i s
    exact ⟨t, ht, fun herr => (sticky_exec ht).resolve_left fun h => herr h.2⟩

/-! ## The parameters and the order of the accesses (R20, R71) -/

/-- Settles O43: only `performNext` touches the bus, and nothing touches the parameters. -/
theorem stepKeepsParametersAndOrder : Obligations.StepKeepsParametersAndOrder := by
  intro s t hstep
  cases step_cases hstep with
  | idle hb ht => simp [ht, hb]
  | pulse rest hb ht | regRead rest r hb ht | byteRead rest a ha hb ht | byteWrite rest a d ha hb ht
  | illegal rest d x hb hd ht =>
    rw [ht, hb]
    exact ⟨rfl, rfl⟩
  | regWrite rest r d hr hb ht =>
    obtain ⟨hcfg, hbus, -⟩ := sameModelFields_regWrite r (BitVec.ofNat 32 d) { s with bus := rest }
    rw [ht, hb]
    exact ⟨hcfg, hbus⟩
  | command rest d i hb hd ht =>
    obtain ⟨u, hu, -, hcfg, hbus, -⟩ := exec_next i { s with bus := rest, resp := .written, cmd := BitVec.ofNat 32 d }
    rw [ht] at hu
    cases hu
    rw [hb]
    exact ⟨hcfg, hbus⟩

/-! ## STATUS describes CMD -/

/-- The property looks at CMD and at bits 6:0 of STATUS only. -/
theorem statusDescribesCmd_of_same {s t : State} (h : StatusDescribesCmd s) (hcmd : t.cmd = s.cmd)
    (hstatus : ∃ y, t.status = { s.status with sticky := y }) : StatusDescribesCmd t := by
  obtain ⟨y, hstatus⟩ := hstatus
  simpa only [StatusDescribesCmd, hcmd, hstatus] using h

theorem statusDescribesCmd_of_clear {s : State} (hf : s.status.found = false) (hn : s.status.na = false)
    (hc : s.status.cookieOk = false) (he : s.status.err ≠ 0 →
      ((∃ x, decode s.cmd = .error x) ∧ s.status.err = ErrCode.illegalCommand.code) ∨
        ∃ i e, decode s.cmd = .ok i ∧ mayRaise i e = true ∧ s.status.err = e.code) : StatusDescribesCmd s :=
  ⟨by simp [hf], by simp [hn], by simp [hc], he⟩

/-- A command describes itself: the flags it sets and the error it raises are its own (R23, R202). -/
theorem statusDescribesCmd_exec {i : Instr} {s t : State} (h : exec i s = .next t) (hdec : decode s.cmd = .ok i) :
    StatusDescribesCmd t := by
  obtain ⟨u, hu, hcmd, -, hend⟩ := exec_ends i s
  rw [h] at hu
  cases hu
  rw [← hcmd] at hdec
  obtain ⟨f, n, c, hstatus, -, -, -, hfound, hna, hcookie⟩ | ⟨e, rfl, hmay⟩ := hend
  · simp only [StatusDescribesCmd, hstatus, statusComplete, hdec]
    exact ⟨fun hf => ⟨i, rfl, hfound hf⟩, fun hn => congrArg _ (hna hn),
      fun hc => (hcookie hc).imp (congrArg _) (congrArg _), fun he => absurd rfl he⟩
  · exact statusDescribesCmd_of_clear rfl rfl rfl fun _ => .inr ⟨i, e, hdec, hmay, rfl⟩

/-- An illegal word describes itself: it raises code 5 (R83). -/
theorem statusDescribesCmd_illegal {s : State} {x : DecodeReject} (h : decode s.cmd = .error x) :
    StatusDescribesCmd (raise .illegalCommand s) :=
  statusDescribesCmd_of_clear rfl rfl rfl fun _ => .inl ⟨⟨x, h⟩, rfl⟩

/-- A host write of a register other than CMD changes at most STICKY of what the property looks at. -/
theorem statusDescribesCmd_regWrite {s : State} (h : StatusDescribesCmd s) {r : RegName} (hr : r ≠ .CMD) (w : Word) :
    StatusDescribesCmd (regWrite r w s) := by
  cases r with
  | CMD => exact absurd rfl hr
  | STATUS =>
    refine statusDescribesCmd_of_same h rfl ?_
    simp only [regWrite, statusWritten]
    split
    · exact ⟨false, rfl⟩
    · exact ⟨_, rfl⟩
  | _ => exact h

/-- Settles O42: a write of CMD is the only event that changes CMD or sets a flag or a code, and it does both. -/
theorem stepKeepsStatusDescribingCmd : Obligations.StepKeepsStatusDescribingCmd := by
  intro s t h hstep
  cases step_cases hstep with
  | idle hb ht | regRead rest r hb ht | byteRead rest a ha hb ht | byteWrite rest a d ha hb ht => rw [ht]; exact h
  | pulse rest hb ht =>
    rw [ht]
    exact statusDescribesCmd_of_clear rfl rfl rfl fun he => absurd rfl he
  | regWrite rest r d hr hb ht =>
    rw [ht]
    exact statusDescribesCmd_regWrite (s := { s with bus := rest }) h hr _
  | illegal rest d x hb hd ht =>
    rw [ht]
    exact statusDescribesCmd_illegal hd
  | command rest d i hb hd ht => exact statusDescribesCmd_exec ht hd

end Sys2Proof.Machine
end

section
/-! PROOFS. A command as a plan: from its operands an error, or the flags and the writes it completes with. -/

namespace Sys2Proof.Machine

/-! ## Writes -/

/-- One write of a command: a named update of the state, its values given (R9, R41). -/
inductive Write where
  | hdrRegs (h : Header)
  | attrRegs (type dlen voff : Half)
  | xmaRegs (a : XorMappedAddr)
  | table (es : List AtabEntry)
  | bytes (a : Nat) (bs : Bytes)
  | olen (n : Half)
  | vlen (n : Half)
  | aplen (n : BitVec 17)
  | hlen (n : Half)

/-- What a write does to the state. -/
def Write.apply : Write → State → State
  | .hdrRegs h    => setHdrRegs h
  | .attrRegs t n v => setAttrRegs t n v
  | .xmaRegs a    => setXmaRegs a
  | .table es     => setAtab es
  | .bytes a bs   => memWrite a bs
  | .olen n       => setOlen n
  | .vlen n       => setVlen n
  | .aplen n      => setAplen n
  | .hlen n       => setHlen n

/-- The writes of a list, first to last. -/
def applyAll : List Write → State → State
  | [],      s => s
  | w :: ws, s => applyAll ws (w.apply s)

/-- How a command completes: its flags (R204) and its writes. -/
structure Effect where
  found    : Bool
  na       : Bool
  cookieOk : Bool
  writes   : List Write

/-- The state a command that completes leaves. -/
def Effect.apply (p : Effect) (s : State) : State := complete p.found p.na p.cookieOk (applyAll p.writes s)

/-- The writes of ATTR_GET and FIND_ATTR, with FOUND (R131, R177). -/
def loadEffect (e : AtabEntry) : Effect := ⟨true, false, false, [.attrRegs e.type e.dlen e.voff]⟩

/-- What a command will do, as far as its operands decide it. -/
def plan (s : State) : Instr → Except ErrCode Effect
  | .hdrDecode => do
    let h ← hdrDecode (received s)
    let h ← hdrCheck s.cfg h
    .ok ⟨false, false, cookieOk h, [.hdrRegs h]⟩
  | .hdrEncode => .ok ⟨false, false, false, [.bytes obufBase (hdrEncode (hdrRegs s)), .olen 20]⟩
  | .padLen n => .ok ⟨false, false, false, [.aplen (aplenOf n)]⟩
  | .attrDecode => do
    let a ← attrDecode (attrWindow s)
    .ok ⟨false, false, false, [.attrRegs a.type a.dlen (BitVec.ofNat 16 (s.aoff.toNat + 4))]⟩
  | .attrEncode => do
    let e ← attrEncode (stagedAttr s)
    if s.olen.toNat + e.length > s.cfg.bufBytes then .error .capacityExceeded
    else .ok ⟨false, false, false, [.bytes (obufBase + s.olen.toNat) e,
      .olen (BitVec.ofNat 16 (s.olen.toNat + e.length)), .aplen (aplenOf s.adlen)]⟩
  | .attrDecodeAll => do
    let as ← attrDecodeAll (attrWindow s) s.totlen.toNat
    let es ← tableOf s.cfg s.aoff.toNat as
    .ok ⟨false, false, false, [.table es]⟩
  | .attrGet i =>
    if i.toNat ≥ s.acount.toNat then .error .attributeNotFound else .ok (loadEffect (atabAt s i.toNat))
  | .xmaSerialize => do
    let v ← xmaSerialize (xmaRegs s)
    .ok ⟨false, false, false, [.bytes vbufBase v, .vlen 8]⟩
  | .xmaDeserialize => do
    let a ← xmaAt s.avoff.toNat s
    .ok ⟨false, false, false, [.xmaRegs a]⟩
  | .msgDecode => do
    let h ← hdrDecode (received s)
    let h ← hdrCheck s.cfg h
    let as ← sectionDecode (received s) h
    let es ← tableOf s.cfg 20 as
    .ok ⟨false, false, cookieOk h, [.hdrRegs h, .table es]⟩
  | .msgEncode =>
    if s.olen.toNat < 20 then .error .lengthMismatch
    else .ok ⟨false, false, false, [.hlen (BitVec.ofNat 16 (s.olen.toNat - 20)),
      .bytes obufBase (hdrEncode (hdrRegs (withComputedLength s)))]⟩
  | .findAttr t =>
    match findEntry t s with
    | none => .error .attributeNotFound
    | some e => .ok (loadEffect e)
  | .extractXma =>
    if s.htype ≠ typeBindingResponse then .ok ⟨false, true, false, []⟩
    else
      match findEntry attrXorMappedAddress s with
      | none => .error .attributeNotFound
      | some e =>
        if e.dlen.toNat < 8 then .error .shortBuffer
        else do
          let a ← xmaAt e.voff.toNat s
          .ok ⟨true, false, false, [.xmaRegs a]⟩

@[simp] theorem except_ok_bind {ε α β : Type} (a : α) (f : α → Except ε β) : (.ok a >>= f) = f a := rfl

@[simp] theorem except_error_bind {ε α β : Type} (e : ε) (f : α → Except ε β) : (.error e >>= f) = .error e := rfl

theorem except_bind_eq_ok {ε α β : Type} {x : Except ε α} {f : α → Except ε β} {b : β} :
    x >>= f = .ok b ↔ ∃ a, x = .ok a ∧ f a = .ok b := by
  cases x <;> simp

/-- A plan is what the command does. -/
theorem exec_eq_plan (i : Instr) (s : State) : exec i s = settle s ((plan s i).map (·.apply s)) := by
  cases i with
  | hdrEncode | padLen n => rfl
  | hdrDecode =>
    simp only [exec, execHdrDecode, plan]
    cases hdrDecode (received s) with
    | error e => rfl
    | ok h => simp only [except_ok_bind]; cases hdrCheck s.cfg h <;> rfl
  | attrDecode =>
    simp only [exec, execAttrDecode, plan]
    cases attrDecode (attrWindow s) <;> rfl
  | attrEncode =>
    simp only [exec, execAttrEncode, plan]
    cases attrEncode (stagedAttr s) with
    | error e => rfl
    | ok e => simp only [except_ok_bind]; split <;> rfl
  | attrDecodeAll =>
    simp only [exec, execAttrDecodeAll, plan]
    cases attrDecodeAll (attrWindow s) s.totlen.toNat with
    | error e => rfl
    | ok as => simp only [except_ok_bind]; cases tableOf s.cfg s.aoff.toNat as <;> rfl
  | attrGet i =>
    simp only [exec, execAttrGet, plan]
    split <;> rfl
  | xmaSerialize =>
    simp only [exec, execXmaSerialize, plan]
    cases xmaSerialize (xmaRegs s) <;> rfl
  | xmaDeserialize =>
    simp only [exec, execXmaDeserialize, plan]
    cases xmaAt s.avoff.toNat s <;> rfl
  | msgDecode =>
    simp only [exec, execMsgDecode, plan]
    cases hdrDecode (received s) with
    | error e => rfl
    | ok h =>
      simp only [except_ok_bind]
      cases hdrCheck s.cfg h with
      | error e => rfl
      | ok h =>
        simp only [except_ok_bind]
        cases sectionDecode (received s) h with
        | error e => rfl
        | ok as => simp only [except_ok_bind]; cases tableOf s.cfg 20 as <;> rfl
  | msgEncode =>
    simp only [exec, execMsgEncode, plan]
    split <;> rfl
  | findAttr t =>
    simp only [exec, execFindAttr, plan]
    cases findEntry t s <;> rfl
  | extractXma =>
    simp only [exec, execExtractXma, plan]
    split
    · rfl
    · cases findEntry attrXorMappedAddress s with
      | none => rfl
      | some e =>
        simp only
        split
        · rfl
        · cases xmaAt e.voff.toNat s <;> rfl

theorem exec_of_plan_error {i : Instr} {s : State} {e : ErrCode} (h : plan s i = .error e) :
    exec i s = .next (raise e s) := by
  rw [exec_eq_plan, h]
  rfl

theorem exec_of_plan_ok {i : Instr} {s : State} {p : Effect} (h : plan s i = .ok p) :
    exec i s = .next (p.apply s) := by
  rw [exec_eq_plan, h]
  rfl

/-! ## What writes leave alone -/

theorem apply_cfg (w : Write) (s : State) : (w.apply s).cfg = s.cfg := by cases w <;> rfl

@[simp] theorem applyAll_status (ws : List Write) : ∀ s, (applyAll ws s).status = s.status := by
  induction ws with
  | nil => exact fun _ => rfl
  | cons w ws ih => exact fun s => (ih _).trans (by cases w <;> rfl)

theorem regRead_apply {r : RegName} (h : r ∈ [RegName.CMD, .ILEN, .AOFF, .TOTLEN]) (w : Write) (s : State) :
    regRead r (w.apply s) = regRead r s := by
  cases r with
  | CMD | ILEN | AOFF | TOTLEN => cases w <;> rfl
  | _ => simp at h

theorem regRead_applyAll {r : RegName} (h : r ∈ [RegName.CMD, .ILEN, .AOFF, .TOTLEN]) (ws : List Write) :
    ∀ s, regRead r (applyAll ws s) = regRead r s := by
  induction ws with
  | nil => exact fun _ => rfl
  | cons w ws ih => exact fun s => (ih _).trans (regRead_apply h w s)

/-- The write stores a byte at an address. -/
def Write.Stores (a : Nat) : Write → Prop
  | .bytes x bs => x ≤ a ∧ a < x + bs.length
  | _ => False

/-- A write stores its own byte at an address, whatever was there, or leaves the byte. -/
theorem byteAt_apply (w : Write) (a : Nat) : (w.Stores a ∧ ∃ b, ∀ s, byteAt (w.apply s) a = b) ∨
    (¬w.Stores a ∧ ∀ s, byteAt (w.apply s) a = byteAt s a) := by
  cases w with
  | bytes x bs =>
    by_cases h : x ≤ a ∧ a < x + bs.length
    · exact .inl ⟨h, nth bs (a - x), fun s => (byteAt_memWrite s x bs a).trans (if_pos h)⟩
    · exact .inr ⟨h, fun s => (byteAt_memWrite s x bs a).trans (if_neg h)⟩
  | _ => exact .inr ⟨id, fun _ => rfl⟩

theorem byteAt_applyAll {a : Nat} {ws : List Write} (h : ∀ w ∈ ws, ¬w.Stores a) :
    ∀ s, byteAt (applyAll ws s) a = byteAt s a := by
  induction ws with
  | nil => exact fun _ => rfl
  | cons w ws ih =>
    obtain ⟨hw, hws⟩ := List.forall_mem_cons.1 h
    have hkeep := ((byteAt_apply w a).resolve_left fun hs => hw hs.1).2
    exact fun s => (ih hws _).trans (hkeep s)

/-- The write goes to the attribute table. -/
def Write.WritesTable : Write → Prop
  | .table _ => True
  | _ => False

theorem table_applyAll {ws : List Write} (h : ∀ w ∈ ws, ¬w.WritesTable) :
    ∀ s, SameTable s (applyAll ws s) ∧ regRead .ACOUNT (applyAll ws s) = regRead .ACOUNT s := by
  induction ws with
  | nil => exact fun s => ⟨fun _ => rfl, rfl⟩
  | cons w ws ih =>
    obtain ⟨hw, hws⟩ := List.forall_mem_cons.1 h
    have hkeep (s : State) : SameTable s (w.apply s) ∧ regRead .ACOUNT (w.apply s) = regRead .ACOUNT s := by
      cases w with
      | table es => exact absurd trivial hw
      | _ => exact ⟨fun _ => rfl, rfl⟩
    intro s
    obtain ⟨htable, hacount⟩ := ih hws (w.apply s)
    exact ⟨fun i => (htable i).trans ((hkeep s).1 i), hacount.trans (hkeep s).2⟩

end Sys2Proof.Machine
end

section
/-! PROOFS. What a command reads: with other contents of STATUS and of the bytes and entries it has no business with, it
does the same (R24, R43 to R45, R49, R232). -/

namespace Sys2Proof.Machine

/-- The state with another STATUS, another memory and another draw of the free contents. -/
def withContents (st : Status) (m : List Host.Cell) (k : Nat) (s : State) : State :=
  { s with status := st, mem := m, epoch := k }

/-! ## Writes commute with other contents -/

/-- What a write does to memory. -/
def Write.memAfter : Write → List Host.Cell → List Host.Cell
  | .bytes a bs, m => memPokes m a bs
  | _, m => m

/-- What the writes of a list do to memory. -/
def memAfterAll : List Write → List Host.Cell → List Host.Cell
  | [],      m => m
  | w :: ws, m => memAfterAll ws (w.memAfter m)

theorem applyAll_withContents (st : Status) (k : Nat) (ws : List Write) : ∀ (m : List Host.Cell) (s : State),
    applyAll ws (withContents st m k s) = withContents st (memAfterAll ws m) k (applyAll ws s) := by
  induction ws with
  | nil => exact fun _ _ => rfl
  | cons w ws ih =>
    intro m s
    have hw : w.apply (withContents st m k s) = withContents st (w.memAfter m) k (w.apply s) := by cases w <;> rfl
    rw [applyAll, hw, ih]
    rfl

theorem applyAll_mem (ws : List Write) : ∀ s, (applyAll ws s).mem = memAfterAll ws s.mem := by
  induction ws with
  | nil => exact fun _ => rfl
  | cons w ws ih => exact fun s => (ih _).trans (by cases w <;> rfl)

@[simp] theorem applyAll_epoch (ws : List Write) : ∀ s, (applyAll ws s).epoch = s.epoch := by
  induction ws with
  | nil => exact fun _ => rfl
  | cons w ws ih => exact fun s => (ih _).trans (by cases w <;> rfl)

theorem Effect.apply_status (p : Effect) (s : State) :
    (p.apply s).status = statusComplete p.found p.na p.cookieOk s.status :=
  congrArg (statusComplete _ _ _) (applyAll_status p.writes s)

theorem Effect.apply_mem (p : Effect) (s : State) : (p.apply s).mem = memAfterAll p.writes s.mem :=
  applyAll_mem p.writes s

theorem Effect.apply_epoch (p : Effect) (s : State) : (p.apply s).epoch = s.epoch := applyAll_epoch p.writes s

/-- A command that completes leaves the same state but for STATUS, memory and the draw, each from its own before. -/
theorem Effect.apply_withContents (p : Effect) (st : Status) (m : List Host.Cell) (k : Nat) (s : State) :
    p.apply (withContents st m k s) =
      withContents (statusComplete p.found p.na p.cookieOk st) (memAfterAll p.writes m) k (p.apply s) := by
  rw [Effect.apply, applyAll_withContents]
  rfl

/-! ## Plans depend on the operands alone -/

section
variable {st : Status} {m : List Host.Cell} {k : Nat} {s : State}
  (hreceived : ∀ a, 0x1000 ≤ a → a < 0x1000 + s.ilen.toNat → byteAt (withContents st m k s) a = byteAt s a)

include hreceived in
theorem memRead_ibuf_withContents {off n : Nat} (h : off + n ≤ s.ilen.toNat) :
    memRead (withContents st m k s) (ibufBase + off) n = memRead s (ibufBase + off) n :=
  memRead_congr fun j hj => hreceived _ (by simp only [ibufBase]; omega) (by simp only [ibufBase]; omega)

include hreceived in
theorem received_withContents : received (withContents st m k s) = received s :=
  memRead_ibuf_withContents hreceived (off := 0) (Nat.zero_add _).le

include hreceived in
theorem attrWindow_withContents : attrWindow (withContents st m k s) = attrWindow s := by
  by_cases h : s.aoff.toNat ≤ s.ilen.toNat
  · exact (if_pos h).trans ((memRead_ibuf_withContents hreceived (Nat.add_sub_cancel' h).le).trans (if_pos h).symm)
  · exact (if_neg h).trans (if_neg h).symm

include hreceived in
theorem xmaAt_withContents (off : Nat) : xmaAt off (withContents st m k s) = xmaAt off s := by
  by_cases h : off + 8 ≤ s.ilen.toNat
  · rw [xmaAt, xmaAt, memRead_ibuf_withContents hreceived h]
    rfl
  · have hshort := Nat.lt_of_not_le h
    exact (xmaAt_short (s := withContents st m k s) hshort).trans (xmaAt_short hshort).symm

variable
  (hstaged : ∀ a, 0x3000 ≤ a → a < 0x3000 + s.vlen.toNat → byteAt (withContents st m k s) a = byteAt s a)
  (hentries : ∀ i < s.acount.toNat, atabAt (withContents st m k s) i = atabAt s i)

include hstaged in
theorem stagedAttr_withContents : stagedAttr (withContents st m k s) = stagedAttr s := by
  have hvalue : stagedValue (withContents st m k s) = stagedValue s :=
    memRead_congr fun j hj => hstaged _ (Nat.le_add_right _ j) (Nat.add_lt_add_left hj _)
  simp only [stagedAttr, hvalue]
  rfl

include hentries in
theorem findEntry_withContents (t : Half) : findEntry t (withContents st m k s) = findEntry t s :=
  congrArg (List.find? _) (List.map_congr_left fun i hi => hentries i (List.mem_range.1 hi))

include hreceived hstaged hentries

/-- A plan depends on the parameters, the registers other than STATUS, the received bytes, the staged value and the
valid entries. -/
theorem plan_withContents (i : Instr) : plan (withContents st m k s) i = plan s i := by
  cases i with
  | hdrEncode | padLen | xmaSerialize | msgEncode => rfl
  | hdrDecode | msgDecode => simp only [plan, received_withContents hreceived]; rfl
  | attrDecode | attrDecodeAll => simp only [plan, attrWindow_withContents hreceived]; rfl
  | attrEncode => simp only [plan, stagedAttr_withContents hstaged]; rfl
  | xmaDeserialize => simp only [plan, xmaAt_withContents hreceived]; rfl
  | findAttr t => simp only [plan, findEntry_withContents hentries]
  | extractXma => simp only [plan, findEntry_withContents hentries, xmaAt_withContents hreceived]; rfl
  | attrGet i =>
    by_cases hi : i.toNat < s.acount.toNat
    · simp only [plan, hentries _ hi]
      rfl
    · exact (if_pos (Nat.le_of_not_lt hi)).trans (if_pos (Nat.le_of_not_lt hi)).symm

/-- A command run from states that differ in what it does not read raises the same error, or makes the same writes with
the same flags. -/
theorem exec_withContents (i : Instr) :
    (∃ e, exec i s = .next (raise e s) ∧
      exec i (withContents st m k s) = .next (raise e (withContents st m k s))) ∨
    ∃ p : Effect, exec i s = .next (p.apply s) ∧
      exec i (withContents st m k s) = .next (p.apply (withContents st m k s)) := by
  have hplan := plan_withContents hreceived hstaged hentries i
  cases h : plan s i with
  | error e => exact .inl ⟨e, exec_of_plan_error h, exec_of_plan_error (hplan.trans h)⟩
  | ok p => exact .inr ⟨p, exec_of_plan_ok h, exec_of_plan_ok (hplan.trans h)⟩

end

/-- Settles O44: a command reads nothing of STATUS, and of it keeps only STICKY. -/
theorem commandsDoNotDependOnStatus : Obligations.CommandsDoNotDependOnStatus := by
  intro i s st
  obtain ⟨e, ht, hu⟩ | ⟨p, ht, hu⟩ := exec_withContents (st := st) (m := s.mem) (k := s.epoch) (s := s)
    (fun _ _ _ => rfl) (fun _ _ _ => rfl) (fun _ _ => rfl) i
  · exact ⟨_, _, ht, hu, rfl, fun _ => rfl⟩
  · refine ⟨_, _, ht, hu, ?_, fun herr => absurd rfl herr⟩
    rw [Effect.apply_withContents, ← Effect.apply_mem, ← Effect.apply_epoch p s]
    rfl

/-- Settles O46: the reset state has no received byte, no staged byte and no valid entry. -/
theorem resetContentsDoNotMatter : Obligations.ResetContentsDoNotMatter := by
  intro i k
  obtain ⟨e, ht, hu⟩ | ⟨p, ht, hu⟩ := exec_withContents (st := State.reset.status) (m := State.reset.mem) (k := k)
    (s := State.reset) (fun _ hlo hhi => absurd hhi hlo.not_gt) (fun _ hlo hhi => absurd hhi hlo.not_gt)
    (fun j hj => absurd hj j.not_lt_zero) i
  · exact ⟨_, ht, hu⟩
  · refine ⟨_, ht, hu.trans ?_⟩
    rw [Effect.apply_withContents, ← Effect.apply_mem, ← Effect.apply_status]
    rfl

/-- The same writes on two states leave the same byte, or leave each state's own. -/
theorem byteAt_applyAll_agree (a : Nat) (ws : List Write) : ∀ s t : State,
    byteAt (applyAll ws t) a = byteAt (applyAll ws s) a ∨
      byteAt (applyAll ws t) a = byteAt t a ∧ byteAt (applyAll ws s) a = byteAt s a := by
  induction ws with
  | nil => exact fun _ _ => .inr ⟨rfl, rfl⟩
  | cons w ws ih =>
    intro s t
    obtain hsame | ⟨ht, hs⟩ := ih (w.apply s) (w.apply t)
    · exact .inl hsame
    · obtain ⟨-, b, hb⟩ | ⟨-, hkeep⟩ := byteAt_apply w a
      · exact .inl ((ht.trans (hb t)).trans (hs.trans (hb s)).symm)
      · exact .inr ⟨ht.trans (hkeep t), hs.trans (hkeep s)⟩

theorem regRead_withMem (r : RegName) (m : List Host.Cell) (s : State) :
    regRead r { s with mem := m } = regRead r s := by cases r <;> rfl

/-- Settles O45: the plan is the same, and its writes store the same bytes over either memory. -/
theorem commandsReadOnlyTheirOperands : Obligations.CommandsReadOnlyTheirOperands := by
  intro i s m hreceived hstaged
  obtain ⟨e, ht, hu⟩ | ⟨p, ht, hu⟩ := exec_withContents (st := s.status) (m := m) (k := s.epoch) (s := s)
    hreceived hstaged (fun _ _ => rfl) i
  · exact ⟨_, _, ht, hu, fun r => regRead_withMem r m (raise e s), fun _ => rfl, ⟨rfl, rfl, rfl, rfl⟩,
      fun _ => .inr ⟨rfl, rfl⟩⟩
  · have hmem : p.apply (withContents s.status m s.epoch s) = { p.apply s with mem := memAfterAll p.writes m } := by
      rw [Effect.apply_withContents, ← Effect.apply_status, ← Effect.apply_epoch p s]
      rfl
    refine ⟨_, _, ht, hu, ?_, ?_, ?_, fun a => byteAt_applyAll_agree a p.writes s (withContents s.status m s.epoch s)⟩
    all_goals rw [hmem]
    · exact fun r => regRead_withMem r _ _
    · exact fun _ => rfl
    · exact ⟨rfl, rfl, rfl, rfl⟩

end Sys2Proof.Machine
end

section
/-! PROOFS. What a command writes (R22 to R46), and the invariant of the machine. -/

namespace Sys2Proof.Machine

/-! ## Tables -/

theorem tableOf_eq_ok {c : Config} {off : Nat} {as : List Attr} {es : List AtabEntry} (h : tableOf c off as = .ok es) :
    as.length ≤ c.atabEntries ∧ es = tableEntries off as := by
  by_cases hcap : as.length ≤ c.atabEntries
  · rw [tableOf_ok hcap] at h
    exact ⟨hcap, (Except.ok.inj h).symm⟩
  · simp [tableOf_error (Nat.lt_of_not_le hcap)] at h

theorem hdrDecode_received_ok {s : State} {h : Header} (hd : hdrDecode (received s) = .ok h) :
    20 ≤ s.ilen.toNat ∧ h = ibufHeader s := by
  by_cases hlen : 20 ≤ s.ilen.toNat
  · rw [hdr_received hlen] at hd
    exact ⟨hlen, (Except.ok.inj hd).symm⟩
  · have hb : (received s).length < 20 := by simpa using hlen
    simp [hdrDecode_short hb] at hd

/-- The value of a described attribute starts after its 4 bytes and ends, padding included, at `stop` or before. -/
theorem attrsAt_entry {s : State} {stop : Nat} {es : List AtabEntry} {off : Nat} (h : AttrsAt s off stop es)
    {e : AtabEntry} (he : e ∈ es) :
    off + 4 ≤ e.voff.toNat ∧ e.voff.toNat + padded e.dlen.toNat ≤ stop := by
  induction es generalizing off with
  | nil => simp at he
  | cons x xs ih =>
    obtain ⟨-, -, hvoff, hstop, hrest⟩ := h
    obtain rfl | he := List.mem_cons.1 he
    · omega
    · have := ih hrest he
      omega

/-- The entries of ATTR_DECODE_ALL have their values within the received bytes. -/
theorem window_entry {s : State} {as : List Attr} (h : attrDecodeAll (attrWindow s) s.totlen.toNat = .ok as)
    {e : AtabEntry} (he : e ∈ tableEntries s.aoff.toNat as) :
    4 ≤ e.voff.toNat ∧ e.voff.toNat + padded e.dlen.toNat ≤ s.ilen.toNat := by
  obtain ⟨hfits, hat⟩ := attrsAt_of_attrDecodeAll_window h
  have := attrsAt_entry hat he
  omega

/-- The entries of MSG_DECODE have their values within the received bytes. -/
theorem section_entry {s : State} {as : List Attr} (h : sectionDecode (received s) (ibufHeader s) = .ok as)
    {e : AtabEntry} (he : e ∈ tableEntries 20 as) :
    4 ≤ e.voff.toNat ∧ e.voff.toNat + padded e.dlen.toNat ≤ s.ilen.toNat := by
  obtain ⟨hfits, hat⟩ := attrsAt_of_sectionDecode h
  have := attrsAt_entry hat he
  omega

/-! ## Which writes a command makes -/

/-- The commands that store bytes in a buffer (R43 to R45): three in OBUF, one in VBUF, none in IBUF. -/
def StoresIn (i : Instr) : Buf → Prop
  | .IBUF => False
  | .OBUF => i ∈ [.hdrEncode, .attrEncode, .msgEncode]
  | .VBUF => i = .xmaSerialize

/-- What a command may write in a state: bytes inside a buffer of its own, a table that fits of entries that lie within
the received bytes, counts within their buffers, and any other register. -/
def Write.Allowed (s : State) (i : Instr) : Write → Prop
  | .bytes a bs => ∃ b : Buf, StoresIn i b ∧ b.base ≤ a ∧ a + bs.length ≤ b.base + b.size s.cfg
  | .table es => i ∈ [.attrDecodeAll, .msgDecode] ∧ es.length ≤ s.cfg.atabEntries ∧
      ∀ e ∈ es, 4 ≤ e.voff.toNat ∧ e.voff.toNat + padded e.dlen.toNat ≤ s.ilen.toNat
  | .olen n => n.toNat ≤ s.cfg.bufBytes
  | .vlen n => n.toNat ≤ s.cfg.vbufBytes
  | .hdrRegs _ | .attrRegs .. | .xmaRegs _ | .aplen _ | .hlen _ => True

/-- The encoded header registers fit at the start of OBUF, whose least size they have (R6, R105, R176). -/
theorem allowed_header {s : State} (t : State) {i : Instr} (hi : StoresIn i .OBUF) (hbuf : 20 ≤ s.cfg.bufBytes) :
    (Write.bytes obufBase (hdrEncode (hdrRegs t))).Allowed s i :=
  ⟨.OBUF, hi, le_rfl, Nat.add_le_add_left ((hdrEncode_length (hdrRegs_valid t)).trans_le hbuf) _⟩

theorem xmaSerialize_length {a : XorMappedAddr} {v : Bytes} (h : xmaSerialize a = .ok v) : v.length = 8 := by
  by_cases hfam : a.family = familyIPv4
  · rw [xmaSerialize_ipv4 hfam] at h
    rw [← Except.ok.inj h, xmaBytes_length]
  · simp [xmaSerialize_otherFamily hfam] at h

theorem plan_allowed {s : State} (hlegal : s.cfg.Legal) {i : Instr} {p : Effect} (h : plan s i = .ok p) :
    ∀ w ∈ p.writes, w.Allowed s i := by
  obtain ⟨⟨hbuf, hbuf'⟩, ⟨hvbuf, -⟩, -⟩ := hlegal
  cases i with
  | hdrEncode =>
    cases h
    exact List.forall_mem_cons.2 ⟨allowed_header s (by simp [StoresIn]) hbuf, by simpa [Write.Allowed] using hbuf⟩
  | padLen n => cases h; simp [Write.Allowed]
  | hdrDecode =>
    simp only [plan, except_bind_eq_ok] at h
    obtain ⟨x, -, y, -, hp⟩ := h
    cases hp
    simp [Write.Allowed]
  | attrDecode =>
    simp only [plan, except_bind_eq_ok] at h
    obtain ⟨a, -, hp⟩ := h
    cases hp
    simp [Write.Allowed]
  | attrEncode =>
    simp only [plan, except_bind_eq_ok] at h
    obtain ⟨e, -, hp⟩ := h
    split at hp
    · cases hp
    · next hcap =>
      cases hp
      have hbytes : (Write.bytes (obufBase + s.olen.toNat) e).Allowed s .attrEncode :=
        ⟨.OBUF, by simp [StoresIn], Nat.le_add_right _ _, by simp only [Buf.base, Buf.size]; omega⟩
      have holen : (Write.olen (BitVec.ofNat 16 (s.olen.toNat + e.length))).Allowed s .attrEncode :=
        (Nat.mod_le _ _).trans (Nat.le_of_not_lt hcap)
      exact List.forall_mem_cons.2 ⟨hbytes, List.forall_mem_cons.2 ⟨holen, List.forall_mem_singleton.2 trivial⟩⟩
  | attrDecodeAll =>
    simp only [plan, except_bind_eq_ok] at h
    obtain ⟨as, has, es, hes, hp⟩ := h
    cases hp
    obtain ⟨hcap, rfl⟩ := tableOf_eq_ok hes
    simpa [Write.Allowed, hcap] using fun e he => window_entry has he
  | attrGet n =>
    simp only [plan] at h
    split at h
    · cases h
    · cases h
      simp [loadEffect, Write.Allowed]
  | xmaSerialize =>
    simp only [plan, except_bind_eq_ok] at h
    obtain ⟨v, hv, hp⟩ := h
    cases hp
    have hbytes : (Write.bytes vbufBase v).Allowed s .xmaSerialize :=
      ⟨.VBUF, rfl, le_rfl, Nat.add_le_add_left ((xmaSerialize_length hv).trans_le hvbuf) _⟩
    exact List.forall_mem_cons.2 ⟨hbytes, by simpa [Write.Allowed] using hvbuf⟩
  | xmaDeserialize =>
    simp only [plan, except_bind_eq_ok] at h
    obtain ⟨a, -, hp⟩ := h
    cases hp
    simp [Write.Allowed]
  | msgDecode =>
    simp only [plan, except_bind_eq_ok] at h
    obtain ⟨x, hx, y, hy, as, has, es, hes, hp⟩ := h
    cases hp
    obtain ⟨-, rfl⟩ := hdrDecode_received_ok hx
    obtain rfl := hdrCheck_ok hy
    obtain ⟨hcap, rfl⟩ := tableOf_eq_ok hes
    simpa [Write.Allowed, hcap] using fun e he => section_entry has he
  | msgEncode =>
    simp only [plan] at h
    split at h
    · cases h
    · cases h
      exact List.forall_mem_cons.2 ⟨trivial, List.forall_mem_singleton.2 (allowed_header _ (by simp [StoresIn]) hbuf)⟩
  | findAttr t =>
    simp only [plan] at h
    split at h
    · cases h
    · cases h
      simp [loadEffect, Write.Allowed]
  | extractXma =>
    simp only [plan] at h
    split at h
    · cases h
      simp
    · split at h
      · cases h
      · split at h
        · cases h
        · obtain ⟨a, -, hp⟩ := except_bind_eq_ok.1 h
          cases hp
          simp [Write.Allowed]

/-! ## Frames of all commands -/

theorem inBuf_iff {c : Config} {b : Buf} {a : Nat} : inBuf c b a = true ↔ b.base ≤ a ∧ a < b.base + b.size c := by
  simp [inBuf]

/-- The three buffers do not overlap (R6, R60). -/
theorem inBuf_unique {c : Config} (hlegal : c.Legal) {b b' : Buf} {a : Nat} (h : inBuf c b a = true)
    (h' : inBuf c b' a = true) : b = b' := by
  obtain ⟨⟨-, hbuf⟩, ⟨-, hvbuf⟩, -⟩ := hlegal
  rw [inBuf_iff] at h h'
  cases b <;> cases b' <;>
    simp only [Buf.base, Buf.size, ibufBase, obufBase, vbufBase, reduceCtorEq] at h h' ⊢ <;> omega

theorem stores_of_allowed {s : State} {i : Instr} {w : Write} (h : w.Allowed s i) {a : Nat} (hs : w.Stores a) :
    ∃ b, StoresIn i b ∧ inBuf s.cfg b a = true := by
  cases w with
  | bytes x bs =>
    obtain ⟨b, hb, hlo, hhi⟩ := h
    obtain ⟨hx, ha⟩ := hs
    exact ⟨b, hb, inBuf_iff.2 ⟨hlo.trans hx, ha.trans_le hhi⟩⟩
  | _ => exact hs.elim

/-- A command changes no byte of a buffer that it does not store in. -/
theorem byteAt_exec {i : Instr} {s t : State} (hlegal : s.cfg.Legal) (h : exec i s = .next t) {b : Buf}
    (hb : ¬StoresIn i b) {a : Nat} (ha : inBuf s.cfg b a = true) : byteAt t a = byteAt s a := by
  cases hplan : plan s i with
  | error e =>
    rw [exec_of_plan_error hplan] at h
    cases h
    rfl
  | ok p =>
    rw [exec_of_plan_ok hplan] at h
    cases h
    refine byteAt_applyAll (fun w hw hs => hb ?_) s
    obtain ⟨b', hb', ha'⟩ := stores_of_allowed (plan_allowed hlegal hplan w hw) hs
    rwa [inBuf_unique hlegal ha ha']

/-- A command that does not decode a list leaves ATAB and ACOUNT. -/
theorem table_exec {i : Instr} {s t : State} (hlegal : s.cfg.Legal) (h : exec i s = .next t)
    (hi : i ∉ [.attrDecodeAll, .msgDecode]) : SameTable s t ∧ regRead .ACOUNT t = regRead .ACOUNT s := by
  cases hplan : plan s i with
  | error e =>
    rw [exec_of_plan_error hplan] at h
    cases h
    exact ⟨fun _ => rfl, rfl⟩
  | ok p =>
    rw [exec_of_plan_ok hplan] at h
    cases h
    refine table_applyAll (fun w hw ht => hi ?_) s
    have hallowed := plan_allowed hlegal hplan w hw
    cases w with
    | table es => exact hallowed.1
    | _ => exact ht.elim

/-- A command leaves the registers that only the host writes. -/
theorem hostRegs_exec {i : Instr} {s t : State} (h : exec i s = .next t) {r : RegName}
    (hr : r ∈ [RegName.CMD, .ILEN, .AOFF, .TOTLEN]) : regRead r t = regRead r s := by
  have hstatus : r ≠ .STATUS := by rintro rfl; simp at hr
  cases hplan : plan s i with
  | error e =>
    rw [exec_of_plan_error hplan] at h
    cases h
    exact (raised_raise e s).2.1 r (by simpa using hstatus)
  | ok p =>
    rw [exec_of_plan_ok hplan] at h
    cases h
    exact (regRead_complete hstatus _ _ _ _).trans (regRead_applyAll hr p.writes s)

/-- Settles O38: each part follows from what the command is allowed to write. -/
theorem commandsLeaveHostOperandsAlone : Obligations.CommandsLeaveHostOperandsAlone := by
  intro i s hlegal
  obtain ⟨t, ht, -, hmodel⟩ := exec_next i s
  exact ⟨t, ht, hmodel, fun r => hostRegs_exec ht, fun a => byteAt_exec hlegal ht (b := .IBUF) id,
    fun hi a => byteAt_exec hlegal ht (b := .OBUF) hi, fun hi a => byteAt_exec hlegal ht (b := .VBUF) hi,
    table_exec hlegal ht⟩

/-! ## The invariant -/

/-- Settles O40: the reset state has no written byte and no entry, zero counts and a clear STATUS. -/
theorem invariantAtReset : Obligations.InvariantAtReset :=
  ⟨inv_reset, statusDescribesCmd_of_clear rfl rfl rfl fun herr => absurd rfl herr⟩

/-- An allowed write keeps the invariant. It is allowed by the state `s` the command started in. -/
theorem inv_apply {s t : State} {i : Instr} {w : Write} (hilen : s.ilen.toNat ≤ s.cfg.bufBytes) (hcfg : t.cfg = s.cfg)
    (hinv : t.Inv) (hw : w.Allowed s i) : (w.apply t).Inv := by
  cases w with
  | hdrRegs h => exact inv_setHdrRegs hinv h
  | attrRegs ty n v => exact inv_setAttrRegs hinv ty n v
  | xmaRegs a => exact inv_setXmaRegs hinv a
  | aplen n => exact inv_setAplen hinv n
  | hlen n => exact inv_setHlen hinv n
  | olen n => exact inv_setOlen hinv (by rw [hcfg]; exact hw)
  | vlen n => exact inv_setVlen hinv (by rw [hcfg]; exact hw)
  | table es =>
    obtain ⟨-, hlen, hes⟩ := hw
    refine inv_setAtab hinv (by rwa [hcfg]) fun e he => ?_
    obtain ⟨hlo, hhi⟩ := hes e he
    rw [hcfg, EntryInIbuf, pad4_eq_padded]
    exact ⟨hlo, hhi.trans hilen⟩
  | bytes a bs =>
    obtain ⟨b, -, hlo, hhi⟩ := hw
    refine inv_memWrite hinv fun k hk => ?_
    rw [hcfg, show a + k = b.base + (a + k - b.base) by omega]
    exact mappedByte_buf (by omega)

theorem inv_applyAll {s : State} {i : Instr} (hilen : s.ilen.toNat ≤ s.cfg.bufBytes) {ws : List Write}
    (hws : ∀ w ∈ ws, w.Allowed s i) : ∀ {t : State}, t.cfg = s.cfg → t.Inv → (applyAll ws t).Inv := by
  induction ws with
  | nil => exact fun _ h => h
  | cons w ws ih =>
    obtain ⟨hw, hws⟩ := List.forall_mem_cons.1 hws
    exact fun hcfg hinv => ih hws ((apply_cfg w _).trans hcfg) (inv_apply hilen hcfg hinv hw)

theorem statusCoherent_statusComplete {i : Instr} {f n c : Bool} (h : FlagsOf i f n c) (st : Status) :
    StatusCoherent (statusComplete f n c st) := by
  obtain ⟨hfn, hfc, hnc, -⟩ := h
  simp only [statusComplete]
  generalize st.sticky = y
  revert f n c y
  decide

theorem statusCoherent_raised (e : ErrCode) : StatusCoherent (statusRaised e) := by cases e <;> decide

/-- Whatever STATUS was, a command leaves it coherent. -/
theorem statusCoherent_exec {i : Instr} {s t : State} (h : exec i s = .next t) : StatusCoherent t.status := by
  obtain ⟨u, hu, -, -, ⟨f, n, c, hstatus, hflags⟩ | ⟨e, rfl, -⟩⟩ := exec_ends i s
  all_goals
    rw [h] at hu
    cases hu
  · rw [hstatus]
    exact statusCoherent_statusComplete hflags _
  · exact statusCoherent_raised e

theorem inv_exec {i : Instr} {s t : State} (hinv : s.Inv) (h : exec i s = .next t) : t.Inv := by
  have hstatus := statusCoherent_exec h
  cases hplan : plan s i with
  | error e =>
    rw [exec_of_plan_error hplan] at h
    cases h
    exact inv_raise hinv e
  | ok p =>
    rw [exec_of_plan_ok hplan] at h
    cases h
    exact { inv_applyAll hinv.ilen (plan_allowed hinv.legal hplan) rfl hinv with status := hstatus }

theorem inv_powerUp {s : State} (h : s.Inv) : (powerUp s).Inv :=
  inv_same (inv_receiving (bs := []) h.legal (Nat.zero_le _)) rfl rfl rfl rfl rfl rfl rfl rfl

/-- The bus, the answer and CMD are of no concern to the invariant. -/
theorem inv_withBus {s : State} (h : s.Inv) (b : List Event) (a : Response) (w : Word) :
    State.Inv { s with bus := b, resp := a, cmd := w } := inv_same h rfl rfl rfl rfl rfl rfl rfl rfl

/-- Settles O41: each event keeps the invariant, a command by the writes it is allowed. -/
theorem stepKeepsInvariant : Obligations.StepKeepsInvariant := by
  intro s t hinv hstep
  cases step_cases hstep with
  | idle hb ht => rwa [ht]
  | pulse rest hb ht => rw [ht]; exact inv_powerUp (inv_withBus hinv rest s.resp s.cmd)
  | regRead rest r hb ht | byteRead rest a ha hb ht => rw [ht]; exact inv_withBus hinv _ _ _
  | regWrite rest r d hr hb ht =>
    rw [ht]
    exact inv_withBus (inv_regWrite (inv_withBus hinv rest s.resp s.cmd) r _) _ _ _
  | byteWrite rest a d ha hb ht =>
    rw [ht]
    refine inv_withBus (inv_memWrite (inv_withBus hinv rest s.resp s.cmd) fun k hk => ?_) _ _ _
    obtain rfl : k = 0 := Nat.lt_one_iff.1 hk
    exact ha
  | illegal rest d x hb hd ht => rw [ht]; exact inv_raise (inv_withBus hinv _ _ _) _
  | command rest d i hb hd ht => exact inv_exec (inv_withBus hinv _ _ _) ht

end Sys2Proof.Machine
end

section
/-! PROOFS. The laws of messages (R171, R172, R176): the round trip, and what MSG_ENCODE builds. -/

namespace Sys2Proof.Machine

/-! ## `msg_decode` of `msg_encode` (R172) -/

/-- A header decodes from its encoding, whatever follows it (R101). -/
theorem hdrDecode_hdrEncode_append {h : Header} (hv : h.Valid) (rest : Bytes) :
    hdrDecode (hdrEncode h ++ rest) = .ok h := by
  have hlen := hdrEncode_length hv
  have htxid : slice (hdrEncode h ++ rest) 8 20 = slice (hdrEncode h) 8 20 := by
    rw [slice, slice, List.take_append_of_le_length hlen.ge]
  rw [← hdrDecode_hdrEncode hv, hdrDecode_ok (by simp [hlen]), hdrDecode_ok hlen.ge, htxid]
  rfl

theorem length_flatMap_attrBytes {as : List Attr} (h : ∀ a ∈ as, attrValid a) :
    (as.flatMap attrBytes).length = (as.map (fun a => 4 + a.plen)).sum := by
  rw [List.length_flatMap]
  exact congrArg List.sum (List.map_congr_left fun a ha => attrBytes_length (h a ha))

theorem msgEncode_ok {m : Message} {e : Bytes} (h : attrsEncode m.attrs = .ok e) (hlen : e.length ≤ 0xFFFF) :
    msgEncode m = .ok (hdrEncode { m.header with length := BitVec.ofNat 16 e.length } ++ e) := by
  simp only [msgEncode, h]
  exact if_neg hlen.not_gt

/-- Decoding reads a header with the right length and, after its 20 bytes, exactly the attributes (R171). -/
theorem msgDecode_hdrEncode_append {h : Header} (hv : h.Valid) {as : List Attr} (has : ∀ a ∈ as, attrValid a)
    (hlen : h.length.toNat = (as.flatMap attrBytes).length) :
    msgDecode (hdrEncode h ++ as.flatMap attrBytes) = .ok ⟨h, as⟩ := by
  have h20 := hdrEncode_length hv
  have hrest : slice (hdrEncode h ++ as.flatMap attrBytes) 20 (hdrEncode h ++ as.flatMap attrBytes).length =
      as.flatMap attrBytes := by
    rw [slice, List.take_length, List.drop_left' h20]
  have hsection : sectionDecode (hdrEncode h ++ as.flatMap attrBytes) h = .ok as := by
    rw [sectionDecode, if_neg (by simp [h20, hlen]), hrest, hlen, attrDecodeAll_flatMap_attrBytes has]
  simp only [msgDecode, hdrDecode_hdrEncode_append hv, hsection]

theorem valid_withLength {h : Header} (hv : h.Valid) (n : Half) : Header.Valid { h with length := n } := hv

/-- Settles O32: the encoding is a header with the computed length and the attributes' bytes, each read back in turn. -/
theorem messageDecodesFromItsEncoding : Obligations.MessageDecodesFromItsEncoding := by
  intro m hv has hsum
  rw [← length_flatMap_attrBytes has] at hsum ⊢
  have hcomputed : (BitVec.ofNat 16 (m.attrs.flatMap attrBytes).length).toNat = (m.attrs.flatMap attrBytes).length := by
    rw [BitVec.toNat_ofNat]
    omega
  refine ⟨_, msgEncode_ok (attrsEncode_valid has) hsum, ?_⟩
  exact msgDecode_hdrEncode_append (valid_withLength hv _) has hcomputed

/-! ## MSG_ENCODE (R176) -/

/-- The state that MSG_ENCODE leaves when it completes. -/
def msgEncoded (s : State) : State :=
  complete false false false
    (memWrite obufBase (hdrEncode (hdrRegs (withComputedLength s))) (withComputedLength s))

theorem exec_msgEncode_completes {s : State} (h : 20 ≤ s.olen.toNat) : exec .msgEncode s = .next (msgEncoded s) := by
  simp only [exec, execMsgEncode, if_neg h.not_gt, settle_ok, msgEncoded]

@[simp] theorem msgEncoded_olen (s : State) : (msgEncoded s).olen = s.olen := by simp [msgEncoded, withComputedLength]

/-- The header that MSG_ENCODE writes to OBUF, and leaves in the header registers. -/
theorem hdrRegs_withComputedLength (s : State) :
    hdrRegs (withComputedLength s) = { hdrRegs s with length := BitVec.ofNat 16 (s.olen.toNat - 20) } := by
  simp [hdrRegs, withComputedLength]

theorem hdrRegs_msgEncoded (s : State) :
    hdrRegs (msgEncoded s) = { hdrRegs s with length := BitVec.ofNat 16 (s.olen.toNat - 20) } := by
  simp [hdrRegs, msgEncoded, withComputedLength]

theorem computedLength_toNat (s : State) : (BitVec.ofNat 16 (s.olen.toNat - 20)).toNat = s.olen.toNat - 20 := by
  have := s.olen.isLt
  rw [BitVec.toNat_ofNat]
  omega

theorem obufBytes_append (s : State) (off m n : Nat) :
    obufBytes s off (m + n) = obufBytes s off m ++ obufBytes s (off + m) n := by
  simp only [obufBytes, List.range_add, List.map_append, List.map_map]
  congr 2
  funext k
  simp [Nat.add_assoc]

@[simp] theorem obufBytes_setHlen (p : Half) (s : State) (off len : Nat) :
    obufBytes (setHlen p s) off len = obufBytes s off len := rfl

/-- Bytes of OBUF outside a written range are as before. -/
theorem obufBytes_memWrite_outside (s : State) {x off n : Nat} {bs : Bytes}
    (h : x + bs.length ≤ 0x2000 + off ∨ 0x2000 + off + n ≤ x) :
    obufBytes (memWrite x bs s) off n = obufBytes s off n := by
  refine List.map_congr_left fun k hk => ?_
  have := List.mem_range.1 hk
  exact (byteAt_memWrite s x bs _).trans (if_neg (by omega))

theorem obufBytes_memWrite_all (s : State) (o : Nat) (bs : Bytes) :
    obufBytes (memWrite (obufBase + o) bs s) o bs.length = bs := memRead_memWrite s (obufBase + o) bs

/-- After MSG_ENCODE the first 20 bytes of OBUF are the header, and the bytes after it are as before. -/
theorem obufBytes_msgEncoded (s : State) (n : Nat) :
    obufBytes (msgEncoded s) 0 (20 + n) = hdrEncode (hdrRegs (msgEncoded s)) ++ obufBytes s 20 n := by
  have hlen := hdrEncode_length (hdrRegs_valid (withComputedLength s))
  have hstart := obufBytes_memWrite_all (withComputedLength s) 0
    (hdrEncode (hdrRegs (withComputedLength s)))
  have hrest := obufBytes_memWrite_outside (withComputedLength s) (x := obufBase) (off := 20) (n := n)
    (bs := hdrEncode (hdrRegs (withComputedLength s))) (.inl (by rw [hlen]; rfl))
  rw [hlen, Nat.add_zero] at hstart
  rw [obufBytes_append, hdrRegs_msgEncoded, ← hdrRegs_withComputedLength, msgEncoded, obufBytes_complete, hstart,
    obufBytes_complete, Nat.zero_add, hrest, withComputedLength, obufBytes_setHlen]

/-- The law of R176: if OBUF from byte 20 to OLEN holds the encodings of a list, then after MSG_ENCODE the OLEN bytes of
OBUF are `msg_encode` of the header registers and that list. -/
theorem msgEncode_msgEncoded {s : State} {as : List Attr} {e : Bytes} (he : attrsEncode as = .ok e)
    (holen : s.olen.toNat = 20 + e.length) (hobuf : obufBytes s 20 e.length = e) :
    msgEncode { header := hdrRegs (msgEncoded s), attrs := as } =
      .ok (obufBytes (msgEncoded s) 0 (regNat .OLEN (msgEncoded s))) := by
  have hcount : s.olen.toNat - 20 = e.length := by omega
  have := s.olen.isLt
  rw [regNat_OLEN, msgEncoded_olen, holen, obufBytes_msgEncoded, hobuf, msgEncode_ok he (by omega), hdrRegs_msgEncoded,
    hcount]

/-- Settles O25: the two outcomes of MSG_ENCODE, by OLEN, and the law of R176. -/
theorem msgEncodeMeaning : Obligations.MsgEncodeMeaning := by
  refine ⟨decode_encode .msgEncode, fun s => ?_⟩
  rw [regNat_OLEN]
  refine ⟨fun hshort => ⟨_, exec_msgEncode_lengthMismatch hshort, raised_raise _ s⟩, fun hlen =>
    ⟨_, exec_msgEncode_completes hlen, ?hlen, ?inObuf, fun a ha => ?bytes, completedWith_complete ?status _ _ _,
      sameRegsExcept_complete (fun r hr => ?regs) _ _ _, fun i => ?table, ?model,
      fun as e he holen hobuf => msgEncode_msgEncoded he holen hobuf⟩⟩
  case hlen => rw [regNat_HLEN, ← computedLength_toNat s]; simp [msgEncoded, withComputedLength]
  case inObuf =>
    rw [← computedLength_toNat s]
    refine hdrInObuf fun off n => ?_
    rw [← hdrRegs_withComputedLength]
    exact obufBytes_congr (by simp [msgEncoded, withComputedLength]) (by simp [msgEncoded, withComputedLength])
  case bytes =>
    rw [msgEncoded, byteAt_complete, byteAt_memWrite, hdrEncode_length (hdrRegs_valid _), withComputedLength,
      byteAt_setHlen]
    exact if_neg ha
  case status => simp [withComputedLength]
  case regs => rw [regRead_memWrite, withComputedLength, regRead_setHlen (List.ne_of_not_mem_cons hr)]
  case table => simp [msgEncoded, withComputedLength]
  case model => simp [SameModelFields, msgEncoded, withComputedLength]

/-! ## HDR_ENCODE, ATTR_ENCODEs and MSG_ENCODE (R176) -/

/-- OBUF holds the encodings of a list of attributes from byte 20 to OLEN, inside its capacity. -/
def HoldsAttrs (s : State) (as : List Attr) : Prop :=
  ∃ e, attrsEncode as = .ok e ∧ s.olen.toNat = 20 + e.length ∧ s.olen.toNat ≤ s.cfg.bufBytes ∧
    obufBytes s 20 e.length = e

theorem attrsEncode_append {as : List Attr} {e : Bytes} (h : attrsEncode as = .ok e) {a : Attr} (ha : attrValid a) :
    attrsEncode (as ++ [a]) = .ok (e ++ attrBytes a) := by
  induction as generalizing e with
  | nil =>
    cases h
    simp [attrsEncode, attrEncode_valid ha]
  | cons x xs ih =>
    simp only [attrsEncode] at h
    split at h
    · cases h
    · next ex hx =>
      split at h
      · cases h
      · next exs hxs =>
        cases h
        simp [attrsEncode, hx, ih hxs]

theorem holdsAttrs_hdrEncode {s t : State} (hlegal : t.cfg.Legal) (h : exec .hdrEncode s = .next t) :
    HoldsAttrs t [] := by
  rw [exec_hdrEncode] at h
  cases h
  obtain ⟨⟨hbuf, -⟩, -⟩ := hlegal
  exact ⟨[], rfl, by simp, by simpa using hbuf, rfl⟩

/-- ATTR_ENCODE completes only by appending the staged attribute (R129). -/
theorem holdsAttrs_attrEncode {s t : State} {as : List Attr} (hlegal : s.cfg.Legal) (hs : HoldsAttrs s as)
    (h : exec .attrEncode s = .next t) (herr : t.status.err = 0) : HoldsAttrs t (as ++ [stagedAttr s]) := by
  obtain ⟨e, he, holen, hcap, hobuf⟩ := hs
  by_cases hvlen : s.vlen.toNat = padded s.adlen.toNat
  · by_cases hfits : s.olen.toNat + (4 + padded s.adlen.toNat) ≤ s.cfg.bufBytes
    · rw [exec_attrEncode_completes hvlen hfits, ← stagedAttr_bytes_length hvlen] at h
      rw [← stagedAttr_bytes_length hvlen] at hfits
      cases h
      have holen' : (BitVec.ofNat 16 (s.olen.toNat + (attrBytes (stagedAttr s)).length)).toNat =
          20 + (e ++ attrBytes (stagedAttr s)).length := by
        obtain ⟨⟨-, hbuf⟩, -⟩ := hlegal
        rw [BitVec.toNat_ofNat, List.length_append]
        omega
      have hbefore := obufBytes_memWrite_outside s (x := obufBase + s.olen.toNat) (off := 20) (n := e.length)
        (bs := attrBytes (stagedAttr s)) (.inr (by simp only [obufBase]; omega))
      have hafter := obufBytes_memWrite_all s s.olen.toNat (attrBytes (stagedAttr s))
      rw [holen] at hbefore hafter
      refine ⟨e ++ attrBytes (stagedAttr s), attrsEncode_append he (stagedAttr_valid hvlen), holen', ?_, ?_⟩
      · rw [complete_olen, setAplen_olen, setOlen_olen, holen']
        simp
        omega
      · rw [List.length_append, obufBytes_append, obufBytes_complete, obufBytes_setAplen, obufBytes_setOlen, holen]
        simp [hbefore, hafter, hobuf]
    · rw [exec_attrEncode_capacityExceeded hvlen (Nat.lt_of_not_le hfits)] at h
      cases h
      simp [statusRaised, ErrCode.code] at herr
  · rw [exec_attrEncode_lengthMismatch hvlen] at h
    cases h
    simp [statusRaised, ErrCode.code] at herr

/-- The property is about OLEN and OBUF only. -/
theorem holdsAttrs_of_same {s t : State} {as : List Attr} (hs : HoldsAttrs s as) (hcfg : t.cfg = s.cfg)
    (holen : regRead .OLEN t = regRead .OLEN s) (hobuf : ∀ a, inBuf s.cfg .OBUF a = true → byteAt t a = byteAt s a) :
    HoldsAttrs t as := by
  obtain ⟨e, he, hlen, hcap, hbytes⟩ := hs
  have holen' : t.olen.toNat = s.olen.toNat := by
    rw [← regNat_OLEN, ← regNat_OLEN, regNat, regNat, holen]
  have hsame : obufBytes t 20 e.length = obufBytes s 20 e.length := by
    refine List.map_congr_left fun k hk => hobuf _ (inBuf_iff.2 ?_)
    have := List.mem_range.1 hk
    simp only [Buf.base, Buf.size, obufBase]
    omega
  exact ⟨e, he, by rw [holen', hlen], by rw [holen', hcfg]; exact hcap, hsame.trans hbytes⟩

theorem holdsAttrs_of_encodedSinceHeader {s : State} {as : List Attr} (h : EncodedSinceHeader s as)
    (hlegal : s.cfg.Legal) : HoldsAttrs s as := by
  induction h with
  | header h => exact holdsAttrs_hdrEncode hlegal h
  | @append s t as hs h herr ih =>
    obtain ⟨u, hu, -, hcfg, -⟩ := exec_next .attrEncode s
    rw [h] at hu
    cases hu
    rw [hcfg] at hlegal
    exact holdsAttrs_attrEncode hlegal (ih hlegal) h herr
  | between hs hcfg holen hobuf ih => exact holdsAttrs_of_same (ih (hcfg ▸ hlegal)) hcfg holen hobuf

/-- Settles O34: OBUF holds the encodings of the attributes, to which the law of R176 applies. -/
theorem encodeCommandsBuildTheMessage : Obligations.EncodeCommandsBuildTheMessage := by
  intro s as hlegal h
  obtain ⟨e, he, holen, -, hobuf⟩ := holdsAttrs_of_encodedSinceHeader h hlegal
  exact ⟨_, exec_msgEncode_completes (by omega), msgEncode_msgEncoded he holen hobuf⟩

end Sys2Proof.Machine
end

section
/-! PROOFS. MSG_DECODE and EXTRACT_XMA against `msg_decode` and `extract_mapped_address` (R171, R174, R175, R178). -/

namespace Sys2Proof.Machine

/-! ## The header registers hold the header -/

/-- The three words of a transaction ID are its 12 bytes (R31). -/
theorem tobe32_txidWord {t : Bytes} (h : t.length = 12) :
    tobe32 (txidWord t 0) ++ tobe32 (txidWord t 1) ++ tobe32 (txidWord t 2) = t := by
  have hword (k : Nat) (hk : 4 * k + 4 ≤ t.length) : tobe32 (txidWord t k) = slice t (4 * k) (4 * k + 4) :=
    tobe32_be32_nth hk
  rw [hword 0 (by omega), hword 1 (by omega), hword 2 (by omega), slice_append_slice t (by decide) (by decide),
    slice_append_slice t (by decide) (by decide)]
  exact List.take_of_length_le h.le

theorem hdrRegs_setHdrRegs {h : Header} (hv : h.Valid) (s : State) : hdrRegs (setHdrRegs h s) = h := by
  have htxid := tobe32_txidWord hv
  simp only [hdrRegs, setHdrRegs_htype, setHdrRegs_hlen, setHdrRegs_hcookie, setHdrRegs_txid0, setHdrRegs_txid1,
    setHdrRegs_txid2, htxid]

theorem ibufHeader_valid {s : State} (h : 20 ≤ s.ilen.toNat) : (ibufHeader s).Valid := by
  simp [Header.Valid, ibufHeader]
  omega

/-! ## The table entries describe the attributes -/

/-- What a table entry says of an attribute: its type, its declared length and the value that IBUF holds for it. -/
def described (s : State) (e : AtabEntry) : Half × Half × Bytes :=
  (e.type, e.dlen, ibufBytes s e.voff.toNat (pad4 e.dlen.toNat))

theorem ibufBytes_eq_memRead (s : State) (off n : Nat) : ibufBytes s off n = memRead s (ibufBase + off) n := by
  simp [ibufBytes, ibuf, memRead, ibufBase, Nat.add_assoc]

theorem described_congr {s t : State} (hm : t.mem = s.mem) (he : t.epoch = s.epoch) : described t = described s := by
  funext e
  simp only [described, ibufBytes, ibuf, byteAt_congr hm he]

theorem map_described_tableEntries {s : State} {base n total : Nat} (hn : total ≤ n) (hw : base + total < 65536)
    {as : List Attr} : ∀ {cur : Nat}, AttrsIn (memRead s (ibufBase + base) n) total cur as →
    (tableEntries (base + cur) as).map (described s) = as.map (fun a => (a.type, a.dlen, a.value)) := by
  induction as with
  | nil => exact fun _ => rfl
  | cons a as ih =>
    rintro cur ⟨ha, has⟩
    rw [slice_memRead s hn] at ha
    obtain ⟨hvalid, hlen, -, -, hvalue⟩ := attrDecode_valid ha
    rw [memRead_length] at hlen
    rw [slice_memRead s hlen] at hvalue
    have hvoff : (BitVec.ofNat 16 (base + cur + 4)).toNat = base + cur + 4 := by
      rw [BitVec.toNat_ofNat]
      omega
    have hfirst : ibufBytes s (base + cur + 4) (pad4 a.dlen.toNat) = a.value := by
      rw [hvalue, ← hvalid.1, ibufBytes_eq_memRead]
      simp [Nat.add_assoc]
    have hrest := ih has
    rw [show base + (cur + 4 + a.plen) = base + cur + 4 + a.plen by omega] at hrest
    rw [tableEntries, List.map_cons, List.map_cons, hrest, described, hvoff, hfirst]

theorem map_described_section {s : State} {as : List Attr} (h : sectionDecode (received s) (ibufHeader s) = .ok as) :
    (tableEntries 20 as).map (described s) = as.map (fun a => (a.type, a.dlen, a.value)) := by
  obtain ⟨hfits, hin⟩ := sectionDecode_ok.1 h
  rw [received_length] at hfits hin
  rw [received, slice_memRead s le_rfl] at hin
  have := s.ilen.isLt
  exact map_described_tableEntries (cur := 0) (by omega) (by omega) hin

theorem validEntries_setAtab {es : List AtabEntry} (h : es.length < 65536) (s : State) :
    validEntries (setAtab es s) = es := by
  have hcount : (setAtab es s).acount.toNat = es.length := by
    rw [setAtab_acount, BitVec.toNat_ofNat]
    omega
  rw [validEntries, hcount]
  refine List.ext_getElem (by simp) fun i hi hi' => ?_
  rw [List.getElem_map, List.getElem_range, atabAt_setAtab, dif_pos hi']

/-! ## MSG_DECODE (R175) -/

theorem msgDecode_received_ok {s : State} {m : Message} (h : msgDecode (received s) = .ok m) :
    20 ≤ s.ilen.toNat ∧ m.header = ibufHeader s ∧ sectionDecode (received s) (ibufHeader s) = .ok m.attrs := by
  simp only [msgDecode] at h
  split at h
  · cases h
  · next x hx =>
    obtain ⟨hlen, rfl⟩ := hdrDecode_received_ok hx
    split at h
    · cases h
    · next as has =>
      cases h
      exact ⟨hlen, rfl, has⟩

/-- The state that MSG_DECODE leaves when it has decoded the attributes `as`. -/
def msgDecoded (s : State) (as : List Attr) : State :=
  complete false false (cookieOk (ibufHeader s)) (setAtab (tableEntries 20 as) (setHdrRegs (ibufHeader s) s))

section
variable {s : State} (hc : s.cfg.enforceCookie = true → ibufBytes s 4 4 = [0x21, 0x12, 0xA4, 0x42])
include hc

theorem hdrCheck_ibufHeader : hdrCheck s.cfg (ibufHeader s) = .ok (ibufHeader s) :=
  hdrCheck_accepts fun he => (cookieOk_iff s).2 (hc he)

theorem exec_msgDecode_error {e : ErrCode} (h : msgDecode (received s) = .error e) :
    exec .msgDecode s = .next (raise e s) := by
  by_cases hlen : 20 ≤ s.ilen.toNat
  · simp only [msgDecode, hdr_received hlen] at h
    cases hsection : sectionDecode (received s) (ibufHeader s) with
    | ok as => simp [hsection] at h
    | error e' =>
      rw [hsection] at h
      cases h
      simp only [exec, execMsgDecode, hdr_received hlen, hdrCheck_ibufHeader hc, hsection, settle_error]
  · have hshort : (received s).length < 20 := by simpa using hlen
    simp only [msgDecode, hdrDecode_short hshort] at h
    cases h
    exact exec_msgDecode_headerShort (Nat.lt_of_not_le hlen)

theorem exec_msgDecode_decoded {m : Message} (h : msgDecode (received s) = .ok m)
    (hcap : m.attrs.length ≤ s.cfg.atabEntries) : exec .msgDecode s = .next (msgDecoded s m.attrs) := by
  obtain ⟨hlen, -, hsection⟩ := msgDecode_received_ok h
  simp only [exec, execMsgDecode, hdr_received hlen, hdrCheck_ibufHeader hc, hsection, tableOf_ok hcap, settle_ok,
    msgDecoded]

end

section
variable {s : State} {m : Message} (h : msgDecode (received s) = .ok m)
include h

theorem hdrRegs_msgDecoded : hdrRegs (msgDecoded s m.attrs) = m.header := by
  obtain ⟨hlen, hheader, -⟩ := msgDecode_received_ok h
  have hkeep : hdrRegs (msgDecoded s m.attrs) = hdrRegs (setHdrRegs (ibufHeader s) s) := by simp [hdrRegs, msgDecoded]
  rw [hkeep, hdrRegs_setHdrRegs (ibufHeader_valid hlen), hheader]

theorem validEntries_msgDecoded : validEntries (msgDecoded s m.attrs) = tableEntries 20 m.attrs := by
  obtain ⟨-, -, hsection⟩ := msgDecode_received_ok h
  obtain ⟨hfits, hat⟩ := attrsAt_of_sectionDecode hsection
  have hcount := attrsAt_length hat
  have := s.ilen.isLt
  exact validEntries_setAtab (by omega) _

theorem map_described_msgDecoded : (validEntries (msgDecoded s m.attrs)).map (described (msgDecoded s m.attrs)) =
    m.attrs.map (fun a => (a.type, a.dlen, a.value)) := by
  obtain ⟨-, -, hsection⟩ := msgDecode_received_ok h
  rw [validEntries_msgDecoded h, described_congr (t := msgDecoded s m.attrs) (s := s) rfl rfl,
    map_described_section hsection]

end

/-- Settles O33: MSG_DECODE takes the steps of `msg_decode`, and its table describes the attributes. -/
theorem msgDecodeComputesPureDecode : Obligations.MsgDecodeComputesPureDecode := fun s hc =>
  ⟨fun e h => ⟨_, exec_msgDecode_error hc h, raised_raise e s⟩,
    fun _ h hcap => ⟨_, exec_msgDecode_decoded hc h hcap, hdrRegs_msgDecoded h, map_described_msgDecoded h⟩⟩

/-! ## EXTRACT_XMA after MSG_DECODE (R174, R178) -/

/-- How EXTRACT_XMA ends on what `extract_mapped_address` gives (R178). -/
def extractEnd (t : State) : Except ErrCode Extracted → State
  | .error e => raise e t
  | .ok .notApplicable => complete false true false t
  | .ok (.mapped a) => complete true false false (setXmaRegs a t)

section
variable {s : State} {m : Message} (h : msgDecode (received s) = .ok m)
include h

/-- The first valid entry of a type describes the first attribute of that type. -/
theorem findEntry_msgDecoded (ty : Half) :
    (findEntry ty (msgDecoded s m.attrs)).map (described (msgDecoded s m.attrs)) =
      (findAttribute m ty).map (fun a => (a.type, a.dlen, a.value)) := by
  have hfind := congrArg (List.find? (fun d => d.1 = ty)) (map_described_msgDecoded h)
  rwa [List.find?_map, List.find?_map] at hfind

theorem findEntry_msgDecoded_none {ty : Half} (hnone : findAttribute m ty = none) :
    findEntry ty (msgDecoded s m.attrs) = none := by
  simpa [hnone] using findEntry_msgDecoded h ty

theorem findEntry_msgDecoded_some {ty : Half} {a : Attr} (hsome : findAttribute m ty = some a) :
    ∃ e, findEntry ty (msgDecoded s m.attrs) = some e ∧ e.dlen = a.dlen ∧
      ibufBytes (msgDecoded s m.attrs) e.voff.toNat (padded a.dlen.toNat) = a.value := by
  have hmap := findEntry_msgDecoded h ty
  rw [hsome, Option.map_some, Option.map_eq_some_iff] at hmap
  obtain ⟨e, he, hdescribed⟩ := hmap
  simp only [described, Prod.mk.injEq] at hdescribed
  obtain ⟨-, hdlen, hvalue⟩ := hdescribed
  rw [hdlen, pad4_eq_padded] at hvalue
  exact ⟨e, he, hdlen, hvalue⟩

/-- A value of 8 bytes or more, deserialized from the attribute or from IBUF. -/
theorem xmaAt_msgDecoded {ty : Half} {a : Attr} {e : AtabEntry} (he : findEntry ty (msgDecoded s m.attrs) = some e)
    (hdlen : e.dlen = a.dlen) (hvalue : ibufBytes (msgDecoded s m.attrs) e.voff.toNat (padded a.dlen.toNat) = a.value)
    (h8 : 8 ≤ a.dlen.toNat) :
    xmaAt e.voff.toNat (msgDecoded s m.attrs) = xmaDeserialize (slice a.value 0 8) := by
  obtain ⟨-, -, hsection⟩ := msgDecode_received_ok h
  have hmem : e ∈ tableEntries 20 m.attrs := validEntries_msgDecoded h ▸ List.mem_of_find?_eq_some he
  obtain ⟨-, hend⟩ := section_entry hsection hmem
  have h8' : 8 ≤ padded a.dlen.toNat := h8.trans (by unfold padded; omega)
  rw [hdlen] at hend
  have hilen : (msgDecoded s m.attrs).ilen = s.ilen := by simp [msgDecoded]
  rw [xmaAt, hilen, if_neg (by omega), ← hvalue, ibufBytes_eq_memRead, slice_memRead _ h8']
  rfl

/-- EXTRACT_XMA takes the steps of `extract_mapped_address` on the table and IBUF. -/
theorem exec_extractXma_msgDecoded : exec .extractXma (msgDecoded s m.attrs) =
    .next (extractEnd (msgDecoded s m.attrs) (extractMappedAddress m)) := by
  have htype : (msgDecoded s m.attrs).htype = m.header.type := by
    rw [← hdrRegs_msgDecoded h]
    rfl
  by_cases hresponse : m.header.type = typeBindingResponse
  · have hnot := not_not_intro hresponse
    rw [← htype] at hresponse
    simp only [extractMappedAddress, if_neg hnot]
    cases ha : findAttribute m attrXorMappedAddress with
    | none => exact exec_extractXma_attributeNotFound hresponse (findEntry_msgDecoded_none h ha)
    | some a =>
      obtain ⟨e, he, hdlen, hvalue⟩ := findEntry_msgDecoded_some h ha
      by_cases h8 : a.dlen.toNat < 8
      · simp only [if_pos h8]
        exact exec_extractXma_shortBuffer hresponse he (.inl (hdlen ▸ h8))
      · have hxma := xmaAt_msgDecoded h he hdlen hvalue (Nat.le_of_not_lt h8)
        simp only [exec, execExtractXma, if_neg (not_not_intro hresponse), he, hdlen, if_neg h8, hxma]
        cases xmaDeserialize (slice a.value 0 8) <;> rfl
  · rw [extractMappedAddress, if_pos hresponse]
    rw [← htype] at hresponse
    exact exec_extractXma_notApplicable hresponse

end

/-- Settles O35: MSG_DECODE leaves the message in the header registers and the table, and EXTRACT_XMA reads it there. -/
theorem extractAfterDecodeComputesPureExtract : Obligations.ExtractAfterDecodeComputesPureExtract := by
  intro s m hc h hcap
  refine ⟨_, _, exec_msgDecode_decoded hc h hcap, exec_extractXma_msgDecoded h, fun e he => ?error, fun hna => ?na,
    fun a ha => ?mapped⟩
  case error =>
    rw [he]
    exact raised_raise e _
  case na =>
    rw [hna]
    exact ⟨completedWith_complete rfl _ _ _, rfl⟩
  case mapped =>
    rw [ha]
    exact ⟨completedWith_complete rfl _ _ _, rfl⟩

end Sys2Proof.Machine
end
